-- ==== Sys2Proof/Word.lean ====
section
/-! DEFINITION. The words of the block: port and command words are 32 bits, host memory is bytes,
a sample is 16 bits, and 1.0 in 16.16 fixed point is ONE (00_scope.md R8). -/

namespace Sys2Proof

/-- A port register or a command word (00_scope.md R8, PORT_W). -/
abbrev Word := BitVec 32

/-- One byte of host memory (20_memory.md R80). -/
abbrev Byte := BitVec 8

/-- One sample of one channel, two's complement (00_scope.md R8, SAMPLE_W). -/
abbrev Sample := BitVec 16

/-- 1.0 in 16.16 fixed point (00_scope.md R8, R15). -/
def ONE : Nat := 65536

@[simp] theorem ONE_eq : ONE = 65536 := rfl

end Sys2Proof
end

