-- ==== Sys2Proof/Syntax.lean ====
section
/-! DEFINITION. The commands of the block, one constructor per row of spec/opcode_table.json, and the
actions of the world outside it: register accesses, the producer's Wake, power-on reset and the host's
writes to its own memory. -/

namespace Sys2Proof

/-- The two ports, each owned by the agent of the same name (60_exceptions.md R316). -/
inductive Port where
  | producer
  | consumer
deriving DecidableEq, Repr

/-- The 17 commands (30_encoding.md R123). A command has no operand field in its word: its operands
stand in the ARG registers of its port (30_encoding.md R125, R127), so no constructor has arguments. -/
inductive Instr where
  | rsInit
  | rsResample
  | rsResampleDry
  | rsEstimate
  | rsIsNeeded
  | rsReset
  | rbWrite
  | rbRead
  | rbFill
  | rcAdjust
  | engInit
  | engResize
  | engIngest
  | engPull
  | engOccupancy
  | engReset
  | engQuit
deriving DecidableEq, Repr

/-- One action of the world outside the block, as the interface admits it. -/
inductive Input where
  /-- `P.RD off` or `C.RD off` (30_encoding.md R131, R133): a read of `width` bytes at byte offset `off`. -/
  | read (p : Port) (width : Nat) (off : Word)
  /-- `P.WR off, v` or `C.WR off, v`: a write of `width` bytes at byte offset `off`. -/
  | write (p : Port) (width : Nat) (off : Word) (v : Word)
  /-- the draw falls on the producer's Wake section (44_engine.md R256, 60_exceptions.md R312) -/
  | wake
  /-- the power-on reset signal (70_reset_and_hazards.md R340) -/
  | powerOn
  /-- an agent of the host writes one byte of host memory between two sections (20_memory.md R93) -/
  | hostWrite (a : Word) (b : Byte)
deriving DecidableEq, Repr

end Sys2Proof
end

