-- ==== Sys2Proof/Config.lean ====
section
/-! DEFINITION. What an implementation or its environment fixes and the spec leaves open: the parameters
of 00_scope.md R9 and the free values. Every open value is an opaque constant without a body, so no proof
can see what it is. -/

namespace Sys2Proof

/-- One entry of the host's admission predicate HostOK (20_memory.md R83). `exact` admits one range, so a
list of entries can have any extension on the ranges a command can ask for; `within` admits every range
inside a region. DESIGN CHOICE, safe (log 3). -/
inductive Admission where
  | exact (a n : Nat)
  | within (base size : Nat)
deriving DecidableEq, Repr

/-- The parameters the rules read (00_scope.md R9, 10_state.md R53). They are carried in the state, so a
statement about every state ranges over every value of them. DESIGN CHOICE, safe (log 2). -/
structure Params where
  /-- NMAX, the largest ring the block can hold, at least 2 -/
  nMax : Nat
  /-- RETRY_MAX, the largest number of sleeps of one ENG.INGEST -/
  retryMax : Nat
  /-- HostOK, by its extension -/
  admitted : List Admission
deriving DecidableEq, Repr

/-- The views of a value that the spec gives no bound and shows in a 32-bit word without saying how it
narrows (log 10). -/
inductive WideView where
  | capacity | wcur | rcur | attempts | finfo
deriving DecidableEq, Repr

/-- NMAX less 2: NMAX is any integer of at least 2 (00_scope.md R9, OPEN). DESIGN CHOICE, safe (log 2). -/
opaque Config.nMaxAboveTwo : Nat

/-- NMAX of an implementation (00_scope.md R9). -/
def Config.nMax : Nat := Config.nMaxAboveTwo + 2

/-- The RETRY_MAX an implementation sets, any integer of at least 0; none where it sets none
(00_scope.md R9). DESIGN CHOICE, safe (log 2). -/
opaque Config.retryMaxSetting : Option Nat

/-- RETRY_MAX's default, 10 sleeps (00_scope.md R9). -/
def Config.retryMaxDefault : Nat := 10

/-- RETRY_MAX under a setting: the setting, else the default (00_scope.md R9). -/
def Config.retryMaxOf (setting : Option Nat) : Nat := setting.getD Config.retryMaxDefault

/-- RETRY_MAX of an implementation (00_scope.md R9). -/
def Config.retryMax : Nat := Config.retryMaxOf Config.retryMaxSetting

/-- HostOK of a host (20_memory.md R83). DESIGN CHOICE, safe (log 2). -/
opaque Config.admitted : List Admission

/-- The sink's granted rate: the `k`-th draw of GRANT for a requested rate (44_engine.md R251,
93_implementation_defined.md I5: any signed 32-bit value). DESIGN CHOICE, safe (log 4). -/
opaque Config.grant : Nat → Word → Word

/-- What a 32-bit word shows of a value of 2^32 or more, where the spec states no narrowing.
DESIGN CHOICE, safe (log 10). -/
opaque Config.wideWord : WideView → Nat → Word

/-- The upper 24 bits of PORT_BASE_P and PORT_BASE_C: any 0x100-aligned address (00_scope.md R9, OPEN).
No rule depends on it. DESIGN CHOICE, safe (log 19). -/
opaque Config.portBaseHigh : Port → BitVec 24

/-- PORT_BASE_P or PORT_BASE_C (00_scope.md R9, 20_memory.md R90). -/
def Config.portBase (p : Port) : Word := Config.portBaseHigh p ++ (0 : BitVec 8)

/-- The parameters of one implementation in one host. -/
def Config.params : Params :=
  { nMax := Config.nMax, retryMax := Config.retryMax, admitted := Config.admitted }

end Sys2Proof
end

