-- ==== Sys2Proof/WellFormed.lean ====
section
/-! DEFINITION. What is well formed: a command word, a register access, the parameters. A command itself
has no operand fields, so every command is well formed (30_encoding.md R127). -/

namespace Sys2Proof

/-- 30_encoding.md R127: OPC is the only field of the word, so no command can be ill formed. -/
def Instr.wellFormed (_ : Instr) : Bool := true

/-- 30_encoding.md R122: the reserved bits [31:8] are 0. -/
def reservedZero (c : Word) : Bool := c.extractLsb' 8 24 == 0

/-- 30_encoding.md R123: the OPC values of the map, which R128 lists the complement of. -/
def opcodeMapped (c : Word) : Bool :=
  let o := (c.extractLsb' 0 8).toNat
  (0x10 ≤ o && o ≤ 0x15) || (0x20 ≤ o && o ≤ 0x22) || o == 0x30 || (0x40 ≤ o && o ≤ 0x46)

/-- 30_encoding.md R128: a command word that is not illegal. -/
def commandWordWellFormed (c : Word) : Bool := reservedZero c && opcodeMapped c

/-- 20_memory.md R90: the access is 32 bits wide. -/
def accessWidthOK (width : Nat) : Bool := width == 4

/-- 20_memory.md R90: the access is aligned. -/
def accessAligned (off : Word) : Bool := off.toNat % 4 == 0

/-- 20_memory.md R90: the access is at an offset in [0x00, 0xFC]. -/
def accessInWindow (off : Word) : Bool := off.toNat ≤ 0xFC

/-- 20_memory.md R90: an aligned 32-bit access inside the window. -/
def accessWellFormed (width : Nat) (off : Word) : Bool :=
  accessWidthOK width && accessAligned off && accessInWindow off

/-- An action of the outside world whose register access, if it is one, is well formed. -/
def Input.wellFormed : Input → Bool
  | .read _ width off => accessWellFormed width off
  | .write _ width off _ => accessWellFormed width off
  | .wake => true
  | .powerOn => true
  | .hostWrite _ _ => true

/-- 00_scope.md R9: NMAX is at least 2. -/
def Params.wellFormed (p : Params) : Bool := 2 ≤ p.nMax

end Sys2Proof
end

