-- ==== Sys2Proof/Decode.lean ====
section
/-! DEFINITION. The decoder of command words (30_encoding.md R120 to R130), the encoder, the port of each
command, its mnemonic and its number of operands. -/

namespace Sys2Proof

/-- Why a command word is illegal (30_encoding.md R128). -/
inductive DecodeError where
  /-- RSV ≠ 0 (R122) -/
  | reservedBitsSet
  /-- OPC is not in the map of R123 -/
  | opcodeUnassigned
deriving DecidableEq, Repr

/-- The opcode map (30_encoding.md R123), matched on the whole OPC byte (R121). -/
def decodeOpcode (o : Nat) : Except DecodeError Instr :=
  match o with
  | 0x10 => .ok .rsInit
  | 0x11 => .ok .rsResample
  | 0x12 => .ok .rsResampleDry
  | 0x13 => .ok .rsEstimate
  | 0x14 => .ok .rsIsNeeded
  | 0x15 => .ok .rsReset
  | 0x20 => .ok .rbWrite
  | 0x21 => .ok .rbRead
  | 0x22 => .ok .rbFill
  | 0x30 => .ok .rcAdjust
  | 0x40 => .ok .engInit
  | 0x41 => .ok .engResize
  | 0x42 => .ok .engIngest
  | 0x43 => .ok .engPull
  | 0x44 => .ok .engOccupancy
  | 0x45 => .ok .engReset
  | 0x46 => .ok .engQuit
  | _ => .error .opcodeUnassigned

/-- The decoder (30_encoding.md R130): total on every 32-bit word, one word a command. RSV is tested
first (R122). -/
def decode (c : Word) : Except DecodeError Instr :=
  if c.extractLsb' 8 24 = 0 then decodeOpcode (c.extractLsb' 0 8).toNat else .error .reservedBitsSet

/-- The OPC byte of a command (30_encoding.md R123). -/
def opcodeOf : Instr → BitVec 8
  | .rsInit => 0x10
  | .rsResample => 0x11
  | .rsResampleDry => 0x12
  | .rsEstimate => 0x13
  | .rsIsNeeded => 0x14
  | .rsReset => 0x15
  | .rbWrite => 0x20
  | .rbRead => 0x21
  | .rbFill => 0x22
  | .rcAdjust => 0x30
  | .engInit => 0x40
  | .engResize => 0x41
  | .engIngest => 0x42
  | .engPull => 0x43
  | .engOccupancy => 0x44
  | .engReset => 0x45
  | .engQuit => 0x46

/-- The command word of a command (30_encoding.md R120): RSV = 0, then OPC. -/
def encode (i : Instr) : Word := (0 : BitVec 24) ++ opcodeOf i

/-- The port a command belongs to (30_encoding.md R123, 60_exceptions.md R303). -/
def portOf : Instr → Port
  | .rbRead => .consumer
  | .engPull => .consumer
  | .rsInit => .producer
  | .rsResample => .producer
  | .rsResampleDry => .producer
  | .rsEstimate => .producer
  | .rsIsNeeded => .producer
  | .rsReset => .producer
  | .rbWrite => .producer
  | .rbFill => .producer
  | .rcAdjust => .producer
  | .engInit => .producer
  | .engResize => .producer
  | .engIngest => .producer
  | .engOccupancy => .producer
  | .engReset => .producer
  | .engQuit => .producer

/-- The mnemonic of a command (30_encoding.md R123, R131). -/
def mnemonicOf : Instr → String
  | .rsInit => "RS.INIT"
  | .rsResample => "RS.RESAMPLE"
  | .rsResampleDry => "RS.RESAMPLE.DRY"
  | .rsEstimate => "RS.ESTIMATE"
  | .rsIsNeeded => "RS.ISNEEDED"
  | .rsReset => "RS.RESET"
  | .rbWrite => "RB.WRITE"
  | .rbRead => "RB.READ"
  | .rbFill => "RB.FILL"
  | .rcAdjust => "RC.ADJUST"
  | .engInit => "ENG.INIT"
  | .engResize => "ENG.RESIZE"
  | .engIngest => "ENG.INGEST"
  | .engPull => "ENG.PULL"
  | .engOccupancy => "ENG.OCCUPANCY"
  | .engReset => "ENG.RESET"
  | .engQuit => "ENG.QUIT"

/-- What an ARG word of a command holds (30_encoding.md R125). -/
inductive OperandKind where
  /-- a rate, sext_32 -/
  | hertz
  /-- a byte address of host memory, zext_32 -/
  | address
  /-- a number of frames, zext_32 -/
  | frames
  /-- a 16.16 value: a speed (sext_32), a fill fraction, a frame rate or a duration (zext_32) -/
  | fixed
  /-- a packed frame -/
  | frame
deriving DecidableEq, Repr

/-- The operands of a command, in ARG order (30_encoding.md R125). -/
def operandKinds : Instr → List OperandKind
  | .rsInit => [.hertz, .hertz]
  | .rsResample => [.address, .frames, .fixed]
  | .rsResampleDry => [.address, .frames, .fixed]
  | .rsEstimate => [.frames, .fixed]
  | .rsIsNeeded => [.hertz, .hertz]
  | .rsReset => []
  | .rbWrite => [.frame]
  | .rbRead => []
  | .rbFill => []
  | .rcAdjust => [.fixed]
  | .engInit => [.hertz, .hertz, .fixed, .fixed]
  | .engResize => [.hertz, .fixed, .fixed]
  | .engIngest => [.address, .frames]
  | .engPull => [.address, .frames]
  | .engOccupancy => []
  | .engReset => []
  | .engQuit => []

/-- How many ARG registers a command reads (30_encoding.md R125). -/
def operandCount (i : Instr) : Nat := (operandKinds i).length

/-- The word a row's bits stand for: bit 0 is the least significant, every bit above `nbits` is 0. -/
def tableWord (nbits w : Nat) : Nat := w % 2 ^ nbits

/-- The command the decoder reads from an instruction whose `nbits` bits are `w`; none where it refuses,
and none for bits beyond the one 32-bit word a command has (30_encoding.md R120). -/
def decodeTableWord (nbits w : Nat) : Option Instr :=
  if tableWord nbits w < 2 ^ 32 then (decode (BitVec.ofNat 32 (tableWord nbits w))).toOption else none

end Sys2Proof
end

