-- ==== Sys2Proof/Machine/State.lean ====
section
/-! DEFINITION. The state of the block (10_state.md R30), the environment the model holds beside it as
plain data, the reasons a step stops, and the state after power-on reset (10_state.md R51). -/

namespace Sys2Proof.Machine

/-- A Frame: one sample of each channel (10_state.md R30). -/
structure Frame where
  l : Sample
  r : Sample
deriving DecidableEq, Repr

/-- The frame (0, 0). -/
def Frame.zero : Frame := { l := 0, r := 0 }

/-- The engine states (10_state.md R36). -/
inductive EngineState where
  | uninit | ready | resized | shutdown
deriving DecidableEq, Repr

/-- The completion codes (60_exceptions.md R300). Codes 5 to 15 are never produced. -/
inductive Code where
  | ok | errAlloc | errState | errIllegal | errPort
deriving DecidableEq, Repr

/-- The fault causes (60_exceptions.md R306). Causes 5 to 15 are never produced. -/
inductive FaultCause where
  | none | fSpeed | fRbFull | fBusy | fPort
deriving DecidableEq, Repr

/-- `iphase` (10_state.md R34): k is the number of sleeps taken so far, src and count the operands latched
when the ENG.INGEST started. -/
inductive IngestPhase where
  | idle
  | sleeping (k : Nat) (src count : Word)
deriving DecidableEq, Repr

/-- `lock` (10_state.md R48). -/
inductive Lock where
  | free
  | heldBy (p : Port)
deriving DecidableEq, Repr

/-- The resampler state (10_state.md R38 to R42). The rates are signed 32-bit words. -/
structure ResamplerState where
  inRate : Word
  outRate : Word
  step : Nat
  fracPos : Nat
  prev : Frame
  hasPrev : Bool
deriving DecidableEq, Repr

/-- The ring buffer (10_state.md R43 to R45). `cap` is the spec's N; 0 means the store is absent. -/
structure RingState where
  cap : Nat
  store : List Frame
  w : Nat
  r : Nat
deriving DecidableEq, Repr

/-- The producer port's registers (10_state.md R31, R50). -/
structure ProducerPort where
  arg0 : Word
  arg1 : Word
  arg2 : Word
  arg3 : Word
  res0 : Word
  res1 : Word
  code : Code
deriving DecidableEq, Repr

/-- The consumer port's registers (10_state.md R32, R50). -/
structure ConsumerPort where
  arg0 : Word
  arg1 : Word
  res0 : Word
  res1 : Word
  code : Code
deriving DecidableEq, Repr

/-- Host memory (20_memory.md R80) in one canonical form: addresses strictly rising, no entry equal to
what an unlisted address reads as (`Memory.wf`). -/
abbrev Memory := List Host.Cell

/-- What stands outside the block and the model holds as plain data: host memory, the parameters, the
sink's answers, and the host's actions still to come. None of it is the block's state (10_state.md R53). -/
structure Env where
  /-- host memory (20_memory.md R80) -/
  mem : Memory
  /-- NMAX, RETRY_MAX and HostOK (00_scope.md R9; log 2) -/
  params : Params
  /-- GRANT answers that stand ready, the next one first (log 4) -/
  grants : List Word
  /-- how many GRANT draws ENG.INIT has taken (log 4) -/
  draws : Nat
  /-- the actions still to come, in the one total order of 20_memory.md R93 (log 5) -/
  script : List Input
  /-- the word the producer's last register read returned (log 11) -/
  pBus : Word
  /-- the word the consumer's last register read returned (log 11) -/
  cBus : Word
deriving DecidableEq, Repr

/-- The state tuple of 10_state.md R30, then the model's own fields. -/
structure State where
  estate : EngineState
  consEn : Bool
  rs : ResamplerState
  ring : RingState
  lastRead : Frame
  hasLast : Bool
  iphase : IngestPhase
  lock : Lock
  fault : Bool
  fcause : FaultCause
  finfo : Word
  pport : ProducerPort
  cport : ConsumerPort
  /-- the producer has a command issued that has no enabled step (60_exceptions.md R308; log 6) -/
  pStuck : Bool
  /-- the consumer has a command issued that has no enabled step (60_exceptions.md R308; log 6) -/
  cStuck : Bool
  env : Env
deriving DecidableEq, Repr

/-- Why a step stops the machine. -/
inductive Fault where
  /-- Raised by an agent's step of a faulted block: 60_exceptions.md R305 gives it no step. Safe. -/
  | blockFaulted
  /-- Raised by a step of an agent whose issued command has no enabled step: 60_exceptions.md R308, a hang
  the model reports. Safe. -/
  | agentStuck (p : Port)
  /-- Raised by a section asked for while the lock is held (20_memory.md R97). No run reaches such a state,
  since every step ends with the lock FREE (10_state.md R48). Safe. -/
  | lockHeld (p : Port)
deriving DecidableEq, Repr

/-- Why a step has no meaning. -/
inductive Refusal where
  /-- Raised by an arm of `exec` for a command without a meaning yet. No arm is left so. Safe. -/
  | notModelled (mnemonic : String)
  /-- Raised when the script draws the producer's Wake while no ENG.INGEST sleeps: 60_exceptions.md R312
  lets only an enabled step be drawn. Safe. -/
  | wakeNotEnabled
deriving DecidableEq, Repr

/-- The ring with its store absent (10_state.md R43, R45). -/
def RingState.absent : RingState := { cap := 0, store := [], w := 0, r := 0 }

/-- The environment of a machine just built: no action, no answer, no byte listed. -/
def Env.initial : Env :=
  { mem := [], params := Config.params, grants := [], draws := 0, script := [], pBus := 0, cBus := 0 }

/-- The machine right after power-on reset (10_state.md R51, 70_reset_and_hazards.md R340). -/
def State.reset : State where
  estate := .uninit
  consEn := false
  rs := { inRate := 0, outRate := 0, step := ONE, fracPos := 0, prev := Frame.zero, hasPrev := false }
  ring := RingState.absent
  lastRead := Frame.zero
  hasLast := false
  iphase := .idle
  lock := .free
  fault := false
  fcause := .none
  finfo := 0
  pport := { arg0 := 0, arg1 := 0, arg2 := 0, arg3 := 0, res0 := 0, res1 := 0, code := .ok }
  cport := { arg0 := 0, arg1 := 0, res0 := 0, res1 := 0, code := .ok }
  pStuck := false
  cStuck := false
  env := Env.initial

end Sys2Proof.Machine
end

