-- ==== Sys2Proof/Machine/Operands.lean ====
section
/-! DEFINITION. How ARG words become values and values become RES words (30_encoding.md R125, R126), and
how a frame is packed (20_memory.md R81). -/

namespace Sys2Proof.Machine

/-- sext_32 (00_scope.md R12). -/
def sext32 (v : Word) : Int := v.toInt

/-- zext_32 (00_scope.md R12). -/
def zext32 (v : Word) : Nat := v.toNat

/-- trunc_32 (00_scope.md R12). -/
def trunc32 (z : Int) : Word := BitVec.ofInt 32 z

/-- sat_u32 (00_scope.md R12), on the counts and estimates it is used for, which are never negative. -/
def satU32 (n : Nat) : Word := BitVec.ofNat 32 (min n (2 ^ 32 - 1))

/-- A flag as a RES word or a flag register: 0 or 1 (30_encoding.md R126). -/
def flagWord (b : Bool) : Word := if b then 1 else 0

/-- Pack (20_memory.md R81): right in word[31:16], left in word[15:0]. -/
def pack (f : Frame) : Word := f.r ++ f.l

/-- Unpack (20_memory.md R81). -/
def unpack (v : Word) : Frame := { l := v.extractLsb' 0 16, r := v.extractLsb' 16 16 }

/-- A value shown in a 32-bit word where the spec says only 'the register is the value': the value itself
when it fits, a free value when it does not. DESIGN CHOICE, safe (log 10). -/
def wideWord (v : WideView) (n : Nat) : Word :=
  if n < 2 ^ 32 then BitVec.ofNat 32 n else Config.wideWord v n

end Sys2Proof.Machine
end

