-- ==== Sys2Proof/Machine/Flags.lean ====
section
/-! DEFINITION. The flag and status words: STATUS (10_state.md R50), ENGSTATE, RS_FLAGS and LAST_FLAGS
(10_state.md R52), and the engine-state tests of the commands (44_engine.md R274). -/

namespace Sys2Proof.Machine

/-- The 4-bit code of a completion (60_exceptions.md R300). -/
def Code.bits : Code → BitVec 4
  | .ok => 0
  | .errAlloc => 1
  | .errState => 2
  | .errIllegal => 3
  | .errPort => 4

/-- The 4-bit code of a fault cause (60_exceptions.md R306). -/
def FaultCause.bits : FaultCause → BitVec 4
  | .none => 0
  | .fSpeed => 1
  | .fRbFull => 2
  | .fBusy => 3
  | .fPort => 4

/-- ENGSTATE.STATE (10_state.md R36). -/
def EngineState.bits : EngineState → BitVec 2
  | .uninit => 0
  | .ready => 1
  | .resized => 2
  | .shutdown => 3

/-- `iphase` is Sleeping: an ENG.INGEST is between two attempts (10_state.md R34). -/
def IngestPhase.busy : IngestPhase → Bool
  | .idle => false
  | .sleeping _ _ _ => true

/-- ATTEMPTS' value (10_state.md R52). -/
def IngestPhase.attempts : IngestPhase → Nat
  | .idle => 0
  | .sleeping k _ _ => k

/-- The BUSY bit of a port: the producer's while `iphase` ≠ Idle, the consumer's always 0
(10_state.md R50). -/
def busyOf (p : Port) (s : State) : Bool :=
  match p with
  | .producer => s.iphase.busy
  | .consumer => false

/-- The completion code of a port (10_state.md R50). -/
def codeOf (p : Port) (s : State) : Code :=
  match p with
  | .producer => s.pport.code
  | .consumer => s.cport.code

/-- FCAUSE as STATUS shows it: 0 while `fault` is false (10_state.md R50). -/
def causeShown (s : State) : BitVec 4 := if s.fault then s.fcause.bits else 0

/-- STATUS of a port (10_state.md R50): FCAUSE in [23:20], FAULT in [16], BUSY in [8], CODE in [3:0]. -/
def statusWord (p : Port) (s : State) : Word :=
  (0 : BitVec 8) ++ causeShown s ++ (0 : BitVec 3) ++ BitVec.ofBool s.fault ++ (0 : BitVec 7)
    ++ BitVec.ofBool (busyOf p s) ++ (0 : BitVec 4) ++ (codeOf p s).bits

/-- ENGSTATE (10_state.md R52): STORE in [5], CONS_EN in [4], STATE in [1:0]. -/
def engStateWord (s : State) : Word :=
  (0 : BitVec 26) ++ BitVec.ofBool (decide (0 < s.ring.cap)) ++ BitVec.ofBool s.consEn ++ (0 : BitVec 2)
    ++ s.estate.bits

/-- RS.*, RB.* and RC.ADJUST run in every state but SHUTDOWN (44_engine.md R274). -/
def componentRuns (s : State) : Bool := s.estate != .shutdown

/-- ENG.INIT runs in UNINIT only (44_engine.md R274). -/
def initRuns (s : State) : Bool := s.estate == .uninit

/-- ENG.RESIZE, ENG.INGEST, ENG.OCCUPANCY, ENG.RESET and ENG.QUIT run in READY and RESIZED
(44_engine.md R274). -/
def engineRuns (s : State) : Bool := s.estate == .ready || s.estate == .resized

/-- ENG.PULL runs while cons_en is true (44_engine.md R265, R274). -/
def pullRuns (s : State) : Bool := s.consEn

end Sys2Proof.Machine
end

