-- ==== Sys2Proof/Machine/Ops.lean ====
section
/-! DEFINITION. The named operations the meanings are built from: host memory, the ring-buffer primitives,
completion and results, raising a fault and power-on reset, the lock, and the port registers. -/

namespace Sys2Proof.Machine

/-! ## Host memory (20_memory.md R80 to R86) -/

/-- One byte of host memory. An unlisted byte reads 0: DESIGN CHOICE, unsafe (log 1). -/
def memRead : Memory → Nat → Byte
  | [], _ => 0#8
  | (k, b) :: m, a => if k = a then b else memRead m a

/-- Host memory with one byte written; the canonical form is kept (`Memory.wf_memWrite`). -/
def memWrite : Memory → Nat → Byte → Memory
  | [], a, b => if b = 0#8 then [] else [(a, b)]
  | (k, c) :: m, a, b =>
    if a < k then (if b = 0#8 then (k, c) :: m else (a, b) :: (k, c) :: m)
    else if a = k then (if b = 0#8 then m else (a, b) :: m)
    else (k, c) :: memWrite m a b

/-- The canonical form from address `lo` on. -/
def Memory.wfFrom (lo : Nat) : Memory → Bool
  | [] => true
  | (a, b) :: m => lo ≤ a && a < 2 ^ 32 && b != 0#8 && Memory.wfFrom (a + 1) m

/-- The canonical form of host memory: addresses strictly rising inside the 2^32 bytes of 20_memory.md R80,
and no entry equal to what an unlisted byte reads as. -/
def Memory.wf (m : Memory) : Bool := Memory.wfFrom 0 m

/-- MemRead(a, 4), little-endian (20_memory.md R82, R84). -/
def memRead32 (m : Memory) (a : Nat) : Word :=
  memRead m (a + 3) ++ memRead m (a + 2) ++ memRead m (a + 1) ++ memRead m a

/-- MemWrite(a, 4, v), little-endian (20_memory.md R82, R85). -/
def memWrite32 (m : Memory) (a : Nat) (v : Word) : Memory :=
  memWrite (memWrite (memWrite (memWrite m a (v.extractLsb' 0 8)) (a + 1) (v.extractLsb' 8 8)) (a + 2)
    (v.extractLsb' 16 8)) (a + 3) (v.extractLsb' 24 8)

/-- The input frames at `a`: frame i is Unpack(MemRead(a + 4·i, 4)) (41_resampler.md R151). -/
def readFrames (m : Memory) (a : Nat) : Nat → List Frame
  | 0 => []
  | k + 1 => unpack (memRead32 m a) :: readFrames m (a + 4) k

/-- Whether one admission admits the `n` bytes at `a`. -/
def admits (a n : Nat) : Admission → Bool
  | .exact a' n' => a' == a && n' == n
  | .within base size => base ≤ a && a + n ≤ base + size

/-- HostOK (20_memory.md R83). -/
def hostOK (p : Params) (a n : Nat) : Bool := p.admitted.any (admits a n)

/-- RangeOK for `n` frames at `a` (20_memory.md R83). -/
def rangeOK (e : Env) (a n : Nat) : Bool :=
  n == 0 || (decide (a + 4 * n ≤ 2 ^ 32) && hostOK e.params a (4 * n))

/-! ## The ring buffer (42_ringbuffer.md R201 to R209) -/

/-- Occ() (42_ringbuffer.md R202). -/
def RingState.occ (g : RingState) : Nat :=
  if g.cap = 0 then 0 else (((g.w : Int) - (g.r : Int)) % (g.cap : Int)).toNat

/-- RingFull() (42_ringbuffer.md R203). -/
def RingState.full (g : RingState) : Bool := g.cap == 0 || (g.w + 1) % g.cap == g.r

/-- Free() (42_ringbuffer.md R204). -/
def RingState.freeSpace (g : RingState) : Nat := if g.cap = 0 then 0 else g.cap - 1 - g.occ

/-- FillFx() (42_ringbuffer.md R209). -/
def RingState.fillFx (g : RingState) : Nat := if g.cap = 0 then 0 else g.occ * ONE / g.cap

/-- What RingWrite does once it has found space (42_ringbuffer.md R205). -/
def RingState.push (f : Frame) (g : RingState) : RingState :=
  { g with store := g.store.set g.w f, w := (g.w + 1) % g.cap }

/-- RingRead (42_ringbuffer.md R206): the frame and the ring after it, or none for EMPTY. -/
def RingState.pop (g : RingState) : Option (Frame × RingState) :=
  if g.occ = 0 then none else some (g.store.getD g.r Frame.zero, { g with r := (g.r + 1) % g.cap })

/-- Size(n) (44_engine.md R252): zero-filled, both cursors 0. -/
def RingState.sized (n : Nat) : RingState := { cap := n, store := List.replicate n Frame.zero, w := 0, r := 0 }

/-! ## Completion and results (60_exceptions.md R300, 30_encoding.md R126) -/

/-- Completes the command on a port with a code. -/
def State.withCode (p : Port) (c : Code) (s : State) : State :=
  match p with
  | .producer => { s with pport := { s.pport with code := c } }
  | .consumer => { s with cport := { s.cport with code := c } }

/-- P.RES0 ← a. -/
def State.withPRes0 (a : Word) (s : State) : State := { s with pport := { s.pport with res0 := a } }

/-- P.RES0 ← a; P.RES1 ← b. -/
def State.withPRes (a b : Word) (s : State) : State := { s with pport := { s.pport with res0 := a, res1 := b } }

/-- C.RES0 ← a; C.RES1 ← b. -/
def State.withCRes (a b : Word) (s : State) : State := { s with cport := { s.cport with res0 := a, res1 := b } }

/-- The resampler state replaced. -/
def State.withRs (x : ResamplerState) (s : State) : State := { s with rs := x }

/-- The ring replaced. -/
def State.withRing (g : RingState) (s : State) : State := { s with ring := g }

/-- What a step of the block can answer. -/
abbrev Result := Host.Outcome State Fault Refusal

/-- A command's engine-state test (44_engine.md R274, 60_exceptions.md R304): ERR_STATE and no other effect
where the command does not run. -/
def whenRuns (p : Port) (runs : Bool) (s : State) (body : Result) : Result :=
  if runs then body else .next (s.withCode p .errState)

/-! ## Faults, stuck ports and power-on reset -/

/-- `raise Fault(cause)(finfo = v)` (60_exceptions.md R305): the block's one synchronous exception. It saves
no state and transfers no control (R309); a fault already set is kept. -/
def raiseFault (c : FaultCause) (v : Word) (s : State) : State :=
  if s.fault then s else { s with fault := true, fcause := c, finfo := v }

/-- The only way out of a fault or a stuck port (60_exceptions.md R309; 70_reset_and_hazards.md R340): every
element of the state tuple takes its reset value. Host memory and the rest of the environment are not
touched. -/
def powerOn (s : State) : State := { State.reset with env := s.env }

/-- The agent's issued command has no enabled step: no state of the block changes and no code is set
(20_memory.md R83, 60_exceptions.md R308; log 6). -/
def State.stall (p : Port) (s : State) : State :=
  match p with
  | .producer => { s with pStuck := true }
  | .consumer => { s with cStuck := true }

/-- Whether an agent is stuck (60_exceptions.md R308). -/
def stuckOf (p : Port) (s : State) : Bool :=
  match p with
  | .producer => s.pStuck
  | .consumer => s.cStuck

/-! ## The lock (20_memory.md R92, R97) -/

/-- The outcome with a function applied to its next state. -/
def mapNext (f : State → State) : Result → Result
  | .next s => .next (f s)
  | .fault r => .fault r
  | .refused r => .refused r

/-- The lock taken by an agent. -/
def State.acquire (p : Port) (s : State) : State := { s with lock := .heldBy p }

/-- The lock released. -/
def State.release (s : State) : State := { s with lock := .free }

/-- One atomic section of an agent (20_memory.md R92): the lock is held from its first action to its last. -/
def inSection (p : Port) (s : State) (body : State → Result) : Result :=
  match s.lock with
  | .free => mapNext State.release (body (s.acquire p))
  | .heldBy q => .fault (.lockHeld q)

/-! ## The environment -/

/-- The script replaced. -/
def State.withScript (l : List Input) (s : State) : State := { s with env := { s.env with script := l } }

/-- Host memory replaced. -/
def State.withMem (m : Memory) (s : State) : State := { s with env := { s.env with mem := m } }

/-- The word a register read returned to its agent (log 11). -/
def State.withBus (p : Port) (v : Word) (s : State) : State :=
  match p with
  | .producer => { s with env := { s.env with pBus := v } }
  | .consumer => { s with env := { s.env with cBus := v } }

/-- GRANT(req) (44_engine.md R251): the sink's ready answer if there is one, else a free value (log 4). -/
def grantOf (e : Env) (req : Word) : Word :=
  match e.grants with
  | g :: _ => g
  | [] => Config.grant e.draws req

/-- The environment after one draw of GRANT. -/
def Env.drawn (e : Env) : Env := { e with grants := e.grants.tail, draws := e.draws + 1 }

/-! ## The port registers (30_encoding.md R124, R133; 10_state.md R50, R52) -/

/-- A read of the producer window. A reserved offset, and CMD, read 0 (20_memory.md R88). -/
def readProducer (off : Nat) (s : State) : Word :=
  match off with
  | 0x04 => s.pport.arg0
  | 0x08 => s.pport.arg1
  | 0x0C => s.pport.arg2
  | 0x10 => s.pport.arg3
  | 0x14 => s.pport.res0
  | 0x18 => s.pport.res1
  | 0x1C => statusWord .producer s
  | 0x20 => engStateWord s
  | 0x24 => wideWord .capacity s.ring.cap
  | 0x28 => wideWord .wcur s.ring.w
  | 0x2C => wideWord .rcur s.ring.r
  | 0x30 => s.rs.inRate
  | 0x34 => s.rs.outRate
  | 0x38 => trunc32 s.rs.step
  | 0x3C => trunc32 (s.rs.step / 2 ^ 32)
  | 0x40 => trunc32 s.rs.fracPos
  | 0x44 => trunc32 (s.rs.fracPos / 2 ^ 32)
  | 0x48 => pack s.rs.prev
  | 0x4C => flagWord s.rs.hasPrev
  | 0x50 => s.finfo
  | 0x54 => wideWord .attempts s.iphase.attempts
  | _ => 0

/-- A read of the consumer window (30_encoding.md R124). -/
def readConsumer (off : Nat) (s : State) : Word :=
  match off with
  | 0x04 => s.cport.arg0
  | 0x08 => s.cport.arg1
  | 0x14 => s.cport.res0
  | 0x18 => s.cport.res1
  | 0x1C => statusWord .consumer s
  | 0x20 => pack s.lastRead
  | 0x24 => flagWord s.hasLast
  | _ => 0

/-- A read of a port's register. -/
def readReg (p : Port) (off : Word) (s : State) : Word :=
  match p with
  | .producer => readProducer off.toNat s
  | .consumer => readConsumer off.toNat s

/-- A write of a producer register other than CMD: an ARG register stores the word, any other write is
ignored (30_encoding.md R133). -/
def writeProducer (off : Nat) (v : Word) (s : State) : State :=
  match off with
  | 0x04 => { s with pport := { s.pport with arg0 := v } }
  | 0x08 => { s with pport := { s.pport with arg1 := v } }
  | 0x0C => { s with pport := { s.pport with arg2 := v } }
  | 0x10 => { s with pport := { s.pport with arg3 := v } }
  | _ => s

/-- A write of a consumer register other than CMD (30_encoding.md R133). -/
def writeConsumer (off : Nat) (v : Word) (s : State) : State :=
  match off with
  | 0x04 => { s with cport := { s.cport with arg0 := v } }
  | 0x08 => { s with cport := { s.cport with arg1 := v } }
  | _ => s

/-- A write of a port's register other than CMD. -/
def writeReg (p : Port) (off v : Word) (s : State) : State :=
  match p with
  | .producer => writeProducer off.toNat v s
  | .consumer => writeConsumer off.toNat v s

end Sys2Proof.Machine
end

