-- ==== Sys2Proof/Machine/Datapath.lean ====
section
/-! DEFINITION. The datapath: step, adjusted step, interpolation and the resample core (41_resampler.md
R156 to R161), the estimate (R166), the rate controller (43_ratecontrol.md R231) and the sizing
(44_engine.md R252). All arithmetic is exact (00_scope.md R10). -/

namespace Sys2Proof.Machine

/-- Step(in, out) (41_resampler.md R156). -/
def stepOf (i o : Int) : Nat :=
  if i ≤ 0 ∨ o ≤ 0 then ONE
  else if i.toNat * ONE / o.toNat = 0 then ONE
  else i.toNat * ONE / o.toNat

/-- clamp(x, lo, hi) (00_scope.md R13). -/
def clamp (x lo hi : Nat) : Nat := min (max x lo) hi

/-- AdjStep(step, speed) for a speed > 0 (41_resampler.md R157). -/
def adjStep (step speed : Nat) : Nat :=
  let s := clamp speed (ONE / 2) (2 * ONE)
  let p := step * s / ONE
  let a := clamp p (step / 2) (2 * step)
  max a 1

/-- Lerp(a, b, f) (41_resampler.md R158): exact product, floor shift. -/
def lerp (a b : Int) (f : Nat) : Int := a + (b - a) * f / (ONE : Int)

/-- LerpF(p, c, f): the two channels are independent lanes (41_resampler.md R158). -/
def lerpFrame (p c : Frame) (f : Nat) : Frame :=
  { l := BitVec.ofInt 16 (lerp p.l.toInt c.l.toInt f), r := BitVec.ofInt 16 (lerp p.r.toInt c.r.toInt f) }

/-- The destination of the resample core (41_resampler.md R161). -/
inductive CoreMode where
  | ring | dry
deriving DecidableEq, Repr

/-- The working copy of the resample core, the ring it writes, and its two counts (41_resampler.md R161). -/
structure CoreRun where
  pv : Frame
  hp : Bool
  ring : RingState
  written : Nat
  consumed : Nat
  fp : Nat
deriving DecidableEq, Repr

/-- One emission (41_resampler.md R154): the frame, to the ring in RING mode, and the phase advanced. -/
def CoreRun.emit (mode : CoreMode) (a : Nat) (curr : Frame) (c : CoreRun) : CoreRun :=
  { c with
    ring := if mode = .ring then c.ring.push (lerpFrame c.pv curr c.fp) else c.ring
    written := c.written + 1
    fp := c.fp + a }

/-- The bootstrap of a frame (41_resampler.md R153). -/
def CoreRun.bootstrap (curr : Frame) (c : CoreRun) : CoreRun :=
  { c with pv := curr, hp := true, consumed := c.consumed + 1 }

/-- The phase wrap of a frame (41_resampler.md R155): one ONE is subtracted, the remainder is kept. -/
def CoreRun.wrap (curr : Frame) (c : CoreRun) : CoreRun :=
  { c with fp := c.fp - ONE, pv := curr, consumed := c.consumed + 1 }

/-- The emission loop of one input frame (41_resampler.md R154, R152): true when it ended with the phase at
ONE or more, false when a full ring stopped it. `fuel` bounds the loop; ONE − fp is enough, since every
emission adds at least 1 to the phase (R170; log 22). -/
def emitLoop (mode : CoreMode) (a : Nat) (curr : Frame) : Nat → CoreRun → CoreRun × Bool
  | 0, c => (c, true)
  | fuel + 1, c =>
    if c.fp < ONE then
      if mode = .ring ∧ c.ring.full = true then (c, false)
      else emitLoop mode a curr fuel (c.emit mode a curr)
    else (c, true)

/-- The loop over the input frames (41_resampler.md R161). A stop leaves the frame unconsumed (R163). -/
def coreFrames (mode : CoreMode) (a : Nat) : List Frame → CoreRun → CoreRun
  | [], c => c
  | curr :: fs, c =>
    if c.hp then
      let e := emitLoop mode a curr (ONE - c.fp) c
      if e.2 then coreFrames mode a fs (e.1.wrap curr) else e.1
    else coreFrames mode a fs (c.bootstrap curr)

/-- The working copy a resample starts from (41_resampler.md R161). -/
def coreStart (s : State) : CoreRun :=
  { fp := s.rs.fracPos, pv := s.rs.prev, hp := s.rs.hasPrev, ring := s.ring, written := 0, consumed := 0 }

/-- ResampleCore(mode, src, count, speed) for a speed > 0 (41_resampler.md R161). The frames are read from
the host memory of the section the core runs in (R151; log 22). -/
def resampleCore (mode : CoreMode) (src count speed : Nat) (s : State) : CoreRun :=
  coreFrames mode (adjStep s.rs.step speed) (readFrames s.env.mem src count) (coreStart s)

/-- What RING mode commits: frac_pos, prev, has_prev and the ring (41_resampler.md R161). -/
def State.commitCore (c : CoreRun) (s : State) : State :=
  { s with rs := { s.rs with fracPos := c.fp, prev := c.pv, hasPrev := c.hp }, ring := c.ring }

/-- Estimate(n, speed) for a speed > 0 (41_resampler.md R166). -/
def estimate (i o : Int) (n speed : Nat) : Nat :=
  if i ≤ 0 ∨ o ≤ 0 then n
  else (2 * n * o.toNat * ONE + i.toNat * speed) / (2 * i.toNat * speed)

/-- RateAdj(F) (43_ratecontrol.md R231). -/
def rateAdj (f : Nat) : Nat :=
  let g := min f ONE
  if 10 * g < 3 * ONE then ONE - (3 * ONE - 10 * g) / 150
  else if 10 * g > 7 * ONE then ONE + (10 * g - 7 * ONE) / 150
  else ONE

/-- Capacity(in, drive, bufsec) (44_engine.md R252); none is FAIL. -/
def capacityOf (nMax : Nat) (i : Int) (drive bufsec : Nat) : Option Nat :=
  if drive = 0 then none
  else
    let n := (bufsec : Int) * i / (drive : Int)
    if n < 2 ∨ (nMax : Int) < n then none else some n.toNat

/-- A resampler constructed for two rates (41_resampler.md R160, R156). -/
def freshResampler (i o : Word) : ResamplerState :=
  { inRate := i, outRate := o, step := stepOf (sext32 i) (sext32 o), fracPos := 0, prev := Frame.zero,
    hasPrev := false }

/-- The resampler's `reset()` (41_resampler.md R168): rates and step stay. -/
def ResamplerState.resetPhase (x : ResamplerState) : ResamplerState :=
  { x with fracPos := 0, hasPrev := false, prev := Frame.zero }

end Sys2Proof.Machine
end

