-- ==== Sys2Proof/Machine/Engine.lean ====
section
/-! DEFINITION. The meanings of the engine commands ENG.* (44_engine.md). -/

namespace Sys2Proof.Machine

/-- The ring a sizing leaves (44_engine.md R252, R253): sized, or absent on FAIL. -/
def ringAfterSizing : Option Nat → RingState
  | some n => RingState.sized n
  | none => RingState.absent

/-- The code a sizing completes with (44_engine.md R253). -/
def codeAfterSizing : Option Nat → Code
  | some _ => .ok
  | none => .errAlloc

/-- ENG.INIT (44_engine.md R251). The results are written on ERR_ALLOC too. -/
def execEngInit (s : State) : Result :=
  whenRuns .producer (initRuns s) s
    (let g := grantOf s.env s.pport.arg1
     let n := capacityOf s.env.params.nMax (sext32 s.pport.arg0) (zext32 s.pport.arg2) (zext32 s.pport.arg3)
     let s1 : State :=
       { s with
         rs := freshResampler s.pport.arg0 g
         ring := ringAfterSizing n
         consEn := true
         estate := .ready
         env := s.env.drawn }
     .next ((s1.withPRes g (satU32 (ringAfterSizing n).cap)).withCode .producer (codeAfterSizing n)))

/-- ENG.RESIZE (44_engine.md R254). On FAIL the resampler and estate are unchanged. -/
def execEngResize (s : State) : Result :=
  whenRuns .producer (engineRuns s) s
    (match capacityOf s.env.params.nMax (sext32 s.pport.arg0) (zext32 s.pport.arg1) (zext32 s.pport.arg2) with
     | some n =>
       let s1 : State :=
         { s with ring := RingState.sized n, rs := freshResampler s.pport.arg0 s.rs.outRate, estate := .resized }
       .next ((s1.withPRes0 (satU32 n)).withCode .producer .ok)
     | none => .next (((s.withRing RingState.absent).withPRes0 0).withCode .producer .errAlloc))

/-- Final(m) of ENG.INGEST (44_engine.md R261): the range, then the core, then the completion. -/
def ingestFinal (m : Nat) (src count : Word) (s : State) : Result :=
  if rangeOK s.env (zext32 src) (zext32 count) then
    let c := resampleCore .ring (zext32 src) (zext32 count) m s
    let s1 : State := { s.commitCore c with iphase := .idle }
    .next ((s1.withPRes (satU32 c.consumed) (satU32 c.written)).withCode .producer .ok)
  else .next (s.stall .producer)

/-- The multiplier of an attempt: RateAdj of the fill at that instant (44_engine.md R258). -/
def ingestMultiplier (s : State) : Nat := rateAdj s.ring.fillFx

/-- 'Insufficient free space': Estimate(count, m) > Free() (44_engine.md R259). -/
def ingestNeedsSpace (count : Word) (s : State) : Bool :=
  decide (s.ring.freeSpace <
    estimate (sext32 s.rs.inRate) (sext32 s.rs.outRate) (zext32 count) (ingestMultiplier s))

/-- Attempt(k) of ENG.INGEST (44_engine.md R256, R258): a sleep while space is short and the budget lasts,
else the final resample. Everything is computed from the state at that instant. -/
def ingestAttempt (k : Nat) (src count : Word) (s : State) : Result :=
  if ingestNeedsSpace count s = true ∧ k < s.env.params.retryMax then
    .next { s with iphase := .sleeping (k + 1) src count }
  else ingestFinal (ingestMultiplier s) src count s

/-- ENG.INGEST's start section (44_engine.md R256, R257). -/
def execEngIngest (s : State) : Result :=
  whenRuns .producer (engineRuns s) s
    (if s.ring.cap = 0 then .next ((s.withPRes 0 0).withCode .producer .ok)
     else ingestAttempt 0 s.pport.arg0 s.pport.arg1 s)

/-- ENG.INGEST's Wake section (44_engine.md R256), enabled while `iphase` is Sleeping. -/
def ingestWake (s : State) : Result :=
  match s.iphase with
  | .idle => .refused .wakeNotEnabled
  | .sleeping k src count => ingestAttempt k src count s

/-- What ENG.PULL works on (44_engine.md R265). -/
structure PullRun where
  ring : RingState
  lastRead : Frame
  hasLast : Bool
  mem : Memory
deriving DecidableEq, Repr

/-- The underrun frame (44_engine.md R268). -/
def PullRun.underrun (q : PullRun) : Frame := if q.hasLast then q.lastRead else Frame.zero

/-- One output frame written to `a` (44_engine.md R266 to R268): a frame of the ring, recorded as the last
frame read, or the underrun frame. -/
def PullRun.frame (a : Nat) (q : PullRun) : PullRun :=
  match q.ring.pop with
  | some (f, g) => { ring := g, lastRead := f, hasLast := true, mem := memWrite32 q.mem a (pack f) }
  | none => { q with mem := memWrite32 q.mem a (pack q.underrun) }

/-- The loop of ENG.PULL over the frames still to write, from address `a` on (44_engine.md R265). -/
def pullLoop : Nat → Nat → PullRun → PullRun
  | 0, _, q => q
  | k + 1, a, q => pullLoop k (a + 4) (q.frame a)

/-- ENG.PULL (44_engine.md R265), on the consumer port. -/
def execEngPull (s : State) : Result :=
  whenRuns .consumer (pullRuns s) s
    (if rangeOK s.env (zext32 s.cport.arg0) (zext32 s.cport.arg1) then
       let q := pullLoop (zext32 s.cport.arg1) (zext32 s.cport.arg0)
         { ring := s.ring, lastRead := s.lastRead, hasLast := s.hasLast, mem := s.env.mem }
       let s1 : State := { s.withMem q.mem with ring := q.ring, lastRead := q.lastRead, hasLast := q.hasLast }
       .next (s1.withCode .consumer .ok)
     else .next (s.stall .consumer))

/-- ENG.OCCUPANCY (44_engine.md R270). -/
def execEngOccupancy (s : State) : Result :=
  whenRuns .producer (engineRuns s) s
    (.next ((s.withPRes0 (satU32 (if s.ring.cap = 0 then 0 else s.ring.occ * 100 / s.ring.cap))).withCode
      .producer .ok))

/-- ENG.RESET (44_engine.md R271). -/
def execEngReset (s : State) : Result :=
  whenRuns .producer (engineRuns s) s (.next ((s.withRs s.rs.resetPhase).withCode .producer .ok))

/-- ENG.QUIT (44_engine.md R272). -/
def execEngQuit (s : State) : Result :=
  whenRuns .producer (engineRuns s) s
    (let s1 : State := { s with consEn := false, ring := RingState.absent, estate := .shutdown }
     .next (s1.withCode .producer .ok))

end Sys2Proof.Machine
end

