-- ==== Sys2Proof/Machine/RateControl.lean ====
section
/-! DEFINITION. The meaning of the rate-control command RC.ADJUST (43_ratecontrol.md). -/

namespace Sys2Proof.Machine

/-- RC.ADJUST (43_ratecontrol.md R232). -/
def execRcAdjust (s : State) : Result :=
  whenRuns .producer (componentRuns s) s
    (.next ((s.withPRes0 (trunc32 (rateAdj (zext32 s.pport.arg0)))).withCode .producer .ok))

end Sys2Proof.Machine
end

