-- ==== Sys2Proof/Machine/Resampler.lean ====
section
/-! DEFINITION. The meanings of the resampler commands RS.* (41_resampler.md). Each is the command's section
on the producer port, after the tests of 60_exceptions.md R301 up to the port test. -/

namespace Sys2Proof.Machine

/-- RS.INIT (41_resampler.md R160). -/
def execRsInit (s : State) : Result :=
  whenRuns .producer (componentRuns s) s
    (.next ((s.withRs (freshResampler s.pport.arg0 s.pport.arg1)).withCode .producer .ok))

/-- RS.RESAMPLE (41_resampler.md R162): F_SPEED first, then the range, then the core. -/
def execRsResample (s : State) : Result :=
  whenRuns .producer (componentRuns s) s
    (if sext32 s.pport.arg2 ≤ 0 then .next (raiseFault .fSpeed (trunc32 (sext32 s.pport.arg2)) s)
     else if rangeOK s.env (zext32 s.pport.arg0) (zext32 s.pport.arg1) then
       let c := resampleCore .ring (zext32 s.pport.arg0) (zext32 s.pport.arg1) (sext32 s.pport.arg2).toNat s
       .next (((s.commitCore c).withPRes (satU32 c.written) (satU32 c.consumed)).withCode .producer .ok)
     else .next (s.stall .producer))

/-- RS.RESAMPLE.DRY (41_resampler.md R164): counts only, no state of the resampler or the ring is written. -/
def execRsResampleDry (s : State) : Result :=
  whenRuns .producer (componentRuns s) s
    (if sext32 s.pport.arg2 ≤ 0 then .next (raiseFault .fSpeed (trunc32 (sext32 s.pport.arg2)) s)
     else if rangeOK s.env (zext32 s.pport.arg0) (zext32 s.pport.arg1) then
       let c := resampleCore .dry (zext32 s.pport.arg0) (zext32 s.pport.arg1) (sext32 s.pport.arg2).toNat s
       .next ((s.withPRes (satU32 c.written) (satU32 c.consumed)).withCode .producer .ok)
     else .next (s.stall .producer))

/-- RS.ESTIMATE (41_resampler.md R166). -/
def execRsEstimate (s : State) : Result :=
  whenRuns .producer (componentRuns s) s
    (if sext32 s.pport.arg1 ≤ 0 then .next (raiseFault .fSpeed (trunc32 (sext32 s.pport.arg1)) s)
     else
       .next ((s.withPRes0 (satU32 (estimate (sext32 s.rs.inRate) (sext32 s.rs.outRate) (zext32 s.pport.arg0)
         (sext32 s.pport.arg1).toNat))).withCode .producer .ok))

/-- RS.ISNEEDED (41_resampler.md R167). -/
def execRsIsNeeded (s : State) : Result :=
  whenRuns .producer (componentRuns s) s
    (.next ((s.withPRes0 (flagWord (sext32 s.pport.arg0 != sext32 s.pport.arg1))).withCode .producer .ok))

/-- RS.RESET (41_resampler.md R168). -/
def execRsReset (s : State) : Result :=
  whenRuns .producer (componentRuns s) s (.next ((s.withRs s.rs.resetPhase).withCode .producer .ok))

end Sys2Proof.Machine
end

