-- ==== Sys2Proof/Machine/RingBuffer.lean ====
section
/-! DEFINITION. The meanings of the ring-buffer commands RB.* (42_ringbuffer.md). -/

namespace Sys2Proof.Machine

/-- RB.WRITE (42_ringbuffer.md R210, R205): F_RB_FULL with finfo = w when the ring is full or absent. -/
def execRbWrite (s : State) : Result :=
  whenRuns .producer (componentRuns s) s
    (if s.ring.full then .next (raiseFault .fRbFull (wideWord .finfo s.ring.w) s)
     else .next ((s.withRing (s.ring.push (unpack s.pport.arg0))).withCode .producer .ok))

/-- RB.READ (42_ringbuffer.md R211), on the consumer port. last_read and has_last are not written. -/
def execRbRead (s : State) : Result :=
  whenRuns .consumer (componentRuns s) s
    (match s.ring.pop with
     | none => .next ((s.withCRes 0 0).withCode .consumer .ok)
     | some (f, g) => .next (((s.withRing g).withCRes (pack f) 1).withCode .consumer .ok))

/-- RB.FILL (42_ringbuffer.md R212). -/
def execRbFill (s : State) : Result :=
  whenRuns .producer (componentRuns s) s (.next ((s.withPRes0 (satU32 s.ring.fillFx)).withCode .producer .ok))

end Sys2Proof.Machine
end

