-- ==== Sys2Proof/Machine/Dispatch.lean ====
section
/-! DEFINITION. One arm per command: the section of the command on its own port, after the fault, busy,
illegal-word and port tests of 60_exceptions.md R301, which `issue` makes. -/

namespace Sys2Proof.Machine

def exec (i : Instr) (s : State) : Host.Outcome State Fault Refusal :=
  match i with
  | .rsInit => Sys2Proof.Machine.execRsInit s
  | .rsResample => Sys2Proof.Machine.execRsResample s
  | .rsResampleDry => Sys2Proof.Machine.execRsResampleDry s
  | .rsEstimate => Sys2Proof.Machine.execRsEstimate s
  | .rsIsNeeded => Sys2Proof.Machine.execRsIsNeeded s
  | .rsReset => Sys2Proof.Machine.execRsReset s
  | .rbWrite => Sys2Proof.Machine.execRbWrite s
  | .rbRead => Sys2Proof.Machine.execRbRead s
  | .rbFill => Sys2Proof.Machine.execRbFill s
  | .rcAdjust => Sys2Proof.Machine.execRcAdjust s
  | .engInit => Sys2Proof.Machine.execEngInit s
  | .engResize => Sys2Proof.Machine.execEngResize s
  | .engIngest => Sys2Proof.Machine.execEngIngest s
  | .engPull => Sys2Proof.Machine.execEngPull s
  | .engOccupancy => Sys2Proof.Machine.execEngOccupancy s
  | .engReset => Sys2Proof.Machine.execEngReset s
  | .engQuit => Sys2Proof.Machine.execEngQuit s

end Sys2Proof.Machine
end

