-- ==== Sys2Proof/Machine/Agents.lean ====
section
/-! DEFINITION. What one action of the outside world does to the block: register accesses and command issue
(30_encoding.md R133, R134; 60_exceptions.md R301), the producer's Wake, power-on reset and the host's own
writes, and the choice of the next step (60_exceptions.md R312). -/

namespace Sys2Proof.Machine

/-- An aligned 32-bit access at an offset in [0x00, 0xFC] (20_memory.md R90). -/
def accessOK (width : Nat) (off : Word) : Bool := width == 4 && off.toNat % 4 == 0 && decide (off.toNat < 0x100)

/-- A write of word `c` to CMD on port `p` (30_encoding.md R134), after the fault test of `agentStep`:
F_BUSY, ERR_ILLEGAL, ERR_PORT, then the command's rule, in the order of 60_exceptions.md R301. -/
def issue (p : Port) (c : Word) (s : State) : Result :=
  if busyOf p s then .next (raiseFault .fBusy c s)
  else
    match decode c with
    | .error _ => .next (s.withCode p .errIllegal)
    | .ok i => if portOf i = p then exec i s else .next (s.withCode p .errPort)

/-- A register read (30_encoding.md R133): it changes nothing of the block (20_memory.md R88); the word goes
to the agent (log 11). -/
def readAccess (p : Port) (width : Nat) (off : Word) (s : State) : Result :=
  if accessOK width off then .next (s.withBus p (readReg p off s)) else .next (raiseFault .fPort off s)

/-- A register write (30_encoding.md R133): CMD issues a command, ARG stores, the rest is ignored. -/
def writeAccess (p : Port) (width : Nat) (off v : Word) (s : State) : Result :=
  if accessOK width off then
    if off = 0 then issue p v s else .next (writeReg p off v s)
  else .next (raiseFault .fPort off s)

/-- One step of an agent: none in a faulted block (60_exceptions.md R305) and none of a stuck agent (R308),
which the model reports; else one atomic section (20_memory.md R92). -/
def agentStep (p : Port) (s : State) (body : State → Result) : Result :=
  if s.fault then .fault .blockFaulted
  else if stuckOf p s then .fault (.agentStuck p)
  else inSection p s body

/-- The host writes one byte of its memory between two sections (20_memory.md R93; log 21). -/
def hostStore (a : Word) (b : Byte) (s : State) : State := s.withMem (memWrite s.env.mem a.toNat b)

/-- One action of the script, in the state without it. -/
def takeInput (i : Input) (s : State) : Result :=
  match i with
  | .read p width off => agentStep p s (readAccess p width off)
  | .write p width off v => agentStep p s (writeAccess p width off v)
  | .wake => agentStep .producer s ingestWake
  | .powerOn => .next (powerOn s)
  | .hostWrite a b => .next (hostStore a b s)

/-- The step when the host has no further action. The Wake of a sleeping ENG.INGEST is the one step that can
still be enabled (60_exceptions.md R312); a faulted or stuck block is reported; a final state
(70_reset_and_hazards.md R345) with no action left stays as it is. DESIGN CHOICE, safe (log 8). -/
def idleStep (s : State) : Result :=
  if s.fault then .fault .blockFaulted
  else if s.pStuck then .fault (.agentStuck .producer)
  else if s.iphase.busy then inSection .producer s ingestWake
  else if s.cStuck then .fault (.agentStuck .consumer)
  else .next s

/-- One step of the machine: the next action of the one total order of 20_memory.md R93. -/
def stepOnce (s : State) : Result :=
  match s.env.script with
  | [] => idleStep s
  | i :: rest => takeInput i (s.withScript rest)

/-- The port whose CMD takes a word: the command's own, and the producer's for an illegal word. -/
def issuePort (c : Word) : Port :=
  match decode c with
  | .ok i => portOf i
  | .error _ => .producer

end Sys2Proof.Machine
end

