-- ==== Sys2Proof/Machine/Step.lean ====
section
/-! DEFINITION. The step of the machine, and how a command word is placed as its next instruction. -/

namespace Sys2Proof.Machine

/-- One step: one atomic section, or one act of the host on the block (20_memory.md R92, R93). -/
def step (s : State) : Host.Outcome State Fault Refusal := stepOnce s

/-- `s` with the command word `w` as the next action: the block fetches nothing (10_state.md R33), so a
command runs because an agent writes it to the CMD register of its port (30_encoding.md R134; log 12). -/
def State.withFetchWord (s : State) (nbits w : Nat) : State :=
  let c : Word := BitVec.ofNat 32 (tableWord nbits w)
  s.withScript (.write (issuePort c) 4 0 c :: s.env.script)

end Sys2Proof.Machine
end

