-- ==== Sys2Proof/Safety.lean ====
section
/-! DEFINITION. What a good state and a finished run are, in the terms the statements use: the invariants of
10_state.md and 42_ringbuffer.md, the final state of 70_reset_and_hazards.md R345, the queue a ring stands
for, and the output stream of an unbounded ring. Every predicate is decidable, so a concrete state can be
tested against it. -/

namespace Sys2Proof.Machine

/-- The ring's invariant (10_state.md R43 to R45; 42_ringbuffer.md R201, R207): absent, or 2 ≤ N ≤ NMAX with
both cursors in [0, N) and N frames in the store. -/
abbrev RingState.Wf (nMax : Nat) (g : RingState) : Prop :=
  g = RingState.absent ∨
    (2 ≤ g.cap ∧ g.cap ≤ nMax ∧ g.w < g.cap ∧ g.r < g.cap ∧ g.store.length = g.cap)

/-- The resampler's invariant between commands (10_state.md R39, R40, R42). -/
abbrev ResamplerState.Wf (x : ResamplerState) : Prop :=
  x.step = stepOf (sext32 x.inRate) (sext32 x.outRate) ∧
    x.fracPos < max ONE (2 * x.step) ∧
    (x.hasPrev = false → x.fracPos = 0 ∧ x.prev = Frame.zero)

/-- `iphase`'s invariant (10_state.md R34, 44_engine.md R256, R260): a sleep counts from 1 to RETRY_MAX, in
READY or RESIZED, with a store. -/
abbrev IngestPhase.Wf (s : State) (x : IngestPhase) : Prop :=
  x.busy = true →
    1 ≤ x.attempts ∧ x.attempts ≤ s.env.params.retryMax ∧ engineRuns s = true ∧ 0 < s.ring.cap

/-- The fault fields agree: cause and information are set exactly with the fault bit (10_state.md R49,
60_exceptions.md R306). -/
abbrev State.FaultWf (s : State) : Prop :=
  (s.fault = false → s.fcause = .none ∧ s.finfo = 0) ∧ (s.fault = true → s.fcause ≠ .none)

/-- What holds between any two steps. -/
abbrev State.Inv (s : State) : Prop :=
  s.lock = .free ∧
    s.env.params.wellFormed = true ∧
    Memory.wf s.env.mem = true ∧
    s.rs.Wf ∧
    s.ring.Wf s.env.params.nMax ∧
    s.consEn = engineRuns s ∧
    (engineRuns s = false → s.ring = RingState.absent) ∧
    (s.hasLast = false → s.lastRead = Frame.zero) ∧
    s.iphase.Wf s ∧
    s.FaultWf

/-- The action is a register access on a port (70_reset_and_hazards.md R345 (d)). A Wake, power-on reset and a
host write to its own memory are none. -/
def inputIsAccess : Input → Bool
  | .read _ _ _ => true
  | .write _ _ _ _ => true
  | .wake => false
  | .powerOn => false
  | .hostWrite _ _ => false

/-- The state is final (70_reset_and_hazards.md R345): (a) no fault, (b) no ENG.INGEST in progress, (c) no stuck
port, (d) no further register access to make on either port. -/
abbrev State.final (s : State) : Prop :=
  s.fault = false ∧ s.iphase = .idle ∧ (s.pStuck = false ∧ s.cStuck = false) ∧
    s.env.script.any inputIsAccess = false

/-- The engine states each command runs in (44_engine.md R274). -/
def commandRuns (i : Instr) (s : State) : Bool :=
  match i with
  | .engInit => s.estate == .uninit
  | .engResize => s.estate == .ready || s.estate == .resized
  | .engIngest => s.estate == .ready || s.estate == .resized
  | .engOccupancy => s.estate == .ready || s.estate == .resized
  | .engReset => s.estate == .ready || s.estate == .resized
  | .engQuit => s.estate == .ready || s.estate == .resized
  | .engPull => s.consEn
  | .rsInit => s.estate != .shutdown
  | .rsResample => s.estate != .shutdown
  | .rsResampleDry => s.estate != .shutdown
  | .rsEstimate => s.estate != .shutdown
  | .rsIsNeeded => s.estate != .shutdown
  | .rsReset => s.estate != .shutdown
  | .rbWrite => s.estate != .shutdown
  | .rbRead => s.estate != .shutdown
  | .rbFill => s.estate != .shutdown
  | .rcAdjust => s.estate != .shutdown

/-- The unread frames of a ring, oldest first: the queue the ring stands for (42_ringbuffer.md R207). -/
def RingState.contents (g : RingState) : List Frame :=
  (List.range g.occ).map fun i => g.store.getD ((g.r + i) % g.cap) Frame.zero

/-- What one input frame emits with no ring to fill, from phase `fp` on (41_resampler.md R154). -/
def frameOutputs (a : Nat) (p c : Frame) : Nat → Nat → List Frame
  | 0, _ => []
  | fuel + 1, fp => if fp < ONE then lerpFrame p c fp :: frameOutputs a p c fuel (fp + a) else []

/-- What a stream of input frames emits into an unbounded ring, from a resampler's phase, previous frame and
has_prev (41_resampler.md R153 to R155, R165). -/
def streamOutputs (a : Nat) : List Frame → Nat → Frame → Bool → List Frame
  | [], _, _, _ => []
  | x :: xs, fp, pv, hp =>
    if hp then
      let out := frameOutputs a pv x (ONE - fp) fp
      out ++ streamOutputs a xs (fp + a * out.length - ONE) x true
    else streamOutputs a xs fp x true

/-- The core's working copy at the start of a stream that follows a resampler reset (41_resampler.md R171):
phase 0, no previous frame. -/
def CoreRun.fresh (g : RingState) : CoreRun :=
  { fp := 0, pv := Frame.zero, hp := false, ring := g, written := 0, consumed := 0 }

/-- The action at the head of the script is an agent's register access or the Wake, not the host's own. -/
def inputByAgent : Input → Bool
  | .read _ _ _ => true
  | .write _ _ _ _ => true
  | .wake => true
  | .powerOn => false
  | .hostWrite _ _ => false

end Sys2Proof.Machine
end

