-- ==== Sys2Proof/Certificates/Slice0/Obligations.lean ====
section
/-! DEFINITION. The statements about the model, each a Prop. The docstring of each names the rules of spec/ it
says, and the log entry where a clause rests on a choice of the model. -/

open Sys2Proof Sys2Proof.Machine

/-! ## Encoding -/

/-- Words written out from 30_encoding.md R123, and illegal words of 95_test_vectors.md 2.1. -/
def Obligations.SampleWordsDecode : Prop :=
  decode 0x00000010 = .ok .rsInit ∧ decode 0x00000012 = .ok .rsResampleDry ∧ decode 0x00000021 = .ok .rbRead ∧
  decode 0x00000030 = .ok .rcAdjust ∧ decode 0x00000043 = .ok .engPull ∧
  decode 0x00000100 = .error .reservedBitsSet ∧ decode 0x00000110 = .error .reservedBitsSet ∧
  decode 0x00000016 = .error .opcodeUnassigned ∧ decode 0x00000047 = .error .opcodeUnassigned ∧
  portOf .rbRead = .consumer ∧ portOf .engPull = .consumer ∧ portOf .rbWrite = .producer

/-- 30_encoding.md R130, with the map of R123 written out: the decoder is total, returns the command of a word
in the map, and is 'illegal' on every other word. -/
def Obligations.DecodeIsTheOpcodeMap : Prop :=
  ∀ c : Word,
    (∀ i : Instr, decode c = .ok i ↔ (c, i) ∈ ([
      (0x10, .rsInit), (0x11, .rsResample), (0x12, .rsResampleDry), (0x13, .rsEstimate), (0x14, .rsIsNeeded),
      (0x15, .rsReset), (0x20, .rbWrite), (0x21, .rbRead), (0x22, .rbFill), (0x30, .rcAdjust),
      (0x40, .engInit), (0x41, .engResize), (0x42, .engIngest), (0x43, .engPull), (0x44, .engOccupancy),
      (0x45, .engReset), (0x46, .engQuit)] : List (Word × Instr))) ∧
    ((∃ i, decode c = .ok i) ∨ (∃ e, decode c = .error e))

/-- 30_encoding.md R120, R123: decoding and encoding agree in both directions, for every command and word. -/
def Obligations.DecodeEncodeAgree : Prop :=
  (∀ i : Instr, i.wellFormed = true → decode (encode i) = .ok i) ∧
  (∀ (c : Word) (i : Instr), decode c = .ok i → encode i = c)

/-! ## Reset and the invariant -/

/-- 70_reset_and_hazards.md R341: what every register of both ports reads right after power-on reset. -/
def Obligations.RegistersAfterReset : Prop :=
  ∀ off : Word, off.toNat % 4 = 0 → off.toNat ≤ 0xFC →
    readReg .producer off State.reset = (if off = 0x38 then 0x00010000 else 0) ∧
    readReg .consumer off State.reset = 0

/-- 70_reset_and_hazards.md R340: power-on reset takes every element of the state tuple to its reset value from
any state, faulted, stuck or with the lock held, and does not touch host memory. That it leaves the rest of the
environment, and takes the action off the script, is the model's own choice (log 16). -/
def Obligations.PowerOnFromAnyState : Prop :=
  ∀ (s : State) (rest : List Input), s.env.script = .powerOn :: rest →
    step s = .next { State.reset with env := { s.env with script := rest } }

/-- The invariant of Safety.lean holds right after reset. -/
def Obligations.ResetMeetsInvariant : Prop := State.reset.Inv

/-- 10_state.md R39, R40, R42, R43, R45, R48, R49; 44_engine.md R273, R260: the invariant is kept by every step
from every state that meets it. Its memory clause is the model's canonical form (log 1). -/
def Obligations.StepKeepsInvariant : Prop :=
  ∀ s t : State, s.Inv → step s = .next t → t.Inv

/-! ## Command issue and register accesses

In every statement about `step`, the accesses stand in the model's own script, and the step takes its head off it:
that is the model's choice (log 5), and no rule of the spec is cited for it. -/

/-- 30_encoding.md R134: a command word written to CMD of its own port, while the block is not faulted, the agent
not stuck, the lock free and the port not busy, runs its command. Around `exec`, `step` takes the action off
the script and holds the lock (20_memory.md R92). -/
def Obligations.StepRunsDecodedCommand : Prop :=
  ∀ (s : State) (p : Port) (c : Word) (i : Instr) (rest : List Input),
    s.env.script = .write p 4 0 c :: rest → decode c = .ok i → i.wellFormed = true → portOf i = p →
    s.fault = false → stuckOf p s = false → s.lock = .free → (p = .producer → s.iphase = .idle) →
    step s =
      match exec i { s with env := { s.env with script := rest }, lock := .heldBy p } with
      | .next t => .next { t with lock := .free }
      | .fault r => .fault r
      | .refused r => .refused r

/-- 60_exceptions.md R302, 30_encoding.md R128: an illegal word sets ERR_ILLEGAL on the port it was written to
and changes no other state. -/
def Obligations.IllegalWordSetsErrIllegal : Prop :=
  ∀ (s : State) (p : Port) (c : Word) (rest : List Input),
    s.env.script = .write p 4 0 c :: rest → s.fault = false → stuckOf p s = false → s.lock = .free →
    (p = .producer → s.iphase = .idle) →
    c ∉ ([0x10, 0x11, 0x12, 0x13, 0x14, 0x15, 0x20, 0x21, 0x22, 0x30, 0x40, 0x41, 0x42, 0x43, 0x44, 0x45,
      0x46] : List Word) →
    step s = .next (match p with
      | .producer => { s with env := { s.env with script := rest }, pport := { s.pport with code := .errIllegal } }
      | .consumer => { s with env := { s.env with script := rest }, cport := { s.cport with code := .errIllegal } })

/-- 60_exceptions.md R303: RB.READ and ENG.PULL belong to the consumer port and every other command to the
producer port; a legal word on the other port sets ERR_PORT there and changes nothing else. -/
def Obligations.WrongPortSetsErrPort : Prop :=
  ∀ (s : State) (p : Port) (c : Word) (i : Instr) (rest : List Input),
    s.env.script = .write p 4 0 c :: rest → s.fault = false → stuckOf p s = false → s.lock = .free →
    (p = .producer → s.iphase = .idle) → decode c = .ok i →
    (p = .producer ↔ (i = .rbRead ∨ i = .engPull)) →
    step s = .next (match p with
      | .producer => { s with env := { s.env with script := rest }, pport := { s.pport with code := .errPort } }
      | .consumer => { s with env := { s.env with script := rest }, cport := { s.cport with code := .errPort } })

/-- 60_exceptions.md R304, 44_engine.md R274: a command in an engine state it does not run in, or ENG.PULL with
cons_en false, sets ERR_STATE, writes no RES register and changes no other state. -/
def Obligations.WrongStateSetsErrState : Prop :=
  ∀ (i : Instr) (s : State), commandRuns i s = false →
    exec i s = .next (match portOf i with
      | .producer => { s with pport := { s.pport with code := .errState } }
      | .consumer => { s with cport := { s.cport with code := .errState } })

/-- 70_reset_and_hazards.md R353, 60_exceptions.md R306: while ENG.INGEST sleeps, a producer CMD write of any
word raises F_BUSY with the word as finfo; other aligned producer accesses in the window go on without a
fault and leave the sleep as it is; the consumer is never BUSY. -/
def Obligations.BusyCommandWriteFaults : Prop :=
  (∀ (s : State) (c : Word) (rest : List Input) (k : Nat) (src count : Word),
    s.env.script = .write .producer 4 0 c :: rest → s.fault = false → s.pStuck = false → s.lock = .free →
    s.iphase = .sleeping k src count →
    step s = .next { s with
      env := { s.env with script := rest }, fault := true, fcause := .fBusy, finfo := c }) ∧
  (∀ (s : State) (off v : Word) (rest : List Input) (k : Nat) (src count : Word),
    (s.env.script = .read .producer 4 off :: rest ∨ (off ≠ 0 ∧ s.env.script = .write .producer 4 off v :: rest)) →
    off.toNat % 4 = 0 → off.toNat ≤ 0xFC → s.fault = false → s.pStuck = false → s.lock = .free →
    s.iphase = .sleeping k src count →
    ∃ t, step s = .next t ∧ t.fault = false ∧ t.iphase = s.iphase ∧ t.env.script = rest) ∧
  (∀ s : State, busyOf .consumer s = false)

/-- 20_memory.md R90, 30_encoding.md R133: an access that is not an aligned 32-bit access at an offset in
[0x00, 0xFC] raises F_PORT with the offset as finfo, on either port, read or write. -/
def Obligations.MalformedAccessFaults : Prop :=
  ∀ (s : State) (p : Port) (width : Nat) (off v : Word) (rest : List Input),
    (s.env.script = .read p width off :: rest ∨ s.env.script = .write p width off v :: rest) →
    s.fault = false → stuckOf p s = false → s.lock = .free →
    ¬ (width = 4 ∧ off.toNat % 4 = 0 ∧ off.toNat ≤ 0xFC) →
    step s = .next { s with
      env := { s.env with script := rest }, fault := true, fcause := .fPort, finfo := off }

/-- 60_exceptions.md R305, R308: a faulted block has no step of either agent, and power-on reset is the way out.
That the model reports it as `blockFaulted` is its own choice (log 7). -/
def Obligations.FaultedBlockHasNoStep : Prop :=
  ∀ s : State, s.fault = true →
    (s.env.script = [] → step s = .fault .blockFaulted) ∧
    (∀ (i : Input) (rest : List Input), s.env.script = i :: rest → inputByAgent i = true →
      step s = .fault .blockFaulted) ∧
    (∀ rest : List Input, s.env.script = .powerOn :: rest → ∃ t, step s = .next t ∧ t.fault = false)

/-- 60_exceptions.md R314: the state after a fault is the state before the faulting step with only fault,
fcause and finfo changed (and the action taken off the model's script). -/
def Obligations.FaultChangesOnlyFaultFields : Prop :=
  ∀ s t : State, step s = .next t → s.fault = false → t.fault = true →
    t = { s with
      env := { s.env with script := s.env.script.tail }, fault := true, fcause := t.fcause, finfo := t.finfo }

/-- 60_exceptions.md R306: a step raises a fault only for one of the four causes, on its condition, with its
finfo. The finfo of F_RB_FULL is stated for cursors that fit a word (log 10). -/
def Obligations.FaultCausesAreExact : Prop :=
  ∀ s t : State, step s = .next t → s.fault = false → t.fault = true →
    ∃ (i : Input) (rest : List Input), s.env.script = i :: rest ∧
      ((t.fcause = .fPort ∧ ∃ (p : Port) (width : Nat) (off v : Word),
          (i = .read p width off ∨ i = .write p width off v) ∧
          ¬ (width = 4 ∧ off.toNat % 4 = 0 ∧ off.toNat ≤ 0xFC) ∧ t.finfo = off) ∨
       (t.fcause = .fBusy ∧ s.iphase ≠ .idle ∧ i = .write .producer 4 0 t.finfo) ∨
       (t.fcause = .fSpeed ∧ s.iphase = .idle ∧
          ((i = .write .producer 4 0 0x11 ∨ i = .write .producer 4 0 0x12) ∧ s.pport.arg2.toInt ≤ 0 ∧
              t.finfo = s.pport.arg2 ∨
           i = .write .producer 4 0 0x13 ∧ s.pport.arg1.toInt ≤ 0 ∧ t.finfo = s.pport.arg1)) ∨
       (t.fcause = .fRbFull ∧ s.iphase = .idle ∧ i = .write .producer 4 0 0x20 ∧ s.ring.full = true ∧
          (s.ring.w < 2 ^ 32 → t.finfo = BitVec.ofNat 32 s.ring.w)))

/-- 20_memory.md R88, 30_encoding.md R133: an aligned register read inside the window changes nothing of the
block. That the model keeps the word read in pBus or cBus is its own choice (log 11). -/
def Obligations.RegisterReadChangesNothing : Prop :=
  ∀ (s : State) (p : Port) (off : Word) (rest : List Input),
    s.env.script = .read p 4 off :: rest → off.toNat % 4 = 0 → off.toNat ≤ 0xFC →
    s.fault = false → stuckOf p s = false → s.lock = .free →
    step s = .next (match p with
      | .producer => { s with env := { s.env with script := rest, pBus := readReg .producer off s } }
      | .consumer => { s with env := { s.env with script := rest, cBus := readReg .consumer off s } })

/-- 30_encoding.md R133, R124; 10_state.md R31, R32: a write to an ARG register stores the word there, a later
read returns it, and a write to a read-only or reserved offset is ignored. -/
def Obligations.ArgWritesStoreOthersIgnored : Prop :=
  ∀ (s : State) (v : Word) (rest : List Input), s.fault = false → s.lock = .free →
    (s.pStuck = false →
      (s.env.script = .write .producer 4 0x04 v :: rest → step s = .next { s with
        env := { s.env with script := rest }, pport := { s.pport with arg0 := v } }) ∧
      (s.env.script = .write .producer 4 0x08 v :: rest → step s = .next { s with
        env := { s.env with script := rest }, pport := { s.pport with arg1 := v } }) ∧
      (s.env.script = .write .producer 4 0x0C v :: rest → step s = .next { s with
        env := { s.env with script := rest }, pport := { s.pport with arg2 := v } }) ∧
      (s.env.script = .write .producer 4 0x10 v :: rest → step s = .next { s with
        env := { s.env with script := rest }, pport := { s.pport with arg3 := v } }) ∧
      (∀ off : Word, s.env.script = .write .producer 4 off v :: rest → off.toNat % 4 = 0 → 0x14 ≤ off.toNat →
        off.toNat ≤ 0xFC → step s = .next { s with env := { s.env with script := rest } })) ∧
    (s.cStuck = false →
      (s.env.script = .write .consumer 4 0x04 v :: rest → step s = .next { s with
        env := { s.env with script := rest }, cport := { s.cport with arg0 := v } }) ∧
      (s.env.script = .write .consumer 4 0x08 v :: rest → step s = .next { s with
        env := { s.env with script := rest }, cport := { s.cport with arg1 := v } }) ∧
      (∀ off : Word, s.env.script = .write .consumer 4 off v :: rest → off.toNat % 4 = 0 → 0x0C ≤ off.toNat →
        off.toNat ≤ 0xFC → step s = .next { s with env := { s.env with script := rest } })) ∧
    (readReg .producer 0x04 s = s.pport.arg0 ∧ readReg .producer 0x08 s = s.pport.arg1 ∧
      readReg .producer 0x0C s = s.pport.arg2 ∧ readReg .producer 0x10 s = s.pport.arg3 ∧
      readReg .consumer 0x04 s = s.cport.arg0 ∧ readReg .consumer 0x08 s = s.cport.arg1)

/-- 10_state.md R50: the fields of STATUS on both ports, the reserved ones reading 0. -/
def Obligations.StatusLayout : Prop :=
  ∀ (p : Port) (s : State),
    (readReg p 0x1C s).extractLsb' 0 4 =
      (match (match p with | .producer => s.pport.code | .consumer => s.cport.code) with
       | .ok => 0 | .errAlloc => 1 | .errState => 2 | .errIllegal => 3 | .errPort => 4) ∧
    (readReg p 0x1C s).extractLsb' 4 4 = 0 ∧
    ((readReg p 0x1C s).extractLsb' 8 1 = 1 ↔ (p = .producer ∧ s.iphase ≠ .idle)) ∧
    (readReg p 0x1C s).extractLsb' 9 7 = 0 ∧
    ((readReg p 0x1C s).extractLsb' 16 1 = 1 ↔ s.fault = true) ∧
    (readReg p 0x1C s).extractLsb' 17 3 = 0 ∧
    (readReg p 0x1C s).extractLsb' 20 4 =
      (if s.fault = true then
        (match s.fcause with | .none => 0 | .fSpeed => 1 | .fRbFull => 2 | .fBusy => 3 | .fPort => 4)
       else 0) ∧
    (readReg p 0x1C s).extractLsb' 24 8 = 0

/-- 10_state.md R52, R101; 30_encoding.md R124; 20_memory.md R88: the read-only views and the results show the
state, the two halves of step and frac_pos together their whole value, and ENGSTATE its three fields; CMD and
every reserved offset read 0. CAPACITY, WCUR, RCUR and ATTEMPTS are stated for values that fit a word
(log 10). -/
def Obligations.ViewsShowState : Prop :=
  ∀ s : State, s.Inv →
    (readReg .producer 0x3C s ++ readReg .producer 0x38 s).toNat = s.rs.step ∧
    (readReg .producer 0x44 s ++ readReg .producer 0x40 s).toNat = s.rs.fracPos ∧
    (s.ring.cap < 2 ^ 32 → (readReg .producer 0x24 s).toNat = s.ring.cap ∧
      (readReg .producer 0x28 s).toNat = s.ring.w ∧ (readReg .producer 0x2C s).toNat = s.ring.r) ∧
    (readReg .producer 0x30 s = s.rs.inRate ∧ readReg .producer 0x34 s = s.rs.outRate) ∧
    ((readReg .producer 0x48 s).extractLsb' 0 16 = s.rs.prev.l ∧
      (readReg .producer 0x48 s).extractLsb' 16 16 = s.rs.prev.r) ∧
    readReg .producer 0x4C s = (if s.rs.hasPrev = true then 1 else 0) ∧
    readReg .producer 0x50 s = s.finfo ∧
    (readReg .producer 0x20 s).toNat =
      (if 0 < s.ring.cap then 32 else 0) + (if s.consEn = true then 16 else 0) +
      (match s.estate with | .uninit => 0 | .ready => 1 | .resized => 2 | .shutdown => 3) ∧
    ((readReg .consumer 0x20 s).extractLsb' 0 16 = s.lastRead.l ∧
      (readReg .consumer 0x20 s).extractLsb' 16 16 = s.lastRead.r) ∧
    readReg .consumer 0x24 s = (if s.hasLast = true then 1 else 0) ∧
    (s.iphase = .idle → readReg .producer 0x54 s = 0) ∧
    (∀ (k : Nat) (src count : Word), s.iphase = .sleeping k src count → k < 2 ^ 32 →
      (readReg .producer 0x54 s).toNat = k) ∧
    (readReg .producer 0x14 s = s.pport.res0 ∧ readReg .producer 0x18 s = s.pport.res1 ∧
      readReg .consumer 0x14 s = s.cport.res0 ∧ readReg .consumer 0x18 s = s.cport.res1) ∧
    (readReg .producer 0x00 s = 0 ∧ readReg .consumer 0x00 s = 0 ∧ readReg .consumer 0x0C s = 0 ∧
      readReg .consumer 0x10 s = 0) ∧
    (∀ off : Word, off.toNat % 4 = 0 → off.toNat ≤ 0xFC →
      (0x58 ≤ off.toNat → readReg .producer off s = 0) ∧ (0x28 ≤ off.toNat → readReg .consumer off s = 0))

/-! ## Resampler -/

/-- 41_resampler.md R156: the nominal step for every pair of rates, its range, and the rule's two examples. -/
def Obligations.StepFormulaAndRange : Prop :=
  (∀ i o : Word,
    ((i.toInt ≤ 0 ∨ o.toInt ≤ 0) → stepOf i.toInt o.toInt = 65536) ∧
    (0 < i.toInt → 0 < o.toInt → i.toInt * 65536 / o.toInt = 0 → stepOf i.toInt o.toInt = 65536) ∧
    (0 < i.toInt → 0 < o.toInt → i.toInt * 65536 / o.toInt ≠ 0 →
      (stepOf i.toInt o.toInt : Int) = i.toInt * 65536 / o.toInt) ∧
    1 ≤ stepOf i.toInt o.toInt ∧ stepOf i.toInt o.toInt < 2 ^ 47) ∧
  stepOf 44100 48000 = 60211 ∧ stepOf 48000 44100 = 71331

/-- 41_resampler.md R157: the pre-clamped formula, its equality with clamping the product alone for every
speed > 0, and the rule's examples. -/
def Obligations.AdjStepIsClampedProduct : Prop :=
  (∀ st speed : Nat, 1 ≤ st → 1 ≤ speed →
    adjStep st speed = max (min (max (st * speed / 65536) (st / 2)) (2 * st)) 1 ∧
    adjStep st speed =
      max (min (max (st * (min (max speed 32768) 131072) / 65536) (st / 2)) (2 * st)) 1) ∧
  adjStep 60211 65536 = 60211 ∧ adjStep 60211 64226 = 59007 ∧ adjStep 60211 66846 = 61414 ∧
  adjStep 60211 1 = 30105 ∧ adjStep 1 64226 = 1

/-- 41_resampler.md R159: the interpolation stays between its ends, gives the first end at fraction 0, and its
result fits a sample in both lanes. -/
def Obligations.LerpStaysBetween : Prop :=
  (∀ (a b : Int) (f : Nat), -32768 ≤ a → a ≤ 32767 → -32768 ≤ b → b ≤ 32767 → f < 65536 →
    (a ≤ b → a ≤ lerp a b f ∧ (lerp a b f < b ∨ a = b) ∧ lerp a b f ≤ b) ∧
    (b < a → b ≤ lerp a b f ∧ lerp a b f ≤ a) ∧
    lerp a b 0 = a) ∧
  (∀ (p c : Frame) (f : Nat), f < 65536 →
    (lerpFrame p c f).l.toInt = lerp p.l.toInt c.l.toInt f ∧
    (lerpFrame p c f).r.toInt = lerp p.r.toInt c.r.toInt f)

/-- 41_resampler.md R173: exactly when an output lies strictly between its two input values, per channel. -/
def Obligations.InterpolationStrictlyBetween : Prop :=
  ∀ (x y : Frame) (f : Nat), f < 65536 →
    ((min x.l.toInt y.l.toInt < (lerpFrame x y f).l.toInt ∧ (lerpFrame x y f).l.toInt < max x.l.toInt y.l.toInt) ↔
      ((x.l.toInt < y.l.toInt ∧ 65536 ≤ (y.l.toInt - x.l.toInt) * f) ∨
       (y.l.toInt < x.l.toInt ∧ 0 < f ∧ 65536 ≤ (x.l.toInt - y.l.toInt) * (65536 - f)))) ∧
    ((min x.r.toInt y.r.toInt < (lerpFrame x y f).r.toInt ∧ (lerpFrame x y f).r.toInt < max x.r.toInt y.r.toInt) ↔
      ((x.r.toInt < y.r.toInt ∧ 65536 ≤ (y.r.toInt - x.r.toInt) * f) ∨
       (y.r.toInt < x.r.toInt ∧ 0 < f ∧ 65536 ≤ (x.r.toInt - y.r.toInt) * (65536 - f))))

/-- 41_resampler.md R160: RS.INIT's whole next state, and ERR_STATE in SHUTDOWN. -/
def Obligations.RsInitResult : Prop :=
  ∀ s : State,
    (s.estate ≠ .shutdown → exec .rsInit s = .next { s with
      rs := { inRate := s.pport.arg0, outRate := s.pport.arg1,
              step := stepOf s.pport.arg0.toInt s.pport.arg1.toInt, fracPos := 0, prev := { l := 0, r := 0 },
              hasPrev := false }
      pport := { s.pport with code := .ok } }) ∧
    (s.estate = .shutdown → exec .rsInit s = .next { s with pport := { s.pport with code := .errState } })

/-- 41_resampler.md R168, 44_engine.md R271: RS.RESET and ENG.RESET clear the phase and nothing else, each in the
engine states it runs in. -/
def Obligations.ResetCommandsClearPhase : Prop :=
  ∀ s : State,
    (s.estate ≠ .shutdown → exec .rsReset s = .next { s with
      rs := { s.rs with fracPos := 0, hasPrev := false, prev := { l := 0, r := 0 } }
      pport := { s.pport with code := .ok } }) ∧
    (s.estate = .shutdown → exec .rsReset s = .next { s with pport := { s.pport with code := .errState } }) ∧
    (s.estate = .ready ∨ s.estate = .resized → exec .engReset s = .next { s with
      rs := { s.rs with fracPos := 0, hasPrev := false, prev := { l := 0, r := 0 } }
      pport := { s.pport with code := .ok } }) ∧
    (s.estate = .uninit ∨ s.estate = .shutdown →
      exec .engReset s = .next { s with pport := { s.pport with code := .errState } })

/-- 41_resampler.md R167: RS.ISNEEDED's whole next state, and ERR_STATE in SHUTDOWN. -/
def Obligations.RsIsNeededResult : Prop :=
  ∀ s : State,
    (s.estate ≠ .shutdown → exec .rsIsNeeded s = .next { s with
      pport := { s.pport with res0 := if s.pport.arg0.toInt ≠ s.pport.arg1.toInt then 1 else 0, code := .ok } }) ∧
    (s.estate = .shutdown → exec .rsIsNeeded s = .next { s with pport := { s.pport with code := .errState } })

/-- 41_resampler.md R166: RS.ESTIMATE's whole next state for a speed > 0, with the quotient written out, F_SPEED
for a speed ≤ 0, and ERR_STATE in SHUTDOWN. -/
def Obligations.RsEstimateResult : Prop :=
  ∀ s : State,
    (s.estate ≠ .shutdown → 0 < s.pport.arg1.toInt → exec .rsEstimate s = .next { s with
      pport := { s.pport with
        res0 := BitVec.ofInt 32 (min (2 ^ 32 - 1)
          (if s.rs.inRate.toInt ≤ 0 ∨ s.rs.outRate.toInt ≤ 0 then (s.pport.arg0.toNat : Int)
           else (2 * s.pport.arg0.toNat * s.rs.outRate.toInt * 65536 + s.rs.inRate.toInt * s.pport.arg1.toInt) /
             (2 * s.rs.inRate.toInt * s.pport.arg1.toInt)))
        code := .ok } }) ∧
    (s.estate ≠ .shutdown → s.pport.arg1.toInt ≤ 0 → s.fault = false → exec .rsEstimate s = .next { s with
      fault := true, fcause := .fSpeed, finfo := s.pport.arg1 }) ∧
    (s.estate = .shutdown → exec .rsEstimate s = .next { s with pport := { s.pport with code := .errState } })

/-- 41_resampler.md R162, R161; 60_exceptions.md R301: RS.RESAMPLE's whole next state for a speed > 0 and an
admitted range, with what the core leaves; F_SPEED for a speed ≤ 0, whatever the range; a count of 0 changes
only the results. -/
def Obligations.RsResampleResult : Prop :=
  ∀ s : State, s.estate ≠ .shutdown →
    (0 < s.pport.arg2.toInt → rangeOK s.env s.pport.arg0.toNat s.pport.arg1.toNat = true →
      ∀ c : CoreRun,
        c = coreFrames .ring (adjStep s.rs.step s.pport.arg2.toInt.toNat)
          (readFrames s.env.mem s.pport.arg0.toNat s.pport.arg1.toNat)
          { fp := s.rs.fracPos, pv := s.rs.prev, hp := s.rs.hasPrev, ring := s.ring, written := 0, consumed := 0 } →
        exec .rsResample s = .next { s with
          rs := { s.rs with fracPos := c.fp, prev := c.pv, hasPrev := c.hp }
          ring := c.ring
          pport := { s.pport with
            res0 := BitVec.ofNat 32 (min c.written (2 ^ 32 - 1)), res1 := BitVec.ofNat 32 c.consumed, code := .ok } }
        ∧ c.consumed ≤ s.pport.arg1.toNat ∧
        (s.pport.arg1 = 0 → c.fp = s.rs.fracPos ∧ c.pv = s.rs.prev ∧ c.hp = s.rs.hasPrev ∧ c.ring = s.ring ∧
          c.written = 0)) ∧
    (s.pport.arg2.toInt ≤ 0 → s.fault = false → exec .rsResample s = .next { s with
      fault := true, fcause := .fSpeed, finfo := s.pport.arg2 })

/-- 41_resampler.md R164: RS.RESAMPLE.DRY's whole next state for a speed > 0 and an admitted range, whatever the
ring: RES0 the count the core writes in DRY mode, which is the length of the stream an unbounded ring would get,
RES1 = count, nothing else. When RS.RESAMPLE from the same state does not stop, its RES0 is the same. F_SPEED for a
speed ≤ 0, whatever the range; ERR_STATE in SHUTDOWN. -/
def Obligations.RsResampleDryResult : Prop :=
  ∀ s : State,
    (s.estate ≠ .shutdown → 0 < s.pport.arg2.toInt → rangeOK s.env s.pport.arg0.toNat s.pport.arg1.toNat = true →
      ∀ c : CoreRun,
        c = coreFrames .dry (adjStep s.rs.step s.pport.arg2.toInt.toNat)
          (readFrames s.env.mem s.pport.arg0.toNat s.pport.arg1.toNat)
          { fp := s.rs.fracPos, pv := s.rs.prev, hp := s.rs.hasPrev, ring := s.ring, written := 0, consumed := 0 } →
        exec .rsResampleDry s = .next { s with
          pport := { s.pport with
            res0 := BitVec.ofNat 32 (min c.written (2 ^ 32 - 1)), res1 := s.pport.arg1, code := .ok } } ∧
        c.written = (streamOutputs (adjStep s.rs.step s.pport.arg2.toInt.toNat)
          (readFrames s.env.mem s.pport.arg0.toNat s.pport.arg1.toNat) s.rs.fracPos s.rs.prev s.rs.hasPrev).length ∧
        (∀ t : State, exec .rsResample s = .next t → t.pport.res1 = s.pport.arg1 →
          t.pport.res0 = BitVec.ofNat 32 (min c.written (2 ^ 32 - 1)))) ∧
    (s.estate ≠ .shutdown → s.pport.arg2.toInt ≤ 0 → s.fault = false → exec .rsResampleDry s = .next { s with
      fault := true, fcause := .fSpeed, finfo := s.pport.arg2 }) ∧
    (s.estate = .shutdown → exec .rsResampleDry s = .next { s with pport := { s.pport with code := .errState } })

/-- 20_memory.md R83, 60_exceptions.md R308, 44_engine.md R261: when the range is admitted; RS.RESAMPLE,
RS.RESAMPLE.DRY, ENG.PULL and a final attempt of ENG.INGEST, in its start section or in a Wake, whose range is not
admitted, change nothing of the block; their agent has no further step, access or Wake, while every access of the
other agent, and the Wake beside a stuck consumer, go on. The marks pStuck and cStuck and the report `agentStuck` are
the model's own (log 6), and so are the script and the step without one (log 5, log 8). -/
def Obligations.UnadmittedRangeIsStuck : Prop :=
  (∀ (e : Env) (a n : Nat), rangeOK e a n = true ↔
    (n = 0 ∨ (a + 4 * n ≤ 2 ^ 32 ∧ hostOK e.params a (4 * n) = true))) ∧
  (∀ s : State, s.estate ≠ .shutdown → 0 < s.pport.arg2.toInt →
    rangeOK s.env s.pport.arg0.toNat s.pport.arg1.toNat = false →
    exec .rsResample s = .next { s with pStuck := true } ∧
    exec .rsResampleDry s = .next { s with pStuck := true }) ∧
  (∀ s : State, s.consEn = true → rangeOK s.env s.cport.arg0.toNat s.cport.arg1.toNat = false →
    exec .engPull s = .next { s with cStuck := true }) ∧
  (∀ (s : State) (m : Nat), (s.estate = .ready ∨ s.estate = .resized) → s.ring.cap ≠ 0 →
    m = rateAdj (s.ring.occ * 65536 / s.ring.cap) →
    (estimate s.rs.inRate.toInt s.rs.outRate.toInt s.pport.arg1.toNat m ≤ s.ring.cap - 1 - s.ring.occ ∨
      s.env.params.retryMax = 0) →
    rangeOK s.env s.pport.arg0.toNat s.pport.arg1.toNat = false →
    exec .engIngest s = .next { s with pStuck := true }) ∧
  (∀ (s : State) (m k : Nat) (src count : Word) (rest : List Input), s.env.script = .wake :: rest →
    s.fault = false → s.pStuck = false → s.lock = .free → s.iphase = .sleeping k src count → s.ring.cap ≠ 0 →
    m = rateAdj (s.ring.occ * 65536 / s.ring.cap) →
    (estimate s.rs.inRate.toInt s.rs.outRate.toInt count.toNat m ≤ s.ring.cap - 1 - s.ring.occ ∨
      s.env.params.retryMax ≤ k) →
    rangeOK s.env src.toNat count.toNat = false →
    step s = .next { s with pStuck := true, env := { s.env with script := rest } }) ∧
  (∀ (s : State) (p : Port) (width : Nat) (off v : Word) (rest : List Input), s.fault = false →
    stuckOf p s = true →
    (s.env.script = .read p width off :: rest ∨ s.env.script = .write p width off v :: rest ∨
      (p = .producer ∧ s.env.script = .wake :: rest) ∨ (p = .producer ∧ s.env.script = []) ∨
      (p = .consumer ∧ s.pStuck = false ∧ s.iphase = .idle ∧ s.env.script = [])) →
    step s = .fault (.agentStuck p)) ∧
  (∀ (s : State) (p q : Port) (width : Nat) (off v : Word) (rest : List Input), s.fault = false →
    stuckOf p s = true → stuckOf q s = false → s.lock = .free →
    (s.env.script = .read q width off :: rest ∨ s.env.script = .write q width off v :: rest) →
    ∃ t, step s = .next t) ∧
  (∀ (s : State) (k : Nat) (src count : Word) (rest : List Input), s.fault = false → s.cStuck = true →
    s.pStuck = false → s.lock = .free → s.iphase = .sleeping k src count →
    (s.env.script = [] ∨ s.env.script = .wake :: rest) → ∃ t, step s = .next t)

/-- 41_resampler.md R170, R163, R164: the core consumes at most its frames and writes at most ONE per frame; a
dry run consumes them all; a run that consumes fewer stopped on a full ring, with the phase below ONE. -/
def Obligations.CoreCountsBounded : Prop :=
  ∀ (mode : CoreMode) (a : Nat) (xs : List Frame) (c d : CoreRun), 1 ≤ a → d = coreFrames mode a xs c →
    c.consumed ≤ d.consumed ∧ d.consumed ≤ c.consumed + xs.length ∧
    c.written ≤ d.written ∧ d.written ≤ c.written + xs.length * 65536 ∧
    (mode = .dry → d.consumed = c.consumed + xs.length ∧ d.ring = c.ring) ∧
    (d.consumed < c.consumed + xs.length → d.ring.full = true ∧ d.fp < 65536 ∧ d.hp = true)

/-- 41_resampler.md R165: with one adjusted step and no stop, any partition of the input into runs of the core
ends as one run over the whole does; and two RS.RESAMPLE commands at one speed, the first not stopped, end as
one over both ranges does. An ENG.INGEST call is covered by the clause on the core alone. -/
def Obligations.ChunkingInvariance : Prop :=
  (∀ (mode : CoreMode) (a : Nat) (chunks : List (List Frame)) (c d : CoreRun),
    d = chunks.foldl (fun e xs => coreFrames mode a xs e) c → d.consumed = c.consumed + chunks.flatten.length →
    coreFrames mode a chunks.flatten c = d) ∧
  (∀ (s t1 t2 t : State) (src n1 n2 sp : Word), s.estate ≠ .shutdown → 0 < sp.toInt →
    n1.toNat + n2.toNat < 2 ^ 32 → rangeOK s.env src.toNat n1.toNat = true →
    rangeOK s.env (src.toNat + 4 * n1.toNat) n2.toNat = true →
    rangeOK s.env src.toNat (n1.toNat + n2.toNat) = true →
    exec .rsResample { s with pport := { s.pport with arg0 := src, arg1 := n1, arg2 := sp } } = .next t1 →
    t1.pport.res1 = n1 →
    exec .rsResample { t1 with pport := { t1.pport with arg0 := src + 4 * n1, arg1 := n2, arg2 := sp } } =
      .next t2 →
    exec .rsResample { s with pport := { s.pport with arg0 := src, arg1 := n1 + n2, arg2 := sp } } = .next t →
    t.rs = t2.rs ∧ t.ring = t2.ring ∧ t.pport.res1 = t1.pport.res1 + t2.pport.res1)

/-- 41_resampler.md R163: what a resample writes is the front of the unbounded ring's stream; a run that stops
leaves the phase from which the unconsumed frames give exactly the rest, none skipped and none repeated. -/
def Obligations.StoppedResampleResumes : Prop :=
  ∀ (nMax a : Nat) (xs : List Frame) (c d : CoreRun), 1 ≤ a → c.ring.Wf nMax → d = coreFrames .ring a xs c →
    d.ring.contents = c.ring.contents ++ (streamOutputs a xs c.fp c.pv c.hp).take (d.written - c.written) ∧
    streamOutputs a xs c.fp c.pv c.hp =
      (streamOutputs a xs c.fp c.pv c.hp).take (d.written - c.written) ++
        streamOutputs a (xs.drop (d.consumed - c.consumed)) d.fp d.pv d.hp ∧
    (d.consumed - c.consumed < xs.length → d.ring.full = true)

/-- 41_resampler.md R171: the closed form of a stream fed from a reset state at one adjusted step: the outputs,
their number, and the final phase, previous frame and count consumed. -/
def Obligations.StreamClosedForm : Prop :=
  ∀ (a : Nat) (xs : List Frame) (g : RingState) (d : CoreRun) (w : Nat), 1 ≤ a → xs ≠ [] →
    d = coreFrames .dry a xs (CoreRun.fresh g) → w = ((xs.length - 1) * 65536 + a - 1) / a →
    streamOutputs a xs 0 Frame.zero false =
      (List.range w).map (fun j => lerpFrame (xs.getD (j * a / 65536) Frame.zero)
        (xs.getD (j * a / 65536 + 1) Frame.zero) (j * a % 65536)) ∧
    d.written = w ∧ d.fp + (xs.length - 1) * 65536 = w * a ∧ d.pv = xs.getLastD Frame.zero ∧ d.hp = true ∧
    d.consumed = xs.length

/-- 41_resampler.md R172: at speed ONE, n input frames from a reset state give n·Rout/Rin outputs to within
0.2 %, when the step is the quotient and at least 1000, n ≥ 500 and n·Rout/Rin ≥ 1000. -/
def Obligations.RateCorrectness : Prop :=
  ∀ (ri ro : Nat) (xs : List Frame) (g : RingState), 1 ≤ ri → 1 ≤ ro → 1000 ≤ ri * 65536 / ro →
    500 ≤ xs.length → 1000 * ri ≤ xs.length * ro →
    500 * |((coreFrames .dry (adjStep (stepOf ri ro) 65536) xs (CoreRun.fresh g)).written * ri : Int) -
        (xs.length * ro : Int)| ≤ xs.length * ro

/-- 41_resampler.md R169: at equal rates and speed ONE the adjusted step is ONE; after the bootstrap every input
frame gives one output, the previous frame, and the phase stays 0; from a reset the first frame gives none. -/
def Obligations.PassthroughIdentity : Prop :=
  (∀ r : Word, 0 < r.toInt → adjStep (stepOf r.toInt r.toInt) 65536 = 65536) ∧
  (∀ (xs : List Frame) (p : Frame) (c d : CoreRun), c.fp = 0 → c.hp = true → c.pv = p →
    d = coreFrames .dry 65536 xs c →
    streamOutputs 65536 xs 0 p true = (p :: xs).dropLast ∧ d.fp = 0 ∧
    d.written = c.written + xs.length ∧ d.consumed = c.consumed + xs.length) ∧
  (∀ xs : List Frame, streamOutputs 65536 xs 0 Frame.zero false = xs.dropLast)

/-! ## Ring buffer -/

/-- 42_ringbuffer.md R210, R205: RB.WRITE's whole next state when there is space, F_RB_FULL with finfo = w when
there is none, ERR_STATE in SHUTDOWN. finfo is stated for a cursor that fits a word (log 10). -/
def Obligations.RbWriteResult : Prop :=
  ∀ s : State,
    (s.estate ≠ .shutdown → s.ring.cap ≠ 0 → (s.ring.w + 1) % s.ring.cap ≠ s.ring.r →
      exec .rbWrite s = .next { s with
        ring := { s.ring with
          store := s.ring.store.set s.ring.w
            { l := s.pport.arg0.extractLsb' 0 16, r := s.pport.arg0.extractLsb' 16 16 }
          w := (s.ring.w + 1) % s.ring.cap }
        pport := { s.pport with code := .ok } }) ∧
    (s.estate ≠ .shutdown → (s.ring.cap = 0 ∨ (s.ring.w + 1) % s.ring.cap = s.ring.r) → s.fault = false →
      ∃ v : Word, exec .rbWrite s = .next { s with fault := true, fcause := .fRbFull, finfo := v } ∧
        (s.ring.w < 2 ^ 32 → v = BitVec.ofNat 32 s.ring.w)) ∧
    (s.estate = .shutdown → exec .rbWrite s = .next { s with pport := { s.pport with code := .errState } })

/-- 42_ringbuffer.md R211, R206: RB.READ's whole next state, empty or not, and ERR_STATE in SHUTDOWN. -/
def Obligations.RbReadResult : Prop :=
  ∀ s : State,
    (s.estate ≠ .shutdown → s.ring.occ = 0 →
      exec .rbRead s = .next { s with cport := { s.cport with res0 := 0, res1 := 0, code := .ok } }) ∧
    (s.estate ≠ .shutdown → s.ring.occ ≠ 0 →
      exec .rbRead s = .next { s with
        ring := { s.ring with r := (s.ring.r + 1) % s.ring.cap }
        cport := { s.cport with
          res0 := (s.ring.store.getD s.ring.r Frame.zero).r ++ (s.ring.store.getD s.ring.r Frame.zero).l
          res1 := 1, code := .ok } }) ∧
    (s.estate = .shutdown → exec .rbRead s = .next { s with cport := { s.cport with code := .errState } })

/-- 42_ringbuffer.md R212, R209: RB.FILL's whole next state: the floored fill fraction, below ONE. -/
def Obligations.RbFillResult : Prop :=
  ∀ s : State,
    (s.estate ≠ .shutdown → s.ring.Wf s.env.params.nMax →
      exec .rbFill s = .next { s with
        pport := { s.pport with
          res0 := BitVec.ofNat 32 (if s.ring.cap = 0 then 0 else s.ring.occ * 65536 / s.ring.cap)
          code := .ok } } ∧
      (if s.ring.cap = 0 then 0 else s.ring.occ * 65536 / s.ring.cap) < 65536) ∧
    (s.estate = .shutdown → exec .rbFill s = .next { s with pport := { s.pport with code := .errState } })

/-- 42_ringbuffer.md R208, R202, R203: the occupancy is the non-negative remainder and equals the source's case
split; it is at most N − 1, and the ring is full exactly there; an absent ring is empty and full. -/
def Obligations.OccupancyCaseSplit : Prop :=
  (∀ (nMax : Nat) (g : RingState), g.Wf nMax → 2 ≤ g.cap →
    (g.occ : Int) = ((g.w : Int) - g.r) % g.cap ∧
    g.occ = (if g.r ≤ g.w then g.w - g.r else g.cap - g.r + g.w) ∧
    g.occ ≤ g.cap - 1 ∧ (g.full = true ↔ g.occ = g.cap - 1)) ∧
  (∀ g : RingState, g.cap = 0 → g.occ = 0 ∧ g.full = true)

/-- 42_ringbuffer.md R204: Free(), and that it is the number of writes that can follow before the ring is
full. -/
def Obligations.FreeSpaceCountsWrites : Prop :=
  ∀ (nMax : Nat) (g : RingState) (fs : List Frame), g.Wf nMax →
    g.freeSpace = (if g.cap = 0 then 0 else g.cap - 1 - g.occ) ∧
    (fs.length ≤ g.freeSpace →
      ((fs.foldl (fun h f => h.push f) g).full = true ↔ fs.length = g.freeSpace))

/-- 42_ringbuffer.md R207: the ring refines a queue of frames: a write appends, a read takes the oldest, each
frame once, and the occupancy is the queue's length. -/
def Obligations.RingIsFifo : Prop :=
  ∀ (nMax : Nat) (g : RingState), g.Wf nMax →
    g.contents.length = g.occ ∧
    (∀ f : Frame, g.full = false → (g.push f).Wf nMax ∧ (g.push f).contents = g.contents ++ [f]) ∧
    (g.pop = none ↔ g.contents = []) ∧
    (∀ (f : Frame) (h : RingState), g.pop = some (f, h) → h.Wf nMax ∧ g.contents = f :: h.contents) ∧
    (∀ n : Nat, (RingState.sized n).contents = [])

/-- 70_reset_and_hazards.md R355: the free space computed from an RB.FILL result never exceeds the true free
space, and is at most one below it when N ≤ 65536; so is the one computed from an older read cursor. -/
def Obligations.FillReadBoundsFreeSpace : Prop :=
  ∀ (nMax : Nat) (g : RingState), g.Wf nMax → 2 ≤ g.cap →
    (g.cap : Int) - (((g.fillFx + 1) * g.cap + 65535) / 65536 : Nat) ≤ g.freeSpace ∧
    (g.cap ≤ 65536 → (g.freeSpace : Int) - 1 ≤ (g.cap : Int) - (((g.fillFx + 1) * g.cap + 65535) / 65536 : Nat)) ∧
    (∀ (h : RingState) (f : Frame), g.pop = some (f, h) →
      (g.cap : Int) - 1 - ((h.w : Int) - g.r) % g.cap ≤ h.freeSpace)

/-! ## Rate control -/

/-- 43_ratecontrol.md R232, R233: RC.ADJUST's whole next state: the multiplier, in [64226, 66846], the value at
ONE for every larger fraction; ERR_STATE in SHUTDOWN. -/
def Obligations.RcAdjustResult : Prop :=
  (∀ s : State,
    (s.estate ≠ .shutdown → exec .rcAdjust s = .next { s with
      pport := { s.pport with res0 := BitVec.ofNat 32 (rateAdj s.pport.arg0.toNat), code := .ok } }) ∧
    (s.estate = .shutdown → exec .rcAdjust s = .next { s with pport := { s.pport with code := .errState } })) ∧
  (∀ f : Nat, 64226 ≤ rateAdj f ∧ rateAdj f ≤ 66846 ∧ (65536 < f → rateAdj f = 66846)) ∧
  (∀ f g : Nat, f ≤ g → rateAdj f ≤ rateAdj g)

/-- 43_ratecontrol.md R234, R231, R233: the values at the deadband edges and at the source's three points, and
one unit of multiplier every 15 units of F outside the deadband. -/
def Obligations.RateAdjTable : Prop :=
  rateAdj 19645 = 65535 ∧ rateAdj 19646 = 65536 ∧ rateAdj 19660 = 65536 ∧ rateAdj 19661 = 65536 ∧
  rateAdj 45875 = 65536 ∧ rateAdj 45876 = 65536 ∧ rateAdj 45890 = 65536 ∧ rateAdj 45891 = 65537 ∧
  rateAdj 0 = 64226 ∧ rateAdj 32768 = 65536 ∧ rateAdj 65536 = 66846 ∧
  (∀ f : Nat, f + 15 ≤ 19660 → rateAdj (f + 15) = rateAdj f + 1) ∧
  (∀ f : Nat, 45876 ≤ f → f + 15 ≤ 65536 → rateAdj (f + 15) = rateAdj f + 1)

/-! ## Engine -/

/-- 44_engine.md R252: the capacity, when it is a failure, what a sizing leaves, and the rule's examples. -/
def Obligations.CapacityFormula : Prop :=
  (∀ (nMax : Nat) (i : Int) (drive bufsec n : Nat),
    capacityOf nMax i drive bufsec = some n ↔
      (drive ≠ 0 ∧ (n : Int) = (bufsec : Int) * i / drive ∧ 2 ≤ n ∧ n ≤ nMax)) ∧
  (∀ n : Nat, (RingState.sized n).cap = n ∧ (RingState.sized n).w = 0 ∧ (RingState.sized n).r = 0 ∧
    (RingState.sized n).store.length = n ∧ (∀ f ∈ (RingState.sized n).store, f = Frame.zero)) ∧
  capacityOf 1048576 44100 3932160 65536 = some 735 ∧ capacityOf 1048576 44100 3914465 65536 = some 738 ∧
  capacityOf 1048576 48000 3932160 656 = some 8 ∧ capacityOf 1048576 48000 3932160 655 = some 7 ∧
  capacityOf 1048576 0 3932160 65536 = none

/-- 44_engine.md R251, R253: ENG.INIT's whole next state for whatever rate the sink grants, with a sizing that
succeeds and with one that fails; ERR_STATE in any state but UNINIT. How the draw GRANT is held is the model's
choice (log 4), and the statement holds for every value of it. -/
def Obligations.EngInitResult : Prop :=
  ∀ s : State,
    (s.estate = .uninit → ∃ g : Word,
      (∀ (g' : Word) (l : List Word), s.env.grants = g' :: l → g = g') ∧
      (∀ n : Nat, capacityOf s.env.params.nMax s.pport.arg0.toInt s.pport.arg2.toNat s.pport.arg3.toNat = some n →
        exec .engInit s = .next { s with
          rs := { inRate := s.pport.arg0, outRate := g, step := stepOf s.pport.arg0.toInt g.toInt, fracPos := 0,
                  prev := { l := 0, r := 0 }, hasPrev := false }
          ring := { cap := n, store := List.replicate n { l := 0, r := 0 }, w := 0, r := 0 }
          consEn := true
          estate := .ready
          pport := { s.pport with res0 := g, res1 := BitVec.ofNat 32 (min n (2 ^ 32 - 1)), code := .ok }
          env := { s.env with grants := s.env.grants.tail, draws := s.env.draws + 1 } }) ∧
      (capacityOf s.env.params.nMax s.pport.arg0.toInt s.pport.arg2.toNat s.pport.arg3.toNat = none →
        exec .engInit s = .next { s with
          rs := { inRate := s.pport.arg0, outRate := g, step := stepOf s.pport.arg0.toInt g.toInt, fracPos := 0,
                  prev := { l := 0, r := 0 }, hasPrev := false }
          ring := { cap := 0, store := [], w := 0, r := 0 }
          consEn := true
          estate := .ready
          pport := { s.pport with res0 := g, res1 := 0, code := .errAlloc }
          env := { s.env with grants := s.env.grants.tail, draws := s.env.draws + 1 } })) ∧
    (s.estate ≠ .uninit → exec .engInit s = .next { s with pport := { s.pport with code := .errState } })

/-- 44_engine.md R254, R253: ENG.RESIZE's whole next state on success and on failure, and ERR_STATE outside READY
and RESIZED. -/
def Obligations.EngResizeResult : Prop :=
  ∀ s : State,
    (s.estate = .ready ∨ s.estate = .resized →
      (∀ n : Nat, capacityOf s.env.params.nMax s.pport.arg0.toInt s.pport.arg1.toNat s.pport.arg2.toNat = some n →
        exec .engResize s = .next { s with
          ring := { cap := n, store := List.replicate n { l := 0, r := 0 }, w := 0, r := 0 }
          rs := { inRate := s.pport.arg0, outRate := s.rs.outRate,
                  step := stepOf s.pport.arg0.toInt s.rs.outRate.toInt, fracPos := 0, prev := { l := 0, r := 0 },
                  hasPrev := false }
          estate := .resized
          pport := { s.pport with res0 := BitVec.ofNat 32 (min n (2 ^ 32 - 1)), code := .ok } }) ∧
      (capacityOf s.env.params.nMax s.pport.arg0.toInt s.pport.arg1.toNat s.pport.arg2.toNat = none →
        exec .engResize s = .next { s with
          ring := { cap := 0, store := [], w := 0, r := 0 }
          pport := { s.pport with res0 := 0, code := .errAlloc } })) ∧
    (s.estate = .uninit ∨ s.estate = .shutdown →
      exec .engResize s = .next { s with pport := { s.pport with code := .errState } })

/-- 44_engine.md R257: ENG.INGEST with the store absent completes at once, with both results 0 and CODE = OK,
and changes nothing else. -/
def Obligations.IngestAbsentStoreReturnsZero : Prop :=
  ∀ s : State, (s.estate = .ready ∨ s.estate = .resized) → s.ring.cap = 0 →
    exec .engIngest s = .next { s with pport := { s.pport with res0 := 0, res1 := 0, code := .ok } }

/-- 44_engine.md R256, R258 to R261; 20_memory.md R98: with a store, an attempt of ENG.INGEST sleeps when the
estimate at the multiplier of the fill exceeds the free space and the budget allows a sleep, and otherwise
resamples: the whole next state of both, for the start section from the ARG registers, and for a Wake section from
the operands latched in iphase, with everything computed anew from the state at the Wake. A Wake whose final attempt
finds its range not admitted marks the producer stuck, the model's own mark (log 6). A count of 0 never sleeps. The
script is the model's (log 5). -/
def Obligations.IngestSleepsOrResamples : Prop :=
  (∀ (s : State) (m need : Nat), (s.estate = .ready ∨ s.estate = .resized) → s.ring.cap ≠ 0 →
    m = rateAdj (s.ring.occ * 65536 / s.ring.cap) →
    need = estimate s.rs.inRate.toInt s.rs.outRate.toInt s.pport.arg1.toNat m →
    (s.ring.cap - 1 - s.ring.occ < need → 0 < s.env.params.retryMax →
      exec .engIngest s = .next { s with iphase := .sleeping 1 s.pport.arg0 s.pport.arg1 }) ∧
    (need ≤ s.ring.cap - 1 - s.ring.occ ∨ s.env.params.retryMax = 0 →
      rangeOK s.env s.pport.arg0.toNat s.pport.arg1.toNat = true →
      ∀ c : CoreRun,
        c = coreFrames .ring (adjStep s.rs.step m)
          (readFrames s.env.mem s.pport.arg0.toNat s.pport.arg1.toNat)
          { fp := s.rs.fracPos, pv := s.rs.prev, hp := s.rs.hasPrev, ring := s.ring, written := 0, consumed := 0 } →
        exec .engIngest s = .next { s with
          rs := { s.rs with fracPos := c.fp, prev := c.pv, hasPrev := c.hp }
          ring := c.ring
          iphase := .idle
          pport := { s.pport with
            res0 := BitVec.ofNat 32 c.consumed, res1 := BitVec.ofNat 32 (min c.written (2 ^ 32 - 1)),
            code := .ok } }) ∧
    (s.pport.arg1 = 0 → need = 0)) ∧
  (∀ (s : State) (m need k : Nat) (src count : Word) (rest : List Input), s.env.script = .wake :: rest →
    s.fault = false → s.pStuck = false → s.lock = .free → s.iphase = .sleeping k src count → s.ring.cap ≠ 0 →
    m = rateAdj (s.ring.occ * 65536 / s.ring.cap) →
    need = estimate s.rs.inRate.toInt s.rs.outRate.toInt count.toNat m →
    (s.ring.cap - 1 - s.ring.occ < need → k < s.env.params.retryMax →
      step s = .next { s with
        iphase := .sleeping (k + 1) src count, env := { s.env with script := rest } }) ∧
    (need ≤ s.ring.cap - 1 - s.ring.occ ∨ s.env.params.retryMax ≤ k →
      (rangeOK s.env src.toNat count.toNat = true →
        ∀ c : CoreRun,
          c = coreFrames .ring (adjStep s.rs.step m) (readFrames s.env.mem src.toNat count.toNat)
            { fp := s.rs.fracPos, pv := s.rs.prev, hp := s.rs.hasPrev, ring := s.ring, written := 0,
              consumed := 0 } →
          step s = .next { s with
            rs := { s.rs with fracPos := c.fp, prev := c.pv, hasPrev := c.hp }
            ring := c.ring
            iphase := .idle
            pport := { s.pport with
              res0 := BitVec.ofNat 32 c.consumed, res1 := BitVec.ofNat 32 (min c.written (2 ^ 32 - 1)),
              code := .ok }
            env := { s.env with script := rest } }) ∧
      (rangeOK s.env src.toNat count.toNat = false →
        step s = .next { s with pStuck := true, env := { s.env with script := rest } })))

/-- 44_engine.md R264, R260, R256: a sleeping ENG.INGEST with an admitted range and no other action completes with
CODE = OK within the sleeps its budget leaves plus one step. That an empty script takes the Wake is the model's
choice (log 8). -/
def Obligations.IngestEndsWithinBudget : Prop :=
  ∀ (s : State) (k : Nat) (src count : Word), s.Inv → s.iphase = .sleeping k src count → s.fault = false →
    s.pStuck = false → s.env.script = [] → rangeOK s.env src.toNat count.toNat = true →
    ∃ (j : Nat) (t : State), j ≤ s.env.params.retryMax - k + 1 ∧ core.run j s = .next t ∧ t.iphase = .idle ∧
      t.pport.code = .ok

/-- 44_engine.md R265, R269, 20_memory.md R85: ENG.PULL with an admitted range always completes with CODE = OK;
its frame: host memory outside [dst, dst + 4·n), and every part of the state but the read cursor, last_read,
has_last and C.CODE, are unchanged. -/
def Obligations.PullResultAndFrame : Prop :=
  ∀ s : State,
    (s.consEn = true → rangeOK s.env s.cport.arg0.toNat s.cport.arg1.toNat = true →
      ∃ t : State, exec .engPull s = .next t ∧
        t = { s with
          ring := { s.ring with r := t.ring.r }
          lastRead := t.lastRead
          hasLast := t.hasLast
          env := { s.env with mem := t.env.mem }
          cport := { s.cport with code := .ok } } ∧
        (∀ a : Nat, (a < s.cport.arg0.toNat ∨ s.cport.arg0.toNat + 4 * s.cport.arg1.toNat ≤ a) →
          memRead t.env.mem a = memRead s.env.mem a)) ∧
    (s.consEn = false → exec .engPull s = .next { s with cport := { s.cport with code := .errState } })

/-- 44_engine.md R265 to R268: the frames ENG.PULL writes are the ring's, oldest first, then the last frame read,
or silence if none ever was; the frames read leave the ring, and the last of them is recorded. -/
def Obligations.PullServesFifoThenRepeats : Prop :=
  ∀ (s t : State) (dst n : Nat), s.Inv → s.consEn = true → dst = s.cport.arg0.toNat → n = s.cport.arg1.toNat →
    rangeOK s.env dst n = true → exec .engPull s = .next t →
    (∀ k : Nat, k < n → unpack (memRead32 t.env.mem (dst + 4 * k)) =
      (if k < s.ring.occ then s.ring.contents.getD k Frame.zero
       else if 0 < s.ring.occ then s.ring.contents.getD (s.ring.occ - 1) Frame.zero
       else if s.hasLast = true then s.lastRead else Frame.zero)) ∧
    t.ring.contents = s.ring.contents.drop n ∧
    (0 < min n s.ring.occ →
      t.hasLast = true ∧ t.lastRead = s.ring.contents.getD (min n s.ring.occ - 1) Frame.zero) ∧
    (min n s.ring.occ = 0 → t.hasLast = s.hasLast ∧ t.lastRead = s.lastRead)

/-- 44_engine.md R270: ENG.OCCUPANCY's whole next state, a percent in [0, 99], and ERR_STATE outside READY and
RESIZED. -/
def Obligations.OccupancyPercentResult : Prop :=
  ∀ s : State,
    (s.estate = .ready ∨ s.estate = .resized → s.ring.Wf s.env.params.nMax →
      exec .engOccupancy s = .next { s with
        pport := { s.pport with
          res0 := BitVec.ofNat 32 (if s.ring.cap = 0 then 0 else s.ring.occ * 100 / s.ring.cap), code := .ok } } ∧
      (if s.ring.cap = 0 then 0 else s.ring.occ * 100 / s.ring.cap) ≤ 99) ∧
    (s.estate = .uninit ∨ s.estate = .shutdown →
      exec .engOccupancy s = .next { s with pport := { s.pport with code := .errState } })

/-- 44_engine.md R272: ENG.QUIT's whole next state, ERR_STATE outside READY and RESIZED, and ERR_STATE for every
later command. -/
def Obligations.EngQuitResult : Prop :=
  (∀ (t : State) (i : Instr), t.estate = .shutdown → t.consEn = false →
    exec i t = .next (match portOf i with
      | .producer => { t with pport := { t.pport with code := .errState } }
      | .consumer => { t with cport := { t.cport with code := .errState } })) ∧
  ∀ s : State,
    (s.estate = .ready ∨ s.estate = .resized → exec .engQuit s = .next { s with
      consEn := false
      ring := { cap := 0, store := [], w := 0, r := 0 }
      estate := .shutdown
      pport := { s.pport with code := .ok } }) ∧
    (s.estate = .uninit ∨ s.estate = .shutdown →
      exec .engQuit s = .next { s with pport := { s.pport with code := .errState } })

/-! ## Rules about the whole machine -/

/-- 44_engine.md R273: the transitions of the table are the only changes of estate, each by its command on the
producer port or by power-on reset. -/
def Obligations.EngineTransitions : Prop :=
  ∀ s t : State, step s = .next t → t.estate ≠ s.estate →
    ∃ (i : Input) (rest : List Input), s.env.script = i :: rest ∧
      ((i = .write .producer 4 0 0x40 ∧ s.estate = .uninit ∧ t.estate = .ready) ∨
       (i = .write .producer 4 0 0x41 ∧ s.estate = .ready ∧ t.estate = .resized ∧ t.pport.code = .ok) ∨
       (i = .write .producer 4 0 0x46 ∧ (s.estate = .ready ∨ s.estate = .resized) ∧ t.estate = .shutdown) ∨
       (i = .powerOn ∧ t.estate = .uninit))

/-- 10_state.md R47, 20_memory.md R85: last_read and has_last change only by ENG.PULL on the consumer port or by
power-on reset, and host memory only by ENG.PULL or by the host's own write. -/
def Obligations.OnlyPullTouchesLastReadAndMemory : Prop :=
  ∀ s t : State, step s = .next t →
    ((t.lastRead ≠ s.lastRead ∨ t.hasLast ≠ s.hasLast) →
      ∃ rest : List Input, s.env.script = .write .consumer 4 0 0x43 :: rest ∨ s.env.script = .powerOn :: rest) ∧
    (t.env.mem ≠ s.env.mem →
      ∃ (a : Word) (b : Byte) (rest : List Input),
        s.env.script = .write .consumer 4 0 0x43 :: rest ∨ s.env.script = .hostWrite a b :: rest)

/-- 10_state.md R32, R45; 60_exceptions.md R303, R315; 42_ringbuffer.md R207: no step of the producer changes a
consumer-port register, last_read or has_last, and it moves the read cursor only by a sizing or ENG.QUIT; no step of
the consumer changes a producer-port register, the engine, the resampler, `iphase`, the write cursor or the store.
The clauses about pBus and cBus, the words the agents' last reads returned, are about fields that are the model's own
choice (log 11), and no rule is cited for them. -/
def Obligations.PortIsolation : Prop :=
  ∀ (s t : State) (i : Input) (rest : List Input), s.env.script = i :: rest → step s = .next t →
    ((i = .wake ∨ (∃ (width : Nat) (off : Word), i = .read .producer width off) ∨
        (∃ (width : Nat) (off v : Word), i = .write .producer width off v)) →
      t.cport = s.cport ∧ t.lastRead = s.lastRead ∧ t.hasLast = s.hasLast ∧ t.env.cBus = s.env.cBus ∧
      (t.ring.r = s.ring.r ∨ i = .write .producer 4 0 0x40 ∨ i = .write .producer 4 0 0x41 ∨
        i = .write .producer 4 0 0x46)) ∧
    (((∃ (width : Nat) (off : Word), i = .read .consumer width off) ∨
        (∃ (width : Nat) (off v : Word), i = .write .consumer width off v)) →
      t.pport = s.pport ∧ t.estate = s.estate ∧ t.consEn = s.consEn ∧ t.rs = s.rs ∧ t.iphase = s.iphase ∧
      t.env.pBus = s.env.pBus ∧ t.ring.cap = s.ring.cap ∧ t.ring.store = s.ring.store ∧ t.ring.w = s.ring.w)

/-- 20_memory.md R81, R82, R84, R85; 41_resampler.md R151: a word is read little-endian from its four bytes; the
input frames of a resample are the words at src + 4·i, unpacked; a frame packs with left in the low half and right in
the high half and unpacks to itself; a word written to host memory reads back, little-endian byte by byte, and leaves
every other byte alone, at any alignment. -/
def Obligations.HostWordReadAfterWrite : Prop :=
  (∀ (m : Memory) (a : Nat),
    (memRead32 m a).extractLsb' 0 8 = memRead m a ∧ (memRead32 m a).extractLsb' 8 8 = memRead m (a + 1) ∧
    (memRead32 m a).extractLsb' 16 8 = memRead m (a + 2) ∧ (memRead32 m a).extractLsb' 24 8 = memRead m (a + 3)) ∧
  (∀ (m : Memory) (a n : Nat), (readFrames m a n).length = n ∧
    ∀ i : Nat, i < n → (readFrames m a n)[i]? = some (unpack (memRead32 m (a + 4 * i)))) ∧
  (∀ w : Word, (unpack w).l = w.extractLsb' 0 16 ∧ (unpack w).r = w.extractLsb' 16 16) ∧
  (∀ f : Frame, (pack f).extractLsb' 0 16 = f.l ∧ (pack f).extractLsb' 16 16 = f.r ∧ unpack (pack f) = f) ∧
  (∀ (m : Memory) (a : Nat) (v : Word), Memory.wf m = true → a + 4 ≤ 2 ^ 32 →
    memRead32 (memWrite32 m a v) a = v ∧
    memRead (memWrite32 m a v) a = v.extractLsb' 0 8 ∧ memRead (memWrite32 m a v) (a + 1) = v.extractLsb' 8 8 ∧
    memRead (memWrite32 m a v) (a + 2) = v.extractLsb' 16 8 ∧
    memRead (memWrite32 m a v) (a + 3) = v.extractLsb' 24 8 ∧
    (∀ b : Nat, (b < a ∨ a + 4 ≤ b) → memRead (memWrite32 m a v) b = memRead m b))
end

