-- ==== Sys2Proof/Laws/Ring.lean ====
section
/-! SUPPORT. The ring's invariant under its primitives (42_ringbuffer.md R205 to R207). -/

namespace Sys2Proof.Machine

theorem RingState.absent_wf (nMax : Nat) : RingState.absent.Wf nMax := Or.inl rfl

theorem RingState.sized_wf {nMax n : Nat} (h2 : 2 ≤ n) (hn : n ≤ nMax) : (RingState.sized n).Wf nMax :=
  Or.inr ⟨h2, hn, by simp only [RingState.sized]; omega, by simp only [RingState.sized]; omega, List.length_replicate⟩

/-- A ring that is not full has a store, and its cursors are in range. -/
theorem RingState.present_of_not_full {nMax : Nat} {g : RingState} (h : g.Wf nMax) (hf : g.full = false) :
    2 ≤ g.cap ∧ g.cap ≤ nMax ∧ g.w < g.cap ∧ g.r < g.cap ∧ g.store.length = g.cap := by
  rcases h with rfl | h
  · cases hf
  · exact h

/-- A write with space keeps the ring's invariant. -/
theorem RingState.push_wf {nMax : Nat} {g : RingState} (f : Frame) (h : g.Wf nMax) (hf : g.full = false) :
    (g.push f).Wf nMax := by
  obtain ⟨h1, h2, _, h4, h5⟩ := RingState.present_of_not_full h hf
  exact Or.inr ⟨h1, h2, Nat.mod_lt _ (Nat.lt_of_lt_of_le Nat.two_pos h1), h4, by simpa [RingState.push] using h5⟩

/-- A read keeps the ring's invariant and changes only the read cursor. -/
theorem RingState.pop_spec {nMax : Nat} {g g' : RingState} {f : Frame} (h : g.Wf nMax) (hp : g.pop = some (f, g')) :
    g'.Wf nMax ∧ g.occ ≠ 0 ∧ f = g.store.getD g.r Frame.zero ∧ g' = { g with r := (g.r + 1) % g.cap } := by
  unfold RingState.pop at hp
  split at hp
  · cases hp
  · rename_i ho
    simp only [Option.some.injEq, Prod.mk.injEq] at hp
    obtain ⟨rfl, rfl⟩ := hp
    refine ⟨?_, ho, rfl, rfl⟩
    rcases h with rfl | ⟨h1, h2, h3, _, h5⟩
    · exact absurd rfl ho
    · exact Or.inr ⟨h1, h2, h3, Nat.mod_lt _ (by omega), h5⟩

/-- A read changes only the read cursor, whatever the ring. -/
theorem RingState.pop_eq {g g' : RingState} {f : Frame} (hp : g.pop = some (f, g')) :
    g' = { g with r := (g.r + 1) % g.cap } := by
  unfold RingState.pop at hp
  split at hp
  · cases hp
  · simp only [Option.some.injEq, Prod.mk.injEq] at hp
    exact hp.2.symm

/-- ENG.PULL's loop changes of the ring only the read cursor. -/
theorem pullLoop_ring (n a : Nat) (q : PullRun) :
    (pullLoop n a q).ring.cap = q.ring.cap ∧ (pullLoop n a q).ring.store = q.ring.store ∧
      (pullLoop n a q).ring.w = q.ring.w := by
  induction n generalizing a q with
  | zero => exact ⟨rfl, rfl, rfl⟩
  | succ k ih =>
    have hfr : (q.frame a).ring.cap = q.ring.cap ∧ (q.frame a).ring.store = q.ring.store ∧
        (q.frame a).ring.w = q.ring.w := by
      unfold PullRun.frame
      split
      · rename_i f g' hp; rw [RingState.pop_eq hp]; exact ⟨rfl, rfl, rfl⟩
      · exact ⟨rfl, rfl, rfl⟩
    obtain ⟨h1, h2, h3⟩ := ih (a + 4) (q.frame a)
    exact ⟨h1.trans hfr.1, h2.trans hfr.2.1, h3.trans hfr.2.2⟩

/-- ENG.PULL's loop keeps the ring's invariant, and clears no mark of a frame read. -/
theorem pullLoop_wf {nMax : Nat} (n a : Nat) (q : PullRun) (h : q.ring.Wf nMax)
    (hl : q.hasLast = false → q.lastRead = Frame.zero) :
    (pullLoop n a q).ring.Wf nMax ∧
      ((pullLoop n a q).hasLast = false → (pullLoop n a q).lastRead = Frame.zero) := by
  induction n generalizing a q with
  | zero => exact ⟨h, hl⟩
  | succ k ih =>
    have hfr : (q.frame a).ring.Wf nMax ∧ ((q.frame a).hasLast = false → (q.frame a).lastRead = Frame.zero) := by
      unfold PullRun.frame
      split
      · rename_i f g' hp; exact ⟨(RingState.pop_spec h hp).1, nofun⟩
      · exact ⟨h, hl⟩
    exact ih (a + 4) (q.frame a) hfr.1 hfr.2

end Sys2Proof.Machine
end

