-- ==== Sys2Proof/Laws/Core.lean ====
section
/-! SUPPORT. The resample core, said once: what one emission loop and one run over the input frames keep
(41_resampler.md R161, R170). -/

namespace Sys2Proof.Machine

/-! ### One emission, one bootstrap and one wrap, field by field -/

@[simp] theorem CoreRun.wrap_fp (x : Frame) (c : CoreRun) :
    (c.wrap x).fp = c.fp - ONE := rfl
@[simp] theorem CoreRun.wrap_pv (x : Frame) (c : CoreRun) :
    (c.wrap x).pv = x := rfl
@[simp] theorem CoreRun.wrap_hp (x : Frame) (c : CoreRun) :
    (c.wrap x).hp = c.hp := rfl
@[simp] theorem CoreRun.wrap_ring (x : Frame) (c : CoreRun) :
    (c.wrap x).ring = c.ring := rfl
@[simp] theorem CoreRun.wrap_written (x : Frame) (c : CoreRun) :
    (c.wrap x).written = c.written := rfl
@[simp] theorem CoreRun.wrap_consumed (x : Frame) (c : CoreRun) :
    (c.wrap x).consumed = c.consumed + 1 := rfl
@[simp] theorem CoreRun.bootstrap_fp (x : Frame) (c : CoreRun) :
    (c.bootstrap x).fp = c.fp := rfl
@[simp] theorem CoreRun.bootstrap_pv (x : Frame) (c : CoreRun) :
    (c.bootstrap x).pv = x := rfl
@[simp] theorem CoreRun.bootstrap_hp (x : Frame) (c : CoreRun) :
    (c.bootstrap x).hp = true := rfl
@[simp] theorem CoreRun.bootstrap_ring (x : Frame) (c : CoreRun) :
    (c.bootstrap x).ring = c.ring := rfl
@[simp] theorem CoreRun.bootstrap_written (x : Frame) (c : CoreRun) :
    (c.bootstrap x).written = c.written := rfl
@[simp] theorem CoreRun.bootstrap_consumed (x : Frame) (c : CoreRun) :
    (c.bootstrap x).consumed = c.consumed + 1 := rfl
@[simp] theorem CoreRun.emit_fp (mode : CoreMode) (a : Nat) (x : Frame) (c : CoreRun) :
    (c.emit mode a x).fp = c.fp + a := rfl
@[simp] theorem CoreRun.emit_pv (mode : CoreMode) (a : Nat) (x : Frame) (c : CoreRun) :
    (c.emit mode a x).pv = c.pv := rfl
@[simp] theorem CoreRun.emit_hp (mode : CoreMode) (a : Nat) (x : Frame) (c : CoreRun) :
    (c.emit mode a x).hp = c.hp := rfl
@[simp] theorem CoreRun.emit_ring (mode : CoreMode) (a : Nat) (x : Frame) (c : CoreRun) :
    (c.emit mode a x).ring = if mode = .ring then c.ring.push (lerpFrame c.pv x c.fp) else c.ring := rfl
@[simp] theorem CoreRun.emit_written (mode : CoreMode) (a : Nat) (x : Frame) (c : CoreRun) :
    (c.emit mode a x).written = c.written + 1 := rfl
@[simp] theorem CoreRun.emit_consumed (mode : CoreMode) (a : Nat) (x : Frame) (c : CoreRun) :
    (c.emit mode a x).consumed = c.consumed := rfl

/-! ### The adjusted step -/

theorem adjStep_pos (st speed : Nat) : 1 ≤ adjStep st speed := by
  simp only [adjStep]; exact Nat.le_max_right _ _

theorem adjStep_le (st speed : Nat) (h : 1 ≤ st) : adjStep st speed ≤ 2 * st := by
  simp only [adjStep, clamp]; omega

/-- What the emission loop of one frame keeps and reaches: the copy it does not touch, the ring's invariant,
the counts, and, when it ends unstopped with fuel enough, a phase of ONE or more and below ONE plus one step. -/
theorem emitLoop_spec {nMax : Nat} (mode : CoreMode) (a : Nat) (curr : Frame) (ha : 1 ≤ a) (fuel : Nat)
    (c : CoreRun) (e : CoreRun × Bool) (he : emitLoop mode a curr fuel c = e) (hr : c.ring.Wf nMax)
    (hfuel : ONE ≤ c.fp + fuel) :
    e.1.pv = c.pv ∧ e.1.hp = c.hp ∧ e.1.consumed = c.consumed ∧ e.1.ring.Wf nMax ∧
      c.written ≤ e.1.written ∧ e.1.written ≤ c.written + fuel ∧ c.fp ≤ e.1.fp ∧
      (mode = .dry → e.2 = true ∧ e.1.ring = c.ring) ∧
      (e.2 = true → ONE ≤ e.1.fp ∧ e.1.fp < max (c.fp + 1) (ONE + a)) ∧
      (e.2 = false → e.1.fp < ONE ∧ e.1.ring.full = true) := by
  induction fuel generalizing c with
  | zero =>
    subst he
    exact ⟨rfl, rfl, rfl, hr, le_refl _, le_refl _, le_refl _, fun _ => ⟨rfl, rfl⟩,
      fun _ => ⟨hfuel, Nat.lt_of_lt_of_le (Nat.lt_succ_self _) (Nat.le_max_left _ _)⟩, nofun⟩
  | succ k ih =>
    rw [emitLoop] at he
    split at he
    · rename_i hlt
      split at he
      · rename_i hfull
        subst he
        refine ⟨rfl, rfl, rfl, hr, le_refl _, Nat.le_add_right _ _, le_refl _, ?_, nofun, fun _ => ⟨hlt, hfull.2⟩⟩
        intro hm; rw [hm] at hfull; exact absurd hfull.1 (by decide)
      · rename_i hfull
        have hr' : (c.emit mode a curr).ring.Wf nMax := by
          simp only [CoreRun.emit]
          split
          · rename_i hm
            exact RingState.push_wf _ hr (by simpa [hm] using hfull)
          · exact hr
        have hfp : (c.emit mode a curr).fp = c.fp + a := rfl
        have hwr : (c.emit mode a curr).written = c.written + 1 := rfl
        obtain ⟨h1, h2, h3, h4, h5, h6, h7, h8, h9, h10⟩ := ih (c.emit mode a curr) he hr' (by omega)
        refine ⟨h1, h2, h3, h4, by omega, by omega, by omega, ?_, ?_, h10⟩
        · intro hm
          obtain ⟨hb, hc⟩ := h8 hm
          exact ⟨hb, by rw [hc]; simp [CoreRun.emit, hm]⟩
        · intro he
          obtain ⟨hb, hc⟩ := h9 he
          exact ⟨hb, by omega⟩
    · rename_i hge
      subst he
      exact ⟨rfl, rfl, rfl, hr, le_refl _, Nat.le_add_right _ _, le_refl _, fun _ => ⟨rfl, rfl⟩,
        fun _ => ⟨Nat.le_of_not_lt hge, Nat.lt_of_lt_of_le (Nat.lt_succ_self _) (Nat.le_max_left _ _)⟩, nofun⟩

/-- The core on one more frame once a previous frame exists. -/
theorem coreFrames_cons_hp (mode : CoreMode) (a : Nat) (x : Frame) (xs : List Frame) (c : CoreRun)
    (h : c.hp = true) :
    coreFrames mode a (x :: xs) c =
      if (emitLoop mode a x (ONE - c.fp) c).2 then
        coreFrames mode a xs ((emitLoop mode a x (ONE - c.fp) c).1.wrap x)
      else (emitLoop mode a x (ONE - c.fp) c).1 := by
  simp only [coreFrames, h, if_true]

/-- The core on the first frame of a stream. -/
theorem coreFrames_cons_boot (mode : CoreMode) (a : Nat) (x : Frame) (xs : List Frame) (c : CoreRun)
    (h : c.hp = false) : coreFrames mode a (x :: xs) c = coreFrames mode a xs (c.bootstrap x) := by
  simp only [coreFrames, h, Bool.false_eq_true, if_false]

/-- What a run of the core over input frames keeps: the ring's invariant, the phase bound of 10_state.md R40 for
any bound of at least ONE and the adjusted step, and the cleared fields while there is no previous frame. -/
theorem coreFrames_wf {nMax b : Nat} (mode : CoreMode) (a : Nat) (ha : 1 ≤ a) (hb1 : ONE ≤ b) (hb2 : a ≤ b)
    (xs : List Frame) (c : CoreRun) (hr : c.ring.Wf nMax) (hf : c.fp < b)
    (hp : c.hp = false → c.fp = 0 ∧ c.pv = Frame.zero) :
    (coreFrames mode a xs c).ring.Wf nMax ∧ (coreFrames mode a xs c).fp < b ∧
      ((coreFrames mode a xs c).hp = false →
        (coreFrames mode a xs c).fp = 0 ∧ (coreFrames mode a xs c).pv = Frame.zero) := by
  induction xs generalizing c with
  | nil => exact ⟨hr, hf, hp⟩
  | cons x xs ih =>
    cases hhp : c.hp with
    | true =>
      rw [coreFrames_cons_hp mode a x xs c hhp]
      have h := emitLoop_spec mode a x ha (ONE - c.fp) c _ rfl hr (by omega)
      generalize emitLoop mode a x (ONE - c.fp) c = e at h ⊢
      obtain ⟨_, h2, _, h4, _, _, _, _, h9, h10⟩ := h
      cases he : e.2 with
      | true =>
        obtain ⟨h91, h92⟩ := h9 he
        exact ih (e.1.wrap x) (by simpa using h4) (by rw [CoreRun.wrap_fp]; omega) (fun hh => by simp [h2, hhp] at hh)
      | false =>
        obtain ⟨h101, _⟩ := h10 he
        exact ⟨h4, Nat.lt_of_lt_of_le h101 hb1, fun hh => by simp [h2, hhp] at hh⟩
    | false =>
      rw [coreFrames_cons_boot mode a x xs c hhp]
      exact ih (c.bootstrap x) hr hf (fun hh => nomatch hh)

/-- The emission loop in numbers, whatever the ring: each frame written moves the phase by one adjusted step, and
with fuel enough the loop ends unstopped with a phase of ONE or more, or stopped on a full ring below it. -/
theorem emitLoop_counts (mode : CoreMode) (a : Nat) (x : Frame) (ha : 1 ≤ a) (fuel : Nat) (c : CoreRun)
    (e : CoreRun × Bool) (he : emitLoop mode a x fuel c = e) (hf : ONE ≤ c.fp + fuel) :
    e.1.pv = c.pv ∧ e.1.hp = c.hp ∧ e.1.consumed = c.consumed ∧ c.written ≤ e.1.written ∧
      e.1.written ≤ c.written + fuel ∧ e.1.fp = c.fp + a * (e.1.written - c.written) ∧
      (mode = .dry → e.2 = true ∧ e.1.ring = c.ring) ∧ (e.2 = true → ONE ≤ e.1.fp) ∧
      (e.2 = false → e.1.fp < ONE ∧ e.1.ring.full = true) := by
  induction fuel generalizing c with
  | zero =>
    subst he
    exact ⟨rfl, rfl, rfl, le_refl _, le_refl _, by simp [emitLoop], fun _ => ⟨rfl, rfl⟩, fun _ => hf, nofun⟩
  | succ k ih =>
    rw [emitLoop] at he
    split at he
    · rename_i hlt
      split at he
      · rename_i hh
        subst he
        refine ⟨rfl, rfl, rfl, le_refl _, Nat.le_add_right _ _, by simp, ?_, nofun, fun _ => ⟨hlt, hh.2⟩⟩
        intro hm; rw [hm] at hh; exact absurd hh.1 (by decide)
      · obtain ⟨h1, h2, h3, h4, h5, h6, h7, h8, h9⟩ := ih _ he (by rw [CoreRun.emit_fp]; omega)
        simp only [CoreRun.emit_pv, CoreRun.emit_hp, CoreRun.emit_consumed, CoreRun.emit_written, CoreRun.emit_fp,
          CoreRun.emit_ring] at *
        refine ⟨h1, h2, h3, by omega, by omega, ?_, ?_, h8, h9⟩
        · rw [h6]
          obtain ⟨m, hm⟩ : ∃ m, e.1.written = c.written + 1 + m := ⟨e.1.written - (c.written + 1), by omega⟩
          rw [hm, show c.written + 1 + m - (c.written + 1) = m by omega,
            show c.written + 1 + m - c.written = m + 1 by omega]
          ring
        · intro hm
          obtain ⟨p, q⟩ := h7 hm
          exact ⟨p, by rw [q]; simp [hm]⟩
    · rename_i hlt
      subst he
      exact ⟨rfl, rfl, rfl, le_refl _, Nat.le_add_right _ _, by simp, fun _ => ⟨rfl, rfl⟩,
        fun _ => Nat.le_of_not_lt hlt, nofun⟩

/-- The emission loop does not change the capacity. -/
theorem emitLoop_cap (mode : CoreMode) (a : Nat) (x : Frame) (fuel : Nat) (c : CoreRun) :
    (emitLoop mode a x fuel c).1.ring.cap = c.ring.cap := by
  induction fuel generalizing c with
  | zero => rfl
  | succ n ih =>
    rw [emitLoop]
    split
    · split
      · rfl
      · rw [ih, CoreRun.emit_ring]; split <;> rfl
    · rfl

/-- A run of the core does not change the capacity. -/
theorem coreFrames_cap (mode : CoreMode) (a : Nat) (xs : List Frame) (c : CoreRun) :
    (coreFrames mode a xs c).ring.cap = c.ring.cap := by
  induction xs generalizing c with
  | nil => rfl
  | cons x xs ih =>
    cases h : c.hp with
    | true =>
      rw [coreFrames_cons_hp _ _ _ _ _ h]
      have he := emitLoop_cap mode a x (ONE - c.fp) c
      generalize emitLoop mode a x (ONE - c.fp) c = e at he ⊢
      split
      · rw [ih, CoreRun.wrap_ring, he]
      · exact he
    | false => rw [coreFrames_cons_boot _ _ _ _ _ h, ih, CoreRun.bootstrap_ring]

/-! ### The input frames, the step and the sizing -/

theorem readFrames_length (m : Memory) (a n : Nat) : (readFrames m a n).length = n := by
  induction n generalizing a with
  | zero => rfl
  | succ n ih => simp [readFrames, ih]

theorem readFrames_add (m : Memory) (a n k : Nat) :
    readFrames m a (n + k) = readFrames m a n ++ readFrames m (a + 4 * n) k := by
  induction n generalizing a with
  | zero => simp [readFrames]
  | succ n ih =>
    rw [Nat.succ_add]
    simp only [readFrames, List.cons_append]
    rw [ih]
    congr 3
    omega

theorem stepOf_pos (i o : Int) : 1 ≤ stepOf i o := by
  unfold stepOf
  split
  · decide
  · split
    · decide
    · rename_i h; exact Nat.one_le_iff_ne_zero.mpr h

/-- A sizing that does not fail gives a capacity the ring's invariant admits. -/
theorem capacityOf_bounds {nMax : Nat} {i : Int} {drive bufsec n : Nat} (h : capacityOf nMax i drive bufsec = some n) :
    2 ≤ n ∧ n ≤ nMax := by
  unfold capacityOf at h
  split at h
  · cases h
  · simp only at h
    split at h
    · cases h
    · simp only [Option.some.injEq] at h; omega

theorem ringAfterSizing_wf (nMax : Nat) (i : Int) (drive bufsec : Nat) :
    (ringAfterSizing (capacityOf nMax i drive bufsec)).Wf nMax := by
  cases h : capacityOf nMax i drive bufsec with
  | none => exact RingState.absent_wf nMax
  | some n => exact RingState.sized_wf (capacityOf_bounds h).1 (capacityOf_bounds h).2

end Sys2Proof.Machine
end

