-- ==== Sys2Proof/Laws/Memory.lean ====
section
/-! SUPPORT. Host memory: a read after a write, a write leaves every other byte alone, and every memory
operation keeps the canonical form (20_memory.md R82 to R85). -/

namespace Sys2Proof.Machine

theorem memRead_memWrite_self (m : Memory) (a : Nat) (b : Byte) (h : Memory.wf m = true) :
    memRead (memWrite m a b) a = b := by
  suffices H : ∀ lo, Memory.wfFrom lo m = true → memRead (memWrite m a b) a = b from H 0 h
  clear h
  induction m with
  | nil => intro _ _; by_cases hb : b = 0#8 <;> simp [memWrite, memRead, hb]
  | cons e m ih =>
    obtain ⟨k, c⟩ := e
    intro lo h
    simp only [Memory.wfFrom, Bool.and_eq_true, decide_eq_true_eq] at h
    obtain ⟨⟨⟨_, _⟩, _⟩, hm⟩ := h
    have absent : ∀ (m : Memory) (lo : Nat), Memory.wfFrom lo m = true → ∀ a, a < lo → memRead m a = 0#8 := by
      intro m
      induction m with
      | nil => intros; rfl
      | cons e m ih =>
        intro lo h a ha
        simp only [Memory.wfFrom, Bool.and_eq_true, decide_eq_true_eq] at h
        obtain ⟨⟨⟨h1, _⟩, _⟩, hm⟩ := h
        rw [memRead, if_neg (by omega)]
        exact ih _ hm a (by omega)
    unfold memWrite
    by_cases h1 : a < k
    · rw [if_pos h1]
      by_cases hb : b = 0#8
      · rw [if_pos hb, memRead, if_neg (by omega), hb]
        exact absent m _ hm a (by omega)
      · rw [if_neg hb, memRead, if_pos rfl]
    · rw [if_neg h1]
      by_cases h2 : a = k
      · rw [if_pos h2]
        by_cases hb : b = 0#8
        · rw [if_pos hb, hb]; exact absent m _ hm a (by omega)
        · rw [if_neg hb, memRead, if_pos rfl]
      · rw [if_neg h2, memRead, if_neg (by omega)]
        exact ih _ hm

theorem memRead_memWrite_other (m : Memory) (a a' : Nat) (b : Byte) (h : a' ≠ a) :
    memRead (memWrite m a b) a' = memRead m a' := by
  induction m with
  | nil => by_cases hb : b = 0#8 <;> simp [memWrite, memRead, hb, h.symm]
  | cons e m ih =>
    obtain ⟨k, c⟩ := e
    unfold memWrite
    split
    · split
      · rfl
      · simp [memRead, h.symm]
    · split
      · split
        · rename_i hk _; subst hk; simp [memRead, h.symm]
        · rename_i hk _; subst hk; simp [memRead, h.symm]
      · simp [memRead, ih]

theorem Memory.wfFrom_weaken (m : Memory) (lo lo' : Nat) (h : Memory.wfFrom lo m = true) (hl : lo' ≤ lo) :
    Memory.wfFrom lo' m = true := by
  cases m with
  | nil => rfl
  | cons e m =>
    obtain ⟨k, c⟩ := e
    simp only [Memory.wfFrom, Bool.and_eq_true, decide_eq_true_eq] at h ⊢
    obtain ⟨⟨⟨h1, h2⟩, h3⟩, h4⟩ := h
    exact ⟨⟨⟨by omega, h2⟩, h3⟩, h4⟩

theorem Memory.wfFrom_memWrite (m : Memory) (a lo : Nat) (b : Byte) (h : Memory.wfFrom lo m = true) (hl : lo ≤ a)
    (ha : a < 2 ^ 32) : Memory.wfFrom lo (memWrite m a b) = true := by
  induction m generalizing lo with
  | nil => by_cases hb : b = 0#8 <;> simp [memWrite, Memory.wfFrom, hb, hl]; exact ha
  | cons e m ih =>
    obtain ⟨k, c⟩ := e
    simp only [Memory.wfFrom, Bool.and_eq_true, decide_eq_true_eq] at h
    obtain ⟨⟨⟨h1, h2⟩, h3⟩, h4⟩ := h
    unfold memWrite
    split
    · split
      · simp only [Memory.wfFrom, Bool.and_eq_true, decide_eq_true_eq]; exact ⟨⟨⟨h1, h2⟩, h3⟩, h4⟩
      · rename_i hak hb
        simp only [Memory.wfFrom, Bool.and_eq_true, decide_eq_true_eq]
        exact ⟨⟨⟨hl, ha⟩, by simpa using hb⟩, ⟨⟨by omega, h2⟩, h3⟩, h4⟩
    · split
      · split
        · exact Memory.wfFrom_weaken _ _ _ h4 (by omega)
        · rename_i hb
          simp only [Memory.wfFrom, Bool.and_eq_true, decide_eq_true_eq]
          rename_i hak
          subst hak
          exact ⟨⟨⟨hl, ha⟩, by simpa using hb⟩, h4⟩
      · simp only [Memory.wfFrom, Bool.and_eq_true, decide_eq_true_eq]
        exact ⟨⟨⟨h1, h2⟩, h3⟩, ih _ h4 (by omega)⟩

/-- A byte write keeps the canonical form. -/
theorem Memory.wf_memWrite (m : Memory) (a : Nat) (b : Byte) (h : Memory.wf m = true) (ha : a < 2 ^ 32) :
    Memory.wf (memWrite m a b) = true :=
  Memory.wfFrom_memWrite m a 0 b h (Nat.zero_le _) ha

/-- A frame write keeps the canonical form. -/
theorem Memory.wf_memWrite32 (m : Memory) (a : Nat) (v : Word) (h : Memory.wf m = true) (ha : a + 4 ≤ 2 ^ 32) :
    Memory.wf (memWrite32 m a v) = true := by
  unfold memWrite32
  exact wf_memWrite _ _ _ (wf_memWrite _ _ _ (wf_memWrite _ _ _ (wf_memWrite _ _ _ h (by omega)) (by omega))
    (by omega)) (by omega)

/-- A frame write leaves every byte outside its four alone. -/
theorem memRead_memWrite32_other (m : Memory) (a a' : Nat) (v : Word) (h : a' < a ∨ a + 4 ≤ a') :
    memRead (memWrite32 m a v) a' = memRead m a' := by
  unfold memWrite32
  rw [memRead_memWrite_other _ _ _ _ (by omega), memRead_memWrite_other _ _ _ _ (by omega),
    memRead_memWrite_other _ _ _ _ (by omega), memRead_memWrite_other _ _ _ _ (by omega)]

/-- One output frame of ENG.PULL writes its four bytes and no other. -/
theorem PullRun.frame_mem (a : Nat) (q : PullRun) : ∃ f : Frame, (q.frame a).mem = memWrite32 q.mem a (pack f) := by
  unfold PullRun.frame
  split
  · exact ⟨_, rfl⟩
  · exact ⟨_, rfl⟩

/-- ENG.PULL's loop keeps the canonical form of host memory. -/
theorem pullLoop_mem_wf (n a : Nat) (q : PullRun) (h : Memory.wf q.mem = true) (ha : a + 4 * n ≤ 2 ^ 32) :
    Memory.wf (pullLoop n a q).mem = true := by
  induction n generalizing a q with
  | zero => exact h
  | succ k ih =>
    obtain ⟨f, hf⟩ := q.frame_mem a
    exact ih (a + 4) (q.frame a) (by rw [hf]; exact Memory.wf_memWrite32 _ _ _ h (by omega)) (by omega)

/-- ENG.PULL's loop leaves every byte outside [a, a + 4·n) alone. -/
theorem pullLoop_mem_other (n a a' : Nat) (q : PullRun) (h : a' < a ∨ a + 4 * n ≤ a') :
    memRead (pullLoop n a q).mem a' = memRead q.mem a' := by
  induction n generalizing a q with
  | zero => rfl
  | succ k ih =>
    obtain ⟨f, hf⟩ := q.frame_mem a
    have := ih (a + 4) (q.frame a) (by omega)
    rw [pullLoop, this, hf, memRead_memWrite32_other _ _ _ _ (by omega)]

/-- The host's own byte write keeps the canonical form. -/
theorem hostStore_mem_wf (a : Word) (b : Byte) (s : State) (h : Memory.wf s.env.mem = true) :
    Memory.wf (hostStore a b s).env.mem = true :=
  Memory.wf_memWrite _ _ _ h a.isLt

/-- Host memory at reset has the canonical form. -/
theorem reset_mem_wf : Memory.wf State.reset.env.mem = true := rfl

end Sys2Proof.Machine
end

