-- ==== Sys2Proof/Laws/PerInstr.lean ====
section
/-! SUPPORT. The statements made once per command: the lemma families named in LAWS.json. -/

namespace Sys2Proof.Laws

/-- A command is well formed, its word is not illegal (30_encoding.md R128), its reserved bits are 0 (R122), its
operands fit the ARG registers of its port (R125), and its port is the consumer's exactly for RB.READ and
ENG.PULL (60_exceptions.md R303). -/
def EncodedWord.Statement (i : Instr) : Prop :=
  i.wellFormed = true ∧ commandWordWellFormed (encode i) = true ∧ (encode i).toNat < 2 ^ 8 ∧
    operandCount i ≤ (match portOf i with | .producer => 4 | .consumer => 2) ∧
    (portOf i = .consumer ↔ (i = .rbRead ∨ i = .engPull))

theorem EncodedWord.rsInit : EncodedWord.Statement .rsInit := by
  unfold EncodedWord.Statement; decide

theorem EncodedWord.rsResample : EncodedWord.Statement .rsResample := by
  unfold EncodedWord.Statement; decide

theorem EncodedWord.rsResampleDry : EncodedWord.Statement .rsResampleDry := by
  unfold EncodedWord.Statement; decide

theorem EncodedWord.rsEstimate : EncodedWord.Statement .rsEstimate := by
  unfold EncodedWord.Statement; decide

theorem EncodedWord.rsIsNeeded : EncodedWord.Statement .rsIsNeeded := by
  unfold EncodedWord.Statement; decide

theorem EncodedWord.rsReset : EncodedWord.Statement .rsReset := by
  unfold EncodedWord.Statement; decide

theorem EncodedWord.rbWrite : EncodedWord.Statement .rbWrite := by
  unfold EncodedWord.Statement; decide

theorem EncodedWord.rbRead : EncodedWord.Statement .rbRead := by
  unfold EncodedWord.Statement; decide

theorem EncodedWord.rbFill : EncodedWord.Statement .rbFill := by
  unfold EncodedWord.Statement; decide

theorem EncodedWord.rcAdjust : EncodedWord.Statement .rcAdjust := by
  unfold EncodedWord.Statement; decide

theorem EncodedWord.engInit : EncodedWord.Statement .engInit := by
  unfold EncodedWord.Statement; decide

theorem EncodedWord.engResize : EncodedWord.Statement .engResize := by
  unfold EncodedWord.Statement; decide

theorem EncodedWord.engIngest : EncodedWord.Statement .engIngest := by
  unfold EncodedWord.Statement; decide

theorem EncodedWord.engPull : EncodedWord.Statement .engPull := by
  unfold EncodedWord.Statement; decide

theorem EncodedWord.engOccupancy : EncodedWord.Statement .engOccupancy := by
  unfold EncodedWord.Statement; decide

theorem EncodedWord.engReset : EncodedWord.Statement .engReset := by
  unfold EncodedWord.Statement; decide

theorem EncodedWord.engQuit : EncodedWord.Statement .engQuit := by
  unfold EncodedWord.Statement; decide

end Sys2Proof.Laws
end

