-- ==== Sys2Proof/Laws/State.lean ====
section
/-! SUPPORT. One lemma per field per named update of the state, so that no later proof unfolds an update. -/

namespace Sys2Proof.Machine

/-! ### `withCode` -/

@[simp] theorem State.withCode_estate (p : Port) (c : Code) (s : State) : (s.withCode p c).estate = s.estate := by cases p <;> rfl
@[simp] theorem State.withCode_consEn (p : Port) (c : Code) (s : State) : (s.withCode p c).consEn = s.consEn := by cases p <;> rfl
@[simp] theorem State.withCode_rs (p : Port) (c : Code) (s : State) : (s.withCode p c).rs = s.rs := by cases p <;> rfl
@[simp] theorem State.withCode_ring (p : Port) (c : Code) (s : State) : (s.withCode p c).ring = s.ring := by cases p <;> rfl
@[simp] theorem State.withCode_lastRead (p : Port) (c : Code) (s : State) : (s.withCode p c).lastRead = s.lastRead := by cases p <;> rfl
@[simp] theorem State.withCode_hasLast (p : Port) (c : Code) (s : State) : (s.withCode p c).hasLast = s.hasLast := by cases p <;> rfl
@[simp] theorem State.withCode_iphase (p : Port) (c : Code) (s : State) : (s.withCode p c).iphase = s.iphase := by cases p <;> rfl
@[simp] theorem State.withCode_lock (p : Port) (c : Code) (s : State) : (s.withCode p c).lock = s.lock := by cases p <;> rfl
@[simp] theorem State.withCode_fault (p : Port) (c : Code) (s : State) : (s.withCode p c).fault = s.fault := by cases p <;> rfl
@[simp] theorem State.withCode_fcause (p : Port) (c : Code) (s : State) : (s.withCode p c).fcause = s.fcause := by cases p <;> rfl
@[simp] theorem State.withCode_finfo (p : Port) (c : Code) (s : State) : (s.withCode p c).finfo = s.finfo := by cases p <;> rfl
@[simp] theorem State.withCode_pStuck (p : Port) (c : Code) (s : State) : (s.withCode p c).pStuck = s.pStuck := by cases p <;> rfl
@[simp] theorem State.withCode_cStuck (p : Port) (c : Code) (s : State) : (s.withCode p c).cStuck = s.cStuck := by cases p <;> rfl
@[simp] theorem State.withCode_env (p : Port) (c : Code) (s : State) : (s.withCode p c).env = s.env := by cases p <;> rfl
@[simp] theorem State.withCode_producer_pport (c : Code) (s : State) :
    (s.withCode .producer c).pport = { s.pport with code := c } := rfl
@[simp] theorem State.withCode_producer_cport (c : Code) (s : State) : (s.withCode .producer c).cport = s.cport := rfl
@[simp] theorem State.withCode_consumer_cport (c : Code) (s : State) :
    (s.withCode .consumer c).cport = { s.cport with code := c } := rfl
@[simp] theorem State.withCode_consumer_pport (c : Code) (s : State) : (s.withCode .consumer c).pport = s.pport := rfl

/-! ### `withPRes0`, `withPRes`, `withCRes` -/

@[simp] theorem State.withPRes0_estate (a : Word) (s : State) : (s.withPRes0 a).estate = s.estate := rfl
@[simp] theorem State.withPRes0_consEn (a : Word) (s : State) : (s.withPRes0 a).consEn = s.consEn := rfl
@[simp] theorem State.withPRes0_rs (a : Word) (s : State) : (s.withPRes0 a).rs = s.rs := rfl
@[simp] theorem State.withPRes0_ring (a : Word) (s : State) : (s.withPRes0 a).ring = s.ring := rfl
@[simp] theorem State.withPRes0_lastRead (a : Word) (s : State) : (s.withPRes0 a).lastRead = s.lastRead := rfl
@[simp] theorem State.withPRes0_hasLast (a : Word) (s : State) : (s.withPRes0 a).hasLast = s.hasLast := rfl
@[simp] theorem State.withPRes0_iphase (a : Word) (s : State) : (s.withPRes0 a).iphase = s.iphase := rfl
@[simp] theorem State.withPRes0_lock (a : Word) (s : State) : (s.withPRes0 a).lock = s.lock := rfl
@[simp] theorem State.withPRes0_fault (a : Word) (s : State) : (s.withPRes0 a).fault = s.fault := rfl
@[simp] theorem State.withPRes0_fcause (a : Word) (s : State) : (s.withPRes0 a).fcause = s.fcause := rfl
@[simp] theorem State.withPRes0_finfo (a : Word) (s : State) : (s.withPRes0 a).finfo = s.finfo := rfl
@[simp] theorem State.withPRes0_pport (a : Word) (s : State) : (s.withPRes0 a).pport = { s.pport with res0 := a } := rfl
@[simp] theorem State.withPRes0_cport (a : Word) (s : State) : (s.withPRes0 a).cport = s.cport := rfl
@[simp] theorem State.withPRes0_pStuck (a : Word) (s : State) : (s.withPRes0 a).pStuck = s.pStuck := rfl
@[simp] theorem State.withPRes0_cStuck (a : Word) (s : State) : (s.withPRes0 a).cStuck = s.cStuck := rfl
@[simp] theorem State.withPRes0_env (a : Word) (s : State) : (s.withPRes0 a).env = s.env := rfl

@[simp] theorem State.withPRes_estate (a b : Word) (s : State) : (s.withPRes a b).estate = s.estate := rfl
@[simp] theorem State.withPRes_consEn (a b : Word) (s : State) : (s.withPRes a b).consEn = s.consEn := rfl
@[simp] theorem State.withPRes_rs (a b : Word) (s : State) : (s.withPRes a b).rs = s.rs := rfl
@[simp] theorem State.withPRes_ring (a b : Word) (s : State) : (s.withPRes a b).ring = s.ring := rfl
@[simp] theorem State.withPRes_lastRead (a b : Word) (s : State) : (s.withPRes a b).lastRead = s.lastRead := rfl
@[simp] theorem State.withPRes_hasLast (a b : Word) (s : State) : (s.withPRes a b).hasLast = s.hasLast := rfl
@[simp] theorem State.withPRes_iphase (a b : Word) (s : State) : (s.withPRes a b).iphase = s.iphase := rfl
@[simp] theorem State.withPRes_lock (a b : Word) (s : State) : (s.withPRes a b).lock = s.lock := rfl
@[simp] theorem State.withPRes_fault (a b : Word) (s : State) : (s.withPRes a b).fault = s.fault := rfl
@[simp] theorem State.withPRes_fcause (a b : Word) (s : State) : (s.withPRes a b).fcause = s.fcause := rfl
@[simp] theorem State.withPRes_finfo (a b : Word) (s : State) : (s.withPRes a b).finfo = s.finfo := rfl
@[simp] theorem State.withPRes_pport (a b : Word) (s : State) : (s.withPRes a b).pport = { s.pport with res0 := a, res1 := b } := rfl
@[simp] theorem State.withPRes_cport (a b : Word) (s : State) : (s.withPRes a b).cport = s.cport := rfl
@[simp] theorem State.withPRes_pStuck (a b : Word) (s : State) : (s.withPRes a b).pStuck = s.pStuck := rfl
@[simp] theorem State.withPRes_cStuck (a b : Word) (s : State) : (s.withPRes a b).cStuck = s.cStuck := rfl
@[simp] theorem State.withPRes_env (a b : Word) (s : State) : (s.withPRes a b).env = s.env := rfl

@[simp] theorem State.withCRes_estate (a b : Word) (s : State) : (s.withCRes a b).estate = s.estate := rfl
@[simp] theorem State.withCRes_consEn (a b : Word) (s : State) : (s.withCRes a b).consEn = s.consEn := rfl
@[simp] theorem State.withCRes_rs (a b : Word) (s : State) : (s.withCRes a b).rs = s.rs := rfl
@[simp] theorem State.withCRes_ring (a b : Word) (s : State) : (s.withCRes a b).ring = s.ring := rfl
@[simp] theorem State.withCRes_lastRead (a b : Word) (s : State) : (s.withCRes a b).lastRead = s.lastRead := rfl
@[simp] theorem State.withCRes_hasLast (a b : Word) (s : State) : (s.withCRes a b).hasLast = s.hasLast := rfl
@[simp] theorem State.withCRes_iphase (a b : Word) (s : State) : (s.withCRes a b).iphase = s.iphase := rfl
@[simp] theorem State.withCRes_lock (a b : Word) (s : State) : (s.withCRes a b).lock = s.lock := rfl
@[simp] theorem State.withCRes_fault (a b : Word) (s : State) : (s.withCRes a b).fault = s.fault := rfl
@[simp] theorem State.withCRes_fcause (a b : Word) (s : State) : (s.withCRes a b).fcause = s.fcause := rfl
@[simp] theorem State.withCRes_finfo (a b : Word) (s : State) : (s.withCRes a b).finfo = s.finfo := rfl
@[simp] theorem State.withCRes_pport (a b : Word) (s : State) : (s.withCRes a b).pport = s.pport := rfl
@[simp] theorem State.withCRes_cport (a b : Word) (s : State) : (s.withCRes a b).cport = { s.cport with res0 := a, res1 := b } := rfl
@[simp] theorem State.withCRes_pStuck (a b : Word) (s : State) : (s.withCRes a b).pStuck = s.pStuck := rfl
@[simp] theorem State.withCRes_cStuck (a b : Word) (s : State) : (s.withCRes a b).cStuck = s.cStuck := rfl
@[simp] theorem State.withCRes_env (a b : Word) (s : State) : (s.withCRes a b).env = s.env := rfl

/-! ### `withRs`, `withRing`, `commitCore` -/

@[simp] theorem State.withRs_estate (x : ResamplerState) (s : State) : (s.withRs x).estate = s.estate := rfl
@[simp] theorem State.withRs_consEn (x : ResamplerState) (s : State) : (s.withRs x).consEn = s.consEn := rfl
@[simp] theorem State.withRs_rs (x : ResamplerState) (s : State) : (s.withRs x).rs = x := rfl
@[simp] theorem State.withRs_ring (x : ResamplerState) (s : State) : (s.withRs x).ring = s.ring := rfl
@[simp] theorem State.withRs_lastRead (x : ResamplerState) (s : State) : (s.withRs x).lastRead = s.lastRead := rfl
@[simp] theorem State.withRs_hasLast (x : ResamplerState) (s : State) : (s.withRs x).hasLast = s.hasLast := rfl
@[simp] theorem State.withRs_iphase (x : ResamplerState) (s : State) : (s.withRs x).iphase = s.iphase := rfl
@[simp] theorem State.withRs_lock (x : ResamplerState) (s : State) : (s.withRs x).lock = s.lock := rfl
@[simp] theorem State.withRs_fault (x : ResamplerState) (s : State) : (s.withRs x).fault = s.fault := rfl
@[simp] theorem State.withRs_fcause (x : ResamplerState) (s : State) : (s.withRs x).fcause = s.fcause := rfl
@[simp] theorem State.withRs_finfo (x : ResamplerState) (s : State) : (s.withRs x).finfo = s.finfo := rfl
@[simp] theorem State.withRs_pport (x : ResamplerState) (s : State) : (s.withRs x).pport = s.pport := rfl
@[simp] theorem State.withRs_cport (x : ResamplerState) (s : State) : (s.withRs x).cport = s.cport := rfl
@[simp] theorem State.withRs_pStuck (x : ResamplerState) (s : State) : (s.withRs x).pStuck = s.pStuck := rfl
@[simp] theorem State.withRs_cStuck (x : ResamplerState) (s : State) : (s.withRs x).cStuck = s.cStuck := rfl
@[simp] theorem State.withRs_env (x : ResamplerState) (s : State) : (s.withRs x).env = s.env := rfl

@[simp] theorem State.withRing_estate (g : RingState) (s : State) : (s.withRing g).estate = s.estate := rfl
@[simp] theorem State.withRing_consEn (g : RingState) (s : State) : (s.withRing g).consEn = s.consEn := rfl
@[simp] theorem State.withRing_rs (g : RingState) (s : State) : (s.withRing g).rs = s.rs := rfl
@[simp] theorem State.withRing_ring (g : RingState) (s : State) : (s.withRing g).ring = g := rfl
@[simp] theorem State.withRing_lastRead (g : RingState) (s : State) : (s.withRing g).lastRead = s.lastRead := rfl
@[simp] theorem State.withRing_hasLast (g : RingState) (s : State) : (s.withRing g).hasLast = s.hasLast := rfl
@[simp] theorem State.withRing_iphase (g : RingState) (s : State) : (s.withRing g).iphase = s.iphase := rfl
@[simp] theorem State.withRing_lock (g : RingState) (s : State) : (s.withRing g).lock = s.lock := rfl
@[simp] theorem State.withRing_fault (g : RingState) (s : State) : (s.withRing g).fault = s.fault := rfl
@[simp] theorem State.withRing_fcause (g : RingState) (s : State) : (s.withRing g).fcause = s.fcause := rfl
@[simp] theorem State.withRing_finfo (g : RingState) (s : State) : (s.withRing g).finfo = s.finfo := rfl
@[simp] theorem State.withRing_pport (g : RingState) (s : State) : (s.withRing g).pport = s.pport := rfl
@[simp] theorem State.withRing_cport (g : RingState) (s : State) : (s.withRing g).cport = s.cport := rfl
@[simp] theorem State.withRing_pStuck (g : RingState) (s : State) : (s.withRing g).pStuck = s.pStuck := rfl
@[simp] theorem State.withRing_cStuck (g : RingState) (s : State) : (s.withRing g).cStuck = s.cStuck := rfl
@[simp] theorem State.withRing_env (g : RingState) (s : State) : (s.withRing g).env = s.env := rfl

@[simp] theorem State.commitCore_estate (c : CoreRun) (s : State) : (s.commitCore c).estate = s.estate := rfl
@[simp] theorem State.commitCore_consEn (c : CoreRun) (s : State) : (s.commitCore c).consEn = s.consEn := rfl
@[simp] theorem State.commitCore_rs (c : CoreRun) (s : State) : (s.commitCore c).rs = { s.rs with fracPos := c.fp, prev := c.pv, hasPrev := c.hp } := rfl
@[simp] theorem State.commitCore_ring (c : CoreRun) (s : State) : (s.commitCore c).ring = c.ring := rfl
@[simp] theorem State.commitCore_lastRead (c : CoreRun) (s : State) : (s.commitCore c).lastRead = s.lastRead := rfl
@[simp] theorem State.commitCore_hasLast (c : CoreRun) (s : State) : (s.commitCore c).hasLast = s.hasLast := rfl
@[simp] theorem State.commitCore_iphase (c : CoreRun) (s : State) : (s.commitCore c).iphase = s.iphase := rfl
@[simp] theorem State.commitCore_lock (c : CoreRun) (s : State) : (s.commitCore c).lock = s.lock := rfl
@[simp] theorem State.commitCore_fault (c : CoreRun) (s : State) : (s.commitCore c).fault = s.fault := rfl
@[simp] theorem State.commitCore_fcause (c : CoreRun) (s : State) : (s.commitCore c).fcause = s.fcause := rfl
@[simp] theorem State.commitCore_finfo (c : CoreRun) (s : State) : (s.commitCore c).finfo = s.finfo := rfl
@[simp] theorem State.commitCore_pport (c : CoreRun) (s : State) : (s.commitCore c).pport = s.pport := rfl
@[simp] theorem State.commitCore_cport (c : CoreRun) (s : State) : (s.commitCore c).cport = s.cport := rfl
@[simp] theorem State.commitCore_pStuck (c : CoreRun) (s : State) : (s.commitCore c).pStuck = s.pStuck := rfl
@[simp] theorem State.commitCore_cStuck (c : CoreRun) (s : State) : (s.commitCore c).cStuck = s.cStuck := rfl
@[simp] theorem State.commitCore_env (c : CoreRun) (s : State) : (s.commitCore c).env = s.env := rfl

/-! ### `raiseFault` -/

@[simp] theorem raiseFault_estate (c : FaultCause) (v : Word) (s : State) : (raiseFault c v s).estate = s.estate := by
  unfold raiseFault; split <;> rfl
@[simp] theorem raiseFault_consEn (c : FaultCause) (v : Word) (s : State) : (raiseFault c v s).consEn = s.consEn := by
  unfold raiseFault; split <;> rfl
@[simp] theorem raiseFault_rs (c : FaultCause) (v : Word) (s : State) : (raiseFault c v s).rs = s.rs := by
  unfold raiseFault; split <;> rfl
@[simp] theorem raiseFault_ring (c : FaultCause) (v : Word) (s : State) : (raiseFault c v s).ring = s.ring := by
  unfold raiseFault; split <;> rfl
@[simp] theorem raiseFault_lastRead (c : FaultCause) (v : Word) (s : State) : (raiseFault c v s).lastRead = s.lastRead := by
  unfold raiseFault; split <;> rfl
@[simp] theorem raiseFault_hasLast (c : FaultCause) (v : Word) (s : State) : (raiseFault c v s).hasLast = s.hasLast := by
  unfold raiseFault; split <;> rfl
@[simp] theorem raiseFault_iphase (c : FaultCause) (v : Word) (s : State) : (raiseFault c v s).iphase = s.iphase := by
  unfold raiseFault; split <;> rfl
@[simp] theorem raiseFault_lock (c : FaultCause) (v : Word) (s : State) : (raiseFault c v s).lock = s.lock := by
  unfold raiseFault; split <;> rfl
@[simp] theorem raiseFault_fault (c : FaultCause) (v : Word) (s : State) : (raiseFault c v s).fault = true := by
  unfold raiseFault; split <;> simp_all
@[simp] theorem raiseFault_fcause (c : FaultCause) (v : Word) (s : State) :
    (raiseFault c v s).fcause = if s.fault then s.fcause else c := by
  unfold raiseFault; split <;> rfl
@[simp] theorem raiseFault_finfo (c : FaultCause) (v : Word) (s : State) :
    (raiseFault c v s).finfo = if s.fault then s.finfo else v := by
  unfold raiseFault; split <;> rfl
@[simp] theorem raiseFault_pport (c : FaultCause) (v : Word) (s : State) : (raiseFault c v s).pport = s.pport := by
  unfold raiseFault; split <;> rfl
@[simp] theorem raiseFault_cport (c : FaultCause) (v : Word) (s : State) : (raiseFault c v s).cport = s.cport := by
  unfold raiseFault; split <;> rfl
@[simp] theorem raiseFault_pStuck (c : FaultCause) (v : Word) (s : State) : (raiseFault c v s).pStuck = s.pStuck := by
  unfold raiseFault; split <;> rfl
@[simp] theorem raiseFault_cStuck (c : FaultCause) (v : Word) (s : State) : (raiseFault c v s).cStuck = s.cStuck := by
  unfold raiseFault; split <;> rfl
@[simp] theorem raiseFault_env (c : FaultCause) (v : Word) (s : State) : (raiseFault c v s).env = s.env := by
  unfold raiseFault; split <;> rfl

/-! ### `powerOn` -/

@[simp] theorem powerOn_estate (s : State) : (powerOn s).estate = State.reset.estate := rfl
@[simp] theorem powerOn_consEn (s : State) : (powerOn s).consEn = State.reset.consEn := rfl
@[simp] theorem powerOn_rs (s : State) : (powerOn s).rs = State.reset.rs := rfl
@[simp] theorem powerOn_ring (s : State) : (powerOn s).ring = State.reset.ring := rfl
@[simp] theorem powerOn_lastRead (s : State) : (powerOn s).lastRead = State.reset.lastRead := rfl
@[simp] theorem powerOn_hasLast (s : State) : (powerOn s).hasLast = State.reset.hasLast := rfl
@[simp] theorem powerOn_iphase (s : State) : (powerOn s).iphase = State.reset.iphase := rfl
@[simp] theorem powerOn_lock (s : State) : (powerOn s).lock = State.reset.lock := rfl
@[simp] theorem powerOn_fault (s : State) : (powerOn s).fault = State.reset.fault := rfl
@[simp] theorem powerOn_fcause (s : State) : (powerOn s).fcause = State.reset.fcause := rfl
@[simp] theorem powerOn_finfo (s : State) : (powerOn s).finfo = State.reset.finfo := rfl
@[simp] theorem powerOn_pport (s : State) : (powerOn s).pport = State.reset.pport := rfl
@[simp] theorem powerOn_cport (s : State) : (powerOn s).cport = State.reset.cport := rfl
@[simp] theorem powerOn_pStuck (s : State) : (powerOn s).pStuck = State.reset.pStuck := rfl
@[simp] theorem powerOn_cStuck (s : State) : (powerOn s).cStuck = State.reset.cStuck := rfl
@[simp] theorem powerOn_env (s : State) : (powerOn s).env = s.env := rfl

/-! ### `stall` -/

@[simp] theorem State.stall_estate (p : Port) (s : State) : (s.stall p).estate = s.estate := by cases p <;> rfl
@[simp] theorem State.stall_consEn (p : Port) (s : State) : (s.stall p).consEn = s.consEn := by cases p <;> rfl
@[simp] theorem State.stall_rs (p : Port) (s : State) : (s.stall p).rs = s.rs := by cases p <;> rfl
@[simp] theorem State.stall_ring (p : Port) (s : State) : (s.stall p).ring = s.ring := by cases p <;> rfl
@[simp] theorem State.stall_lastRead (p : Port) (s : State) : (s.stall p).lastRead = s.lastRead := by cases p <;> rfl
@[simp] theorem State.stall_hasLast (p : Port) (s : State) : (s.stall p).hasLast = s.hasLast := by cases p <;> rfl
@[simp] theorem State.stall_iphase (p : Port) (s : State) : (s.stall p).iphase = s.iphase := by cases p <;> rfl
@[simp] theorem State.stall_lock (p : Port) (s : State) : (s.stall p).lock = s.lock := by cases p <;> rfl
@[simp] theorem State.stall_fault (p : Port) (s : State) : (s.stall p).fault = s.fault := by cases p <;> rfl
@[simp] theorem State.stall_fcause (p : Port) (s : State) : (s.stall p).fcause = s.fcause := by cases p <;> rfl
@[simp] theorem State.stall_finfo (p : Port) (s : State) : (s.stall p).finfo = s.finfo := by cases p <;> rfl
@[simp] theorem State.stall_pport (p : Port) (s : State) : (s.stall p).pport = s.pport := by cases p <;> rfl
@[simp] theorem State.stall_cport (p : Port) (s : State) : (s.stall p).cport = s.cport := by cases p <;> rfl
@[simp] theorem State.stall_env (p : Port) (s : State) : (s.stall p).env = s.env := by cases p <;> rfl
@[simp] theorem State.stall_producer_pStuck (s : State) : (s.stall .producer).pStuck = true := rfl
@[simp] theorem State.stall_producer_cStuck (s : State) : (s.stall .producer).cStuck = s.cStuck := rfl
@[simp] theorem State.stall_consumer_cStuck (s : State) : (s.stall .consumer).cStuck = true := rfl
@[simp] theorem State.stall_consumer_pStuck (s : State) : (s.stall .consumer).pStuck = s.pStuck := rfl

/-! ### `acquire`, `release` -/

@[simp] theorem State.acquire_estate (p : Port) (s : State) : (s.acquire p).estate = s.estate := rfl
@[simp] theorem State.acquire_consEn (p : Port) (s : State) : (s.acquire p).consEn = s.consEn := rfl
@[simp] theorem State.acquire_rs (p : Port) (s : State) : (s.acquire p).rs = s.rs := rfl
@[simp] theorem State.acquire_ring (p : Port) (s : State) : (s.acquire p).ring = s.ring := rfl
@[simp] theorem State.acquire_lastRead (p : Port) (s : State) : (s.acquire p).lastRead = s.lastRead := rfl
@[simp] theorem State.acquire_hasLast (p : Port) (s : State) : (s.acquire p).hasLast = s.hasLast := rfl
@[simp] theorem State.acquire_iphase (p : Port) (s : State) : (s.acquire p).iphase = s.iphase := rfl
@[simp] theorem State.acquire_lock (p : Port) (s : State) : (s.acquire p).lock = .heldBy p := rfl
@[simp] theorem State.acquire_fault (p : Port) (s : State) : (s.acquire p).fault = s.fault := rfl
@[simp] theorem State.acquire_fcause (p : Port) (s : State) : (s.acquire p).fcause = s.fcause := rfl
@[simp] theorem State.acquire_finfo (p : Port) (s : State) : (s.acquire p).finfo = s.finfo := rfl
@[simp] theorem State.acquire_pport (p : Port) (s : State) : (s.acquire p).pport = s.pport := rfl
@[simp] theorem State.acquire_cport (p : Port) (s : State) : (s.acquire p).cport = s.cport := rfl
@[simp] theorem State.acquire_pStuck (p : Port) (s : State) : (s.acquire p).pStuck = s.pStuck := rfl
@[simp] theorem State.acquire_cStuck (p : Port) (s : State) : (s.acquire p).cStuck = s.cStuck := rfl
@[simp] theorem State.acquire_env (p : Port) (s : State) : (s.acquire p).env = s.env := rfl

@[simp] theorem State.release_estate (s : State) : (s.release).estate = s.estate := rfl
@[simp] theorem State.release_consEn (s : State) : (s.release).consEn = s.consEn := rfl
@[simp] theorem State.release_rs (s : State) : (s.release).rs = s.rs := rfl
@[simp] theorem State.release_ring (s : State) : (s.release).ring = s.ring := rfl
@[simp] theorem State.release_lastRead (s : State) : (s.release).lastRead = s.lastRead := rfl
@[simp] theorem State.release_hasLast (s : State) : (s.release).hasLast = s.hasLast := rfl
@[simp] theorem State.release_iphase (s : State) : (s.release).iphase = s.iphase := rfl
@[simp] theorem State.release_lock (s : State) : (s.release).lock = .free := rfl
@[simp] theorem State.release_fault (s : State) : (s.release).fault = s.fault := rfl
@[simp] theorem State.release_fcause (s : State) : (s.release).fcause = s.fcause := rfl
@[simp] theorem State.release_finfo (s : State) : (s.release).finfo = s.finfo := rfl
@[simp] theorem State.release_pport (s : State) : (s.release).pport = s.pport := rfl
@[simp] theorem State.release_cport (s : State) : (s.release).cport = s.cport := rfl
@[simp] theorem State.release_pStuck (s : State) : (s.release).pStuck = s.pStuck := rfl
@[simp] theorem State.release_cStuck (s : State) : (s.release).cStuck = s.cStuck := rfl
@[simp] theorem State.release_env (s : State) : (s.release).env = s.env := rfl

/-! ### `withScript`, `withMem`, `withBus` -/

@[simp] theorem State.withScript_estate (l : List Input) (s : State) : (s.withScript l).estate = s.estate := rfl
@[simp] theorem State.withScript_consEn (l : List Input) (s : State) : (s.withScript l).consEn = s.consEn := rfl
@[simp] theorem State.withScript_rs (l : List Input) (s : State) : (s.withScript l).rs = s.rs := rfl
@[simp] theorem State.withScript_ring (l : List Input) (s : State) : (s.withScript l).ring = s.ring := rfl
@[simp] theorem State.withScript_lastRead (l : List Input) (s : State) : (s.withScript l).lastRead = s.lastRead := rfl
@[simp] theorem State.withScript_hasLast (l : List Input) (s : State) : (s.withScript l).hasLast = s.hasLast := rfl
@[simp] theorem State.withScript_iphase (l : List Input) (s : State) : (s.withScript l).iphase = s.iphase := rfl
@[simp] theorem State.withScript_lock (l : List Input) (s : State) : (s.withScript l).lock = s.lock := rfl
@[simp] theorem State.withScript_fault (l : List Input) (s : State) : (s.withScript l).fault = s.fault := rfl
@[simp] theorem State.withScript_fcause (l : List Input) (s : State) : (s.withScript l).fcause = s.fcause := rfl
@[simp] theorem State.withScript_finfo (l : List Input) (s : State) : (s.withScript l).finfo = s.finfo := rfl
@[simp] theorem State.withScript_pport (l : List Input) (s : State) : (s.withScript l).pport = s.pport := rfl
@[simp] theorem State.withScript_cport (l : List Input) (s : State) : (s.withScript l).cport = s.cport := rfl
@[simp] theorem State.withScript_pStuck (l : List Input) (s : State) : (s.withScript l).pStuck = s.pStuck := rfl
@[simp] theorem State.withScript_cStuck (l : List Input) (s : State) : (s.withScript l).cStuck = s.cStuck := rfl
@[simp] theorem State.withScript_env (l : List Input) (s : State) : (s.withScript l).env = { s.env with script := l } := rfl

@[simp] theorem State.withMem_estate (m : Memory) (s : State) : (s.withMem m).estate = s.estate := rfl
@[simp] theorem State.withMem_consEn (m : Memory) (s : State) : (s.withMem m).consEn = s.consEn := rfl
@[simp] theorem State.withMem_rs (m : Memory) (s : State) : (s.withMem m).rs = s.rs := rfl
@[simp] theorem State.withMem_ring (m : Memory) (s : State) : (s.withMem m).ring = s.ring := rfl
@[simp] theorem State.withMem_lastRead (m : Memory) (s : State) : (s.withMem m).lastRead = s.lastRead := rfl
@[simp] theorem State.withMem_hasLast (m : Memory) (s : State) : (s.withMem m).hasLast = s.hasLast := rfl
@[simp] theorem State.withMem_iphase (m : Memory) (s : State) : (s.withMem m).iphase = s.iphase := rfl
@[simp] theorem State.withMem_lock (m : Memory) (s : State) : (s.withMem m).lock = s.lock := rfl
@[simp] theorem State.withMem_fault (m : Memory) (s : State) : (s.withMem m).fault = s.fault := rfl
@[simp] theorem State.withMem_fcause (m : Memory) (s : State) : (s.withMem m).fcause = s.fcause := rfl
@[simp] theorem State.withMem_finfo (m : Memory) (s : State) : (s.withMem m).finfo = s.finfo := rfl
@[simp] theorem State.withMem_pport (m : Memory) (s : State) : (s.withMem m).pport = s.pport := rfl
@[simp] theorem State.withMem_cport (m : Memory) (s : State) : (s.withMem m).cport = s.cport := rfl
@[simp] theorem State.withMem_pStuck (m : Memory) (s : State) : (s.withMem m).pStuck = s.pStuck := rfl
@[simp] theorem State.withMem_cStuck (m : Memory) (s : State) : (s.withMem m).cStuck = s.cStuck := rfl
@[simp] theorem State.withMem_env (m : Memory) (s : State) : (s.withMem m).env = { s.env with mem := m } := rfl

@[simp] theorem State.withBus_estate (p : Port) (v : Word) (s : State) : (s.withBus p v).estate = s.estate := by cases p <;> rfl
@[simp] theorem State.withBus_consEn (p : Port) (v : Word) (s : State) : (s.withBus p v).consEn = s.consEn := by cases p <;> rfl
@[simp] theorem State.withBus_rs (p : Port) (v : Word) (s : State) : (s.withBus p v).rs = s.rs := by cases p <;> rfl
@[simp] theorem State.withBus_ring (p : Port) (v : Word) (s : State) : (s.withBus p v).ring = s.ring := by cases p <;> rfl
@[simp] theorem State.withBus_lastRead (p : Port) (v : Word) (s : State) : (s.withBus p v).lastRead = s.lastRead := by cases p <;> rfl
@[simp] theorem State.withBus_hasLast (p : Port) (v : Word) (s : State) : (s.withBus p v).hasLast = s.hasLast := by cases p <;> rfl
@[simp] theorem State.withBus_iphase (p : Port) (v : Word) (s : State) : (s.withBus p v).iphase = s.iphase := by cases p <;> rfl
@[simp] theorem State.withBus_lock (p : Port) (v : Word) (s : State) : (s.withBus p v).lock = s.lock := by cases p <;> rfl
@[simp] theorem State.withBus_fault (p : Port) (v : Word) (s : State) : (s.withBus p v).fault = s.fault := by cases p <;> rfl
@[simp] theorem State.withBus_fcause (p : Port) (v : Word) (s : State) : (s.withBus p v).fcause = s.fcause := by cases p <;> rfl
@[simp] theorem State.withBus_finfo (p : Port) (v : Word) (s : State) : (s.withBus p v).finfo = s.finfo := by cases p <;> rfl
@[simp] theorem State.withBus_pport (p : Port) (v : Word) (s : State) : (s.withBus p v).pport = s.pport := by cases p <;> rfl
@[simp] theorem State.withBus_cport (p : Port) (v : Word) (s : State) : (s.withBus p v).cport = s.cport := by cases p <;> rfl
@[simp] theorem State.withBus_pStuck (p : Port) (v : Word) (s : State) : (s.withBus p v).pStuck = s.pStuck := by cases p <;> rfl
@[simp] theorem State.withBus_cStuck (p : Port) (v : Word) (s : State) : (s.withBus p v).cStuck = s.cStuck := by cases p <;> rfl
@[simp] theorem State.withBus_env_mem (p : Port) (v : Word) (s : State) : (s.withBus p v).env.mem = s.env.mem := by
  cases p <;> rfl
@[simp] theorem State.withBus_env_params (p : Port) (v : Word) (s : State) : (s.withBus p v).env.params = s.env.params := by
  cases p <;> rfl
@[simp] theorem State.withBus_env_grants (p : Port) (v : Word) (s : State) : (s.withBus p v).env.grants = s.env.grants := by
  cases p <;> rfl
@[simp] theorem State.withBus_env_draws (p : Port) (v : Word) (s : State) : (s.withBus p v).env.draws = s.env.draws := by
  cases p <;> rfl
@[simp] theorem State.withBus_env_script (p : Port) (v : Word) (s : State) : (s.withBus p v).env.script = s.env.script := by
  cases p <;> rfl

/-! ### `writeReg`: an ARG write changes its port's ARG registers and nothing else -/

@[simp] theorem writeReg_estate (p : Port) (off v : Word) (s : State) : (writeReg p off v s).estate = s.estate := by
  cases p
  · simp only [writeReg, writeProducer]; split <;> rfl
  · simp only [writeReg, writeConsumer]; split <;> rfl
@[simp] theorem writeReg_consEn (p : Port) (off v : Word) (s : State) : (writeReg p off v s).consEn = s.consEn := by
  cases p
  · simp only [writeReg, writeProducer]; split <;> rfl
  · simp only [writeReg, writeConsumer]; split <;> rfl
@[simp] theorem writeReg_rs (p : Port) (off v : Word) (s : State) : (writeReg p off v s).rs = s.rs := by
  cases p
  · simp only [writeReg, writeProducer]; split <;> rfl
  · simp only [writeReg, writeConsumer]; split <;> rfl
@[simp] theorem writeReg_ring (p : Port) (off v : Word) (s : State) : (writeReg p off v s).ring = s.ring := by
  cases p
  · simp only [writeReg, writeProducer]; split <;> rfl
  · simp only [writeReg, writeConsumer]; split <;> rfl
@[simp] theorem writeReg_lastRead (p : Port) (off v : Word) (s : State) : (writeReg p off v s).lastRead = s.lastRead := by
  cases p
  · simp only [writeReg, writeProducer]; split <;> rfl
  · simp only [writeReg, writeConsumer]; split <;> rfl
@[simp] theorem writeReg_hasLast (p : Port) (off v : Word) (s : State) : (writeReg p off v s).hasLast = s.hasLast := by
  cases p
  · simp only [writeReg, writeProducer]; split <;> rfl
  · simp only [writeReg, writeConsumer]; split <;> rfl
@[simp] theorem writeReg_iphase (p : Port) (off v : Word) (s : State) : (writeReg p off v s).iphase = s.iphase := by
  cases p
  · simp only [writeReg, writeProducer]; split <;> rfl
  · simp only [writeReg, writeConsumer]; split <;> rfl
@[simp] theorem writeReg_lock (p : Port) (off v : Word) (s : State) : (writeReg p off v s).lock = s.lock := by
  cases p
  · simp only [writeReg, writeProducer]; split <;> rfl
  · simp only [writeReg, writeConsumer]; split <;> rfl
@[simp] theorem writeReg_fault (p : Port) (off v : Word) (s : State) : (writeReg p off v s).fault = s.fault := by
  cases p
  · simp only [writeReg, writeProducer]; split <;> rfl
  · simp only [writeReg, writeConsumer]; split <;> rfl
@[simp] theorem writeReg_fcause (p : Port) (off v : Word) (s : State) : (writeReg p off v s).fcause = s.fcause := by
  cases p
  · simp only [writeReg, writeProducer]; split <;> rfl
  · simp only [writeReg, writeConsumer]; split <;> rfl
@[simp] theorem writeReg_finfo (p : Port) (off v : Word) (s : State) : (writeReg p off v s).finfo = s.finfo := by
  cases p
  · simp only [writeReg, writeProducer]; split <;> rfl
  · simp only [writeReg, writeConsumer]; split <;> rfl
@[simp] theorem writeReg_pStuck (p : Port) (off v : Word) (s : State) : (writeReg p off v s).pStuck = s.pStuck := by
  cases p
  · simp only [writeReg, writeProducer]; split <;> rfl
  · simp only [writeReg, writeConsumer]; split <;> rfl
@[simp] theorem writeReg_cStuck (p : Port) (off v : Word) (s : State) : (writeReg p off v s).cStuck = s.cStuck := by
  cases p
  · simp only [writeReg, writeProducer]; split <;> rfl
  · simp only [writeReg, writeConsumer]; split <;> rfl
@[simp] theorem writeReg_env (p : Port) (off v : Word) (s : State) : (writeReg p off v s).env = s.env := by
  cases p
  · simp only [writeReg, writeProducer]; split <;> rfl
  · simp only [writeReg, writeConsumer]; split <;> rfl

theorem writeReg_producer_cport (off v : Word) (s : State) : (writeReg .producer off v s).cport = s.cport := by
  simp only [writeReg, writeProducer]; split <;> rfl

theorem writeReg_consumer_pport (off v : Word) (s : State) : (writeReg .consumer off v s).pport = s.pport := by
  simp only [writeReg, writeConsumer]; split <;> rfl

/-! ### `Env.drawn` -/

@[simp] theorem Env.drawn_mem (e : Env) : e.drawn.mem = e.mem := rfl
@[simp] theorem Env.drawn_params (e : Env) : e.drawn.params = e.params := rfl
@[simp] theorem Env.drawn_script (e : Env) : e.drawn.script = e.script := rfl
@[simp] theorem Env.drawn_pBus (e : Env) : e.drawn.pBus = e.pBus := rfl
@[simp] theorem Env.drawn_cBus (e : Env) : e.drawn.cBus = e.cBus := rfl
@[simp] theorem Env.drawn_draws (e : Env) : e.drawn.draws = e.draws + 1 := rfl
@[simp] theorem Env.drawn_grants (e : Env) : e.drawn.grants = e.grants.tail := rfl

end Sys2Proof.Machine
end

