-- ==== Sys2Proof/Laws/Step.lean ====
section
/-! SUPPORT. What a step can do, said once: one inversion lemma for the section, the agent's step, the issue of
a command, the accesses and the step itself; every command answers a next state; and what no command
touches. -/

namespace Sys2Proof.Machine

theorem mapNext_next {f : State → State} {x : Result} {t : State} (h : mapNext f x = .next t) :
    ∃ u, x = .next u ∧ t = f u := by
  cases x with
  | next u => exact ⟨u, rfl, by simpa [mapNext] using h.symm⟩
  | fault r => cases h
  | refused r => cases h

/-- A section that answers a next state found the lock free, and releases it. -/
theorem inSection_next {p : Port} {s t : State} {body : State → Result} (h : inSection p s body = .next t) :
    s.lock = .free ∧ ∃ u, body (s.acquire p) = .next u ∧ t = u.release := by
  unfold inSection at h
  split at h
  · exact ⟨‹_›, mapNext_next h⟩
  · cases h

/-- A section run from a free lock. -/
theorem inSection_of_free {p : Port} {s : State} {body : State → Result} (h : s.lock = .free) :
    inSection p s body = mapNext State.release (body (s.acquire p)) := by
  unfold inSection; rw [h]

/-- An agent's step that answers a next state: no fault, the agent not stuck, one section. -/
theorem agentStep_next {p : Port} {s t : State} {body : State → Result} (h : agentStep p s body = .next t) :
    s.fault = false ∧ stuckOf p s = false ∧ s.lock = .free ∧
      ∃ u, body (s.acquire p) = .next u ∧ t = u.release := by
  unfold agentStep at h
  split at h
  · cases h
  · split at h
    · cases h
    · rename_i h1 h2
      exact ⟨by simpa using h1, by simpa using h2, inSection_next h⟩

/-- An agent's step where it is enabled. -/
theorem agentStep_of_enabled {p : Port} {s : State} {body : State → Result} (hf : s.fault = false)
    (hs : stuckOf p s = false) (hl : s.lock = .free) :
    agentStep p s body = mapNext State.release (body (s.acquire p)) := by
  unfold agentStep
  rw [hf, hs]
  exact inSection_of_free hl

/-- A CMD write that answers a next state did one of four things, in the order of 60_exceptions.md R301. -/
theorem issue_next {p : Port} {c : Word} {s t : State} (h : issue p c s = .next t) :
    (busyOf p s = true ∧ t = raiseFault .fBusy c s) ∨
    (busyOf p s = false ∧ (∃ e, decode c = .error e) ∧ t = s.withCode p .errIllegal) ∨
    (busyOf p s = false ∧ ∃ i, decode c = .ok i ∧ portOf i ≠ p ∧ t = s.withCode p .errPort) ∨
    (busyOf p s = false ∧ ∃ i, decode c = .ok i ∧ portOf i = p ∧ exec i s = .next t) := by
  unfold issue at h
  split at h
  · left; exact ⟨‹_›, by simpa using h.symm⟩
  · rename_i hb
    have hb : busyOf p s = false := by simpa using hb
    split at h
    · rename_i e he
      right; left; exact ⟨hb, ⟨e, he⟩, by simpa using h.symm⟩
    · rename_i i hi
      split at h
      · right; right; right; exact ⟨hb, i, hi, ‹_›, h⟩
      · right; right; left; exact ⟨hb, i, hi, ‹_›, by simpa using h.symm⟩

/-- A register read answers a next state: the word on the agent's bus, or F_PORT. -/
theorem readAccess_next {p : Port} {width : Nat} {off : Word} {s t : State} (h : readAccess p width off s = .next t) :
    (accessOK width off = true ∧ t = s.withBus p (readReg p off s)) ∨
    (accessOK width off = false ∧ t = raiseFault .fPort off s) := by
  unfold readAccess at h
  split at h
  · left; exact ⟨‹_›, by simpa using h.symm⟩
  · right; rename_i hb; exact ⟨by simpa using hb, by simpa using h.symm⟩

/-- A register write that answers a next state issued a command, stored an ARG (or was ignored), or raised
F_PORT. -/
theorem writeAccess_next {p : Port} {width : Nat} {off v : Word} {s t : State}
    (h : writeAccess p width off v s = .next t) :
    (accessOK width off = true ∧ off = 0 ∧ issue p v s = .next t) ∨
    (accessOK width off = true ∧ off ≠ 0 ∧ t = writeReg p off v s) ∨
    (accessOK width off = false ∧ t = raiseFault .fPort off s) := by
  unfold writeAccess at h
  split at h
  · split at h
    · left; exact ⟨‹_›, ‹_›, h⟩
    · right; left; exact ⟨‹_›, ‹_›, by simpa using h.symm⟩
  · right; right; rename_i hb; exact ⟨by simpa using hb, by simpa using h.symm⟩

/-- What the step can do: everything a step that answers a next state may have been. -/
theorem step_next {s t : State} (h : step s = .next t) :
    (s.env.script = [] ∧ s.fault = false ∧ s.pStuck = false ∧ s.iphase.busy = true ∧ s.lock = .free ∧
      ∃ u, ingestWake (s.acquire .producer) = .next u ∧ t = u.release) ∨
    (s.env.script = [] ∧ s.fault = false ∧ s.pStuck = false ∧ s.cStuck = false ∧ s.iphase.busy = false ∧ t = s) ∨
    (∃ rest, s.env.script = .powerOn :: rest ∧ t = powerOn (s.withScript rest)) ∨
    (∃ a b rest, s.env.script = .hostWrite a b :: rest ∧ t = hostStore a b (s.withScript rest)) ∨
    (∃ rest, s.env.script = .wake :: rest ∧ s.fault = false ∧ s.pStuck = false ∧ s.lock = .free ∧
      ∃ u, ingestWake ((s.withScript rest).acquire .producer) = .next u ∧ t = u.release) ∨
    (∃ p width off rest, s.env.script = .read p width off :: rest ∧ s.fault = false ∧ stuckOf p s = false ∧
      s.lock = .free ∧
      ∃ u, readAccess p width off ((s.withScript rest).acquire p) = .next u ∧ t = u.release) ∨
    (∃ p width off v rest, s.env.script = .write p width off v :: rest ∧ s.fault = false ∧ stuckOf p s = false ∧
      s.lock = .free ∧
      ∃ u, writeAccess p width off v ((s.withScript rest).acquire p) = .next u ∧ t = u.release) := by
  unfold step stepOnce at h
  split at h
  · rename_i hs
    unfold idleStep at h
    split at h
    · cases h
    rename_i h1
    split at h
    · cases h
    rename_i h2
    split at h
    · rename_i h3
      obtain ⟨hl, hu⟩ := inSection_next h
      left; exact ⟨hs, by simpa using h1, by simpa using h2, h3, hl, hu⟩
    rename_i h3
    split at h
    · cases h
    rename_i h4
    right; left
    exact ⟨hs, by simpa using h1, by simpa using h2, by simpa using h4, by simpa using h3, by simpa using h.symm⟩
  · rename_i i rest hs
    right; right
    cases i with
    | read p width off =>
      obtain ⟨h1, h2, h3, h4⟩ := agentStep_next h
      right; right; right; left
      refine ⟨p, width, off, rest, hs, h1, ?_, h3, h4⟩
      cases p <;> exact h2
    | write p width off v =>
      obtain ⟨h1, h2, h3, h4⟩ := agentStep_next h
      right; right; right; right
      refine ⟨p, width, off, v, rest, hs, h1, ?_, h3, h4⟩
      cases p <;> exact h2
    | wake =>
      obtain ⟨h1, h2, h3, h4⟩ := agentStep_next h
      right; right; left
      exact ⟨rest, hs, h1, h2, h3, h4⟩
    | powerOn => left; exact ⟨rest, hs, by simpa [takeInput] using h.symm⟩
    | hostWrite a b => right; left; exact ⟨a, b, rest, hs, by simpa [takeInput] using h.symm⟩

theorem whenRuns_next {p : Port} {runs : Bool} {s t : State} {body : Result} (h : whenRuns p runs s body = .next t) :
    (runs = false ∧ t = s.withCode p .errState) ∨ (runs = true ∧ body = .next t) := by
  unfold whenRuns at h
  split at h
  · right; exact ⟨‹_›, h⟩
  · left; rename_i hr; exact ⟨by simpa using hr, by simpa using h.symm⟩

/-- A sleep, a resample that completes, or a stuck producer: what an attempt of ENG.INGEST can do. -/
theorem ingestAttempt_eq (k : Nat) (src count : Word) (s : State) :
    (ingestNeedsSpace count s = true ∧ k < s.env.params.retryMax ∧
      ingestAttempt k src count s = .next { s with iphase := .sleeping (k + 1) src count }) ∨
    (¬ (ingestNeedsSpace count s = true ∧ k < s.env.params.retryMax) ∧
      rangeOK s.env (zext32 src) (zext32 count) = true ∧
      ingestAttempt k src count s =
        .next ((State.withPRes (satU32 (resampleCore .ring (zext32 src) (zext32 count) (ingestMultiplier s) s).consumed)
          (satU32 (resampleCore .ring (zext32 src) (zext32 count) (ingestMultiplier s) s).written)
          { s.commitCore (resampleCore .ring (zext32 src) (zext32 count) (ingestMultiplier s) s) with
            iphase := .idle }).withCode .producer .ok)) ∨
    (¬ (ingestNeedsSpace count s = true ∧ k < s.env.params.retryMax) ∧
      rangeOK s.env (zext32 src) (zext32 count) = false ∧
      ingestAttempt k src count s = .next (s.stall .producer)) := by
  unfold ingestAttempt
  split
  · rename_i h; left; exact ⟨h.1, h.2, rfl⟩
  · rename_i h
    right
    unfold ingestFinal
    split
    · left; exact ⟨h, ‹_›, rfl⟩
    · right; rename_i hr; exact ⟨h, by simpa using hr, rfl⟩

/-- Every command answers a next state, from every state. -/
theorem exec_next (i : Instr) (s : State) : ∃ t, exec i s = .next t := by
  have wr : ∀ (p : Port) (b : Bool) (x : Result), (∃ t, x = .next t) → ∃ t, whenRuns p b s x = .next t := by
    intro p b x hx
    unfold whenRuns
    split
    · exact hx
    · exact ⟨_, rfl⟩
  cases i with
  | rsInit => exact wr _ _ _ ⟨_, rfl⟩
  | rsResample =>
    refine wr _ _ _ ?_
    split
    · exact ⟨_, rfl⟩
    · split <;> exact ⟨_, rfl⟩
  | rsResampleDry =>
    refine wr _ _ _ ?_
    split
    · exact ⟨_, rfl⟩
    · split <;> exact ⟨_, rfl⟩
  | rsEstimate => refine wr _ _ _ ?_; split <;> exact ⟨_, rfl⟩
  | rsIsNeeded => exact wr _ _ _ ⟨_, rfl⟩
  | rsReset => exact wr _ _ _ ⟨_, rfl⟩
  | rbWrite => refine wr _ _ _ ?_; split <;> exact ⟨_, rfl⟩
  | rbRead => refine wr _ _ _ ?_; split <;> exact ⟨_, rfl⟩
  | rbFill => exact wr _ _ _ ⟨_, rfl⟩
  | rcAdjust => exact wr _ _ _ ⟨_, rfl⟩
  | engInit => exact wr _ _ _ ⟨_, rfl⟩
  | engResize => refine wr _ _ _ ?_; split <;> exact ⟨_, rfl⟩
  | engIngest =>
    refine wr _ _ _ ?_
    split
    · exact ⟨_, rfl⟩
    · obtain ⟨_, _, h⟩ | ⟨_, _, h⟩ | ⟨_, _, h⟩ := ingestAttempt_eq 0 s.pport.arg0 s.pport.arg1 s <;> exact ⟨_, h⟩
  | engPull => refine wr _ _ _ ?_; split <;> exact ⟨_, rfl⟩
  | engOccupancy => exact wr _ _ _ ⟨_, rfl⟩
  | engReset => exact wr _ _ _ ⟨_, rfl⟩
  | engQuit => exact wr _ _ _ ⟨_, rfl⟩

end Sys2Proof.Machine
end

