-- ==== Sys2Proof/Machine/Assembly.lean ====
section
/-! DEFINITION. The assembly lines of 30_encoding.md R131 and the register accesses they expand to (R132). A line
is read from its characters; a line that R131 does not give is none. -/

namespace Sys2Proof.Machine

/-- One line: a call on a port with the words of its operands, or a raw register access. -/
inductive Line where
  | call (p : Port) (i : Instr) (args : List Word)
  | readReg (p : Port) (off : Word)
  | writeReg (p : Port) (off v : Word)
deriving DecidableEq, Repr

/-- The commands, in the order of the map (30_encoding.md R123). -/
def commands : List Instr :=
  [.rsInit, .rsResample, .rsResampleDry, .rsEstimate, .rsIsNeeded, .rsReset, .rbWrite, .rbRead, .rbFill, .rcAdjust,
   .engInit, .engResize, .engIngest, .engPull, .engOccupancy, .engReset, .engQuit]

/-- The value of a digit in a base up to 16. That hexadecimal letters may be of either case is the model's.
DESIGN CHOICE, safe (log 23). -/
def digitOf (base : Nat) (c : Char) : Option Nat :=
  let n := c.toNat
  let v := if 48 ≤ n ∧ n ≤ 57 then n - 48
           else if 97 ≤ n ∧ n ≤ 102 then n - 87
           else if 65 ≤ n ∧ n ≤ 70 then n - 55
           else base
  if v < base then some v else none

/-- The digits of a number read on from a value. -/
def digitsFrom (base : Nat) : Nat → List Char → Option Nat
  | v, [] => some v
  | v, c :: cs =>
    match digitOf base c with
    | some d => digitsFrom base (v * base + d) cs
    | none => none

/-- A number of at least one digit. -/
def natOf (base : Nat) (cs : List Char) : Option Nat := if cs = [] then none else digitsFrom base 0 cs

/-- A decimal or 0x-hexadecimal integer (30_encoding.md R131). The rule does not say which of the two may carry a
sign: here a minus sign may stand before decimal digits only, so `-0x10` is none, as are a plus sign and the prefix
`0X`. DESIGN CHOICE, safe (log 23). -/
def integerOf : List Char → Option Int
  | '-' :: cs => (natOf 10 cs).map fun n => - (n : Int)
  | '0' :: 'x' :: cs => (natOf 16 cs).map Int.ofNat
  | cs => (natOf 10 cs).map Int.ofNat

/-- The characters before and after the first occurrence of `c`, if there is one. -/
def cutAt (c : Char) : List Char → Option (List Char × List Char)
  | [] => none
  | x :: xs => if x = c then some ([], xs) else (cutAt c xs).map fun (a, b) => (x :: a, b)

/-- A decimal number in 16.16, floored (30_encoding.md R131). That it has no sign, that its fraction part may be
absent with its point, and that a point has digits on both sides, is the model's. DESIGN CHOICE, safe (log 23). -/
def decimalFixed (cs : List Char) : Option Nat :=
  match cutAt '.' cs with
  | some (a, b) =>
    match natOf 10 a, natOf 10 b with
    | some n, some m => some ((n * 10 ^ b.length + m) * ONE / 10 ^ b.length)
    | _, _ => none
  | none => (natOf 10 cs).map fun n => n * ONE

/-- A 16.16 operand: the `fx` ending, or the integer of its bits (30_encoding.md R131). -/
def fixedOf (cs : List Char) : Option Int :=
  match cs.reverse with
  | 'x' :: 'f' :: ds => (decimalFixed ds.reverse).map Int.ofNat
  | _ => integerOf cs

/-- Characters without the spaces at both ends. That spaces may stand around a line, an operand and a sample, and
that no other character is such a space, is the model's. DESIGN CHOICE, safe (log 23). -/
def trim (cs : List Char) : List Char := ((cs.dropWhile (· = ' ')).reverse.dropWhile (· = ' ')).reverse

/-- An integer as a word: signed or unsigned, it must fit 32 bits. R131 gives no range, and refusing the line of
one that does not fit is the model's. DESIGN CHOICE, safe (log 23). -/
def wordOf (z : Int) : Option Word := if -2 ^ 31 ≤ z ∧ z < 2 ^ 32 then some (trunc32 z) else none

/-- An integer as a sample: it must be a signed 16-bit value (00_scope.md R8). R131 gives no range, and refusing
the line of one that does not fit is the model's. DESIGN CHOICE, safe (log 23). -/
def sampleOf (z : Int) : Option Sample :=
  if -2 ^ 15 ≤ z ∧ z < 2 ^ 15 then some (BitVec.ofInt 16 z) else none

/-- A packed frame, `(l, r)`, or the integer of its word (30_encoding.md R131, 20_memory.md R81). -/
def frameOf (cs : List Char) : Option Word :=
  match cs with
  | '(' :: r =>
    match r.reverse with
    | ')' :: m =>
      match cutAt ',' m.reverse with
      | some (a, b) =>
        match (integerOf (trim a)).bind sampleOf, (integerOf (trim b)).bind sampleOf with
        | some x, some y => some (pack { l := x, r := y })
        | _, _ => none
      | none => none
    | _ => none
  | _ => (integerOf cs).bind wordOf

/-- One operand as the word its ARG register takes; none where it does not fit the word (log 23). -/
def operandOf (k : OperandKind) (cs : List Char) : Option Word :=
  match k with
  | .frame => frameOf cs
  | .fixed => (fixedOf cs).bind wordOf
  | .hertz => (integerOf cs).bind wordOf
  | .address => (integerOf cs).bind wordOf
  | .frames => (integerOf cs).bind wordOf

/-- The text cut at its commas, those between parentheses apart. -/
def cutCommas : Nat → List Char → List Char → List (List Char)
  | _, acc, [] => [acc.reverse]
  | d, acc, c :: cs =>
    if c = ',' ∧ d = 0 then acc.reverse :: cutCommas 0 [] cs
    else cutCommas (if c = '(' then d + 1 else if c = ')' then d - 1 else d) (c :: acc) cs

/-- The operands of a command, one text for each. -/
def operandsOf : List OperandKind → List (List Char) → Option (List Word)
  | [], [] => some []
  | k :: ks, t :: ts =>
    match operandOf k (trim t), operandsOf ks ts with
    | some v, some vs => some (v :: vs)
    | _, _ => none
  | _, _ => none

/-- The command of a mnemonic (30_encoding.md R123). -/
def commandOf (cs : List Char) : Option Instr := commands.find? fun i => (mnemonicOf i).toList = cs

/-- A command line on a port: its mnemonic, then its operands in ARG order. -/
def parseCall (p : Port) (cs : List Char) : Option Line :=
  let (m, rest) := (cutAt ' ' cs).getD (cs, [])
  match commandOf m with
  | none => none
  | some i =>
    let texts := if trim rest = [] then [] else cutCommas 0 [] (trim rest)
    (operandsOf (operandKinds i) texts).map fun vs => .call p i vs

/-- A raw write's offset and value, each a word (log 23). -/
def parseWrite (p : Port) (cs : List Char) : Option Line :=
  match cutAt ',' cs with
  | some (a, b) =>
    match (integerOf (trim a)).bind wordOf, (integerOf (trim b)).bind wordOf with
    | some off, some v => some (.writeReg p off v)
    | _, _ => none
  | none => none

/-- A raw read's offset, a word (log 23). -/
def parseRead (p : Port) (cs : List Char) : Option Line :=
  ((integerOf (trim cs)).bind wordOf).map fun off => .readReg p off

/-- A line of the assembly form (30_encoding.md R131): `C:` before a consumer command, nothing before a producer
command, or one of the four raw accesses. The prefix names the port of the line, so a command written for the port it
does not belong to is a line too, which the block answers with ERR_PORT (R123). DESIGN CHOICE, safe (log 23). -/
def parseLine (text : String) : Option Line :=
  match trim text.toList with
  | 'P' :: '.' :: 'W' :: 'R' :: ' ' :: cs => parseWrite .producer cs
  | 'P' :: '.' :: 'R' :: 'D' :: ' ' :: cs => parseRead .producer cs
  | 'C' :: '.' :: 'W' :: 'R' :: ' ' :: cs => parseWrite .consumer cs
  | 'C' :: '.' :: 'R' :: 'D' :: ' ' :: cs => parseRead .consumer cs
  | 'C' :: ':' :: cs => parseCall .consumer (trim cs)
  | cs => parseCall .producer cs

/-- The ARG writes of a call, one per operand in order, from offset `off` on (30_encoding.md R132). -/
def argWrites (p : Port) (off : Word) : List Word → List Input
  | [] => []
  | v :: vs => .write p 4 off v :: argWrites p (off + 4) vs

/-- A call's expansion (30_encoding.md R132): the ARG writes, the CMD write, and `polls` + 1 reads of STATUS. How
often the host repeats the poll depends on the draws between its reads, so the count is the host's (log 23). -/
def callInputs (p : Port) (i : Instr) (args : List Word) (polls : Nat) : List Input :=
  argWrites p 4 args ++ [.write p 4 0 (encode i), .read p 4 0x1C] ++ List.replicate polls (.read p 4 0x1C)

/-- Whether the poll of a call on a port ends: the STATUS word its agent last read shows BUSY = 0
(30_encoding.md R132). -/
def pollEnds (p : Port) (s : State) : Bool :=
  match p with
  | .producer => s.env.pBus.extractLsb' 8 1 == 0
  | .consumer => s.env.cBus.extractLsb' 8 1 == 0

/-- The register accesses a line stands for. -/
def lineInputs (l : Line) (polls : Nat) : List Input :=
  match l with
  | .call p i args => callInputs p i args polls
  | .readReg p off => [.read p 4 off]
  | .writeReg p off v => [.write p 4 off v]

end Sys2Proof.Machine
end

