-- ==== Sys2Proof/Tests/Slice0.lean ====
section
/-! SUPPORT. Tests of the model on small states. Every expected value is transcribed from 95_test_vectors.md,
whose section each test names, or follows by hand from the rule it cites. The last part shows, for each
statement with hypotheses, states and operands that meet them. -/

namespace Sys2Proof.Tests

open Sys2Proof Sys2Proof.Machine

/-! ## Helpers -/

/-- The parameters of 95_test_vectors.md section 2.5, with every range inside the address space admitted. -/
def prm : Params := { nMax := 1048576, retryMax := 10, admitted := [.within 0 0x100000000] }

/-- A frame of two signed values. -/
def fr (l r : Int) : Frame := { l := BitVec.ofInt 16 l, r := BitVec.ofInt 16 r }

/-- The state after reset with the parameters of the vectors. -/
def boot : State := { State.reset with env := { Env.initial with params := prm } }

/-- A ring holding frames from cursor 0 on. -/
def ringOf (n : Nat) (fs : List Frame) : RingState :=
  { cap := n, store := fs ++ List.replicate (n - fs.length) Frame.zero, w := fs.length % n, r := 0 }

/-- READY with a ring and a resampler fresh for two rates. -/
def ready (i o : Word) (g : RingState) : State :=
  { boot with estate := .ready, consEn := true, rs := freshResampler i o, ring := g }

/-- The producer's operands placed. -/
def pArgs (a b c d : Word) (s : State) : State :=
  { s with pport := { s.pport with arg0 := a, arg1 := b, arg2 := c, arg3 := d } }

/-- The consumer's operands placed. -/
def cArgs (a b : Word) (s : State) : State := { s with cport := { s.cport with arg0 := a, arg1 := b } }

/-- The actions placed. -/
def script (l : List Input) (s : State) : State := s.withScript l

/-- Host memory with frames (0,0), (100,−100), (200,−200), (300,−300) at 0x1000 (program P2). -/
def ramp : Memory :=
  [(0x1004, 0x64), (0x1006, 0x9C), (0x1007, 0xFF), (0x1008, 0xC8), (0x100A, 0x38), (0x100B, 0xFF),
   (0x100C, 0x2C), (0x100D, 0x01), (0x100E, 0xD4), (0x100F, 0xFE)]

/-- Host memory with frames (1,1) to (4,4) at 0x1000 (program P1). -/
def ones : Memory :=
  [(0x1000, 1), (0x1002, 1), (0x1004, 2), (0x1006, 2), (0x1008, 3), (0x100A, 3), (0x100C, 4), (0x100E, 4)]

/-- A field of the next state, if there is one. -/
def pick {α : Type} (f : State → α) : Result → Option α
  | .next s => some (f s)
  | .fault _ => none
  | .refused _ => none

/-- The producer's results and code. -/
def pOut (s : State) : Word × Word × Code := (s.pport.res0, s.pport.res1, s.pport.code)

/-- The consumer's results and code. -/
def cOut (s : State) : Word × Word × Code := (s.cport.res0, s.cport.res1, s.cport.code)

/-- The phase of the resampler. -/
def phase (s : State) : Nat × Frame × Bool := (s.rs.fracPos, s.rs.prev, s.rs.hasPrev)

/-- The fault fields. -/
def faultOut (s : State) : Bool × FaultCause × Word := (s.fault, s.fcause, s.finfo)

/-! ## WellFormed: each check refuses an ill-formed term -/

theorem test_wf_reserved_bits : reservedZero 0x00000110 = false := by decide
theorem test_wf_opcode_unassigned : opcodeMapped 0x00000016 = false ∧ opcodeMapped 0x00000047 = false := by decide
theorem test_wf_word : commandWordWellFormed 0x00000110 = false ∧ commandWordWellFormed 0x00000016 = false ∧
    commandWordWellFormed 0x00000043 = true := by decide
theorem test_wf_access_width : accessWidthOK 2 = false ∧ accessWellFormed 2 0x04 = false := by decide
theorem test_wf_access_alignment : accessAligned 0x02 = false ∧ accessWellFormed 4 0x02 = false := by decide
theorem test_wf_access_window : accessInWindow 0x100 = false ∧ accessWellFormed 4 0x100 = false ∧
    accessWellFormed 4 0xFC = true := by decide
theorem test_wf_input : Input.wellFormed (.read .producer 4 0x02) = false ∧
    Input.wellFormed (.write .consumer 1 0x04 0) = false := by decide
theorem test_wf_params : Params.wellFormed { nMax := 1, retryMax := 0, admitted := [] } = false := by decide
/-- 00_scope.md R9: RETRY_MAX is 10 where an implementation sets none. -/
theorem test_retry_default : Config.retryMaxOf none = 10 ∧ Config.retryMaxOf (some 0) = 0 := by decide
theorem test_wf_memory : Memory.wf [(5, 1), (4, 1)] = false ∧ Memory.wf [(4, 0)] = false ∧
    Memory.wf [(0x100000000, 1)] = false ∧ Memory.wf ramp = true := by decide

/-! ## Decode: each command's word written out bit by bit from 30_encoding.md R120 and R123 -/

theorem test_decode_rs :
    decode 0b00000000000000000000000000010000#32 = .ok .rsInit ∧
    decode 0b00000000000000000000000000010001#32 = .ok .rsResample ∧
    decode 0b00000000000000000000000000010010#32 = .ok .rsResampleDry ∧
    decode 0b00000000000000000000000000010011#32 = .ok .rsEstimate ∧
    decode 0b00000000000000000000000000010100#32 = .ok .rsIsNeeded ∧
    decode 0b00000000000000000000000000010101#32 = .ok .rsReset := by decide
theorem test_decode_rb :
    decode 0b00000000000000000000000000100000#32 = .ok .rbWrite ∧
    decode 0b00000000000000000000000000100001#32 = .ok .rbRead ∧
    decode 0b00000000000000000000000000100010#32 = .ok .rbFill := by decide
theorem test_decode_rc : decode 0b00000000000000000000000000110000#32 = .ok .rcAdjust := by decide
theorem test_decode_eng :
    decode 0b00000000000000000000000001000000#32 = .ok .engInit ∧
    decode 0b00000000000000000000000001000001#32 = .ok .engResize ∧
    decode 0b00000000000000000000000001000010#32 = .ok .engIngest ∧
    decode 0b00000000000000000000000001000011#32 = .ok .engPull ∧
    decode 0b00000000000000000000000001000100#32 = .ok .engOccupancy ∧
    decode 0b00000000000000000000000001000101#32 = .ok .engReset ∧
    decode 0b00000000000000000000000001000110#32 = .ok .engQuit := by decide
/-- 95_test_vectors.md 2.1: illegal words. -/
theorem test_decode_illegal :
    decode 0b00000000000000000000000100000000#32 = .error .reservedBitsSet ∧
    decode 0b00000000000000000000000100010000#32 = .error .reservedBitsSet ∧
    decode 0b10000000000000000000000000010000#32 = .error .reservedBitsSet ∧
    decode 0b00000000000000000000000000010110#32 = .error .opcodeUnassigned ∧
    decode 0b00000000000000000000000001000111#32 = .error .opcodeUnassigned ∧
    decode 0b00000000000000000000000000000000#32 = .error .opcodeUnassigned := by decide
theorem test_table_word : decodeTableWord 32 0x43 = some .engPull ∧ decodeTableWord 32 0x143 = none := by decide
/-- 30_encoding.md R132: the expansion of `C: ENG.PULL 0x2000, 6` in program P1. -/
theorem test_call_expansion : (parseLine "C: ENG.PULL 0x2000, 6").map (lineInputs · 0) =
    some [.write .consumer 4 0x04 0x2000, .write .consumer 4 0x08 6, .write .consumer 4 0x00 0x43,
      .read .consumer 4 0x1C] := by decide
/-- 30_encoding.md R131: the rule's example, the `fx` values, a frame operand and the raw accesses. -/
theorem test_parse_lines :
    parseLine "RS.INIT 44100, 48000" = some (.call .producer .rsInit [44100, 48000]) ∧
    parseLine "RB.WRITE (5, -5)" = some (.call .producer .rbWrite [0xFFFB0005]) ∧
    parseLine "ENG.RESIZE 48000, 60.0fx, 656" = some (.call .producer .engResize [48000, 3932160, 656]) ∧
    parseLine "RC.ADJUST 0.98fx" = some (.call .producer .rcAdjust [64225]) ∧
    parseLine "RS.RESET" = some (.call .producer .rsReset []) ∧
    parseLine "P.WR 0x0C, 0x003C0000" = some (.writeReg .producer 0x0C 0x003C0000) ∧
    parseLine "C.RD 0x1C" = some (.readReg .consumer 0x1C) := by decide
/-- 30_encoding.md R131: an operand too few, an unknown mnemonic, a fixed-point ending on a rate. -/
theorem test_parse_refused : parseLine "RS.INIT 44100" = none ∧ parseLine "RS.START 1" = none ∧
    parseLine "RS.INIT 1.0fx, 2" = none ∧ parseLine "RS.INIT 12a, 2" = none ∧
    parseLine "RS.INIT -0x10, 2" = none := by decide
/-- Log 23: a word takes −2^31 to 2^32 − 1 and a sample −2^15 to 2^15 − 1; a line with any other integer is none. -/
theorem test_parse_ranges : parseLine "P.RD 0x100000004" = none ∧
    parseLine "P.WR 4, 0xFFFFFFFF" = some (.writeReg .producer 4 0xFFFFFFFF) ∧
    parseLine "P.WR 4, 0x100000000" = none ∧
    parseLine "RS.ESTIMATE 5, -2147483648" = some (.call .producer .rsEstimate [5, 0x80000000]) ∧
    parseLine "RS.ESTIMATE 5, -2147483649" = none ∧ parseLine "RC.ADJUST 65536fx" = none ∧
    parseLine "RB.WRITE (32767, -32768)" = some (.call .producer .rbWrite [0x80007FFF]) ∧
    parseLine "RB.WRITE (32768, 0)" = none := by decide

/-! ## Commands, with the vectors of 95_test_vectors.md -/

/-- Section 2.2.4. -/
theorem test_rsInit : pick (fun s => (s.rs.step, phase s, s.rs.inRate, s.rs.outRate))
    (exec .rsInit (pArgs 24000 48000 0 0 boot)) = some (32768, (0, Frame.zero, false), 24000, 48000) := by decide
/-- Section 2.2.4: not an error. -/
theorem test_rsInit_zero : pick (fun s => (s.rs.step, s.pport.code)) (exec .rsInit (pArgs 0 0 0 0 boot)) =
    some (65536, .ok) := by decide
/-- Section 2.2.5, row 1. -/
theorem test_rsResample : pick (fun s => (pOut s, phase s, s.ring.w, s.ring.store.take 4))
    (exec .rsResample (pArgs 0x1000 3 65536 0 ((ready 24000 48000 (ringOf 16 [])).withMem ramp))) =
      some ((4, 3, .ok), (0, fr 200 (-200), true), 4, [fr 0 0, fr 50 (-50), fr 100 (-100), fr 150 (-150)]) := by
  decide
/-- Section 2.2.5, row 6: a full ring stops the run after the bootstrap. -/
theorem test_rsResample_full : pick (fun s => (pOut s, phase s, s.ring.w))
    (exec .rsResample (pArgs 0x1000 3 65536 0
      ((ready 24000 48000 (ringOf 4 [fr 1 1, fr 2 2, fr 3 3])).withMem ramp))) =
      some ((0, 1, .ok), (0, fr 0 0, true), 3) := by decide
/-- Section 2.2.6. -/
theorem test_rsResampleDry : pick (fun s => (pOut s, phase s, s.ring))
    (exec .rsResampleDry (pArgs 0x1000 4 65536 0 ((ready 24000 48000 RingState.absent).withMem ramp))) =
      some ((6, 4, .ok), (0, Frame.zero, false), RingState.absent) := by decide
/-- Section 2.6: F_SPEED comes before the range test. -/
theorem test_rsResampleDry_speed : pick faultOut
    (exec .rsResampleDry (pArgs 0xFFFFFFFF 4 0 0 boot)) = some (true, .fSpeed, 0) := by decide
/-- Section 2.2.7: 1088.43 and the tie 0.5. -/
theorem test_rsEstimate :
    pick pOut (exec .rsEstimate (pArgs 1000 65536 0 0 (ready 44100 48000 RingState.absent))) = some (1088, 0, .ok) ∧
    pick pOut (exec .rsEstimate (pArgs 1 65536 0 0 (ready 2 1 RingState.absent))) = some (1, 0, .ok) := by decide
/-- Section 2.2.7, last row. -/
theorem test_rsEstimate_speed : pick faultOut (exec .rsEstimate (pArgs 5 0xFFFFFFFF 0 0 boot)) =
    some (true, .fSpeed, 0xFFFFFFFF) := by decide
/-- Section 2.2.8. -/
theorem test_rsIsNeeded :
    pick pOut (exec .rsIsNeeded (pArgs 44100 48000 0 0 boot)) = some (1, 0, .ok) ∧
    pick pOut (exec .rsIsNeeded (pArgs 0xFFFFFFFF 0xFFFFFFFF 0 0 boot)) = some (0, 0, .ok) := by decide
/-- Section 2.2.4. -/
theorem test_rsReset : pick (fun s => (phase s, s.rs.step))
    (exec .rsReset { boot with rs := { freshResampler 24000 48000 with fracPos := 7, prev := fr 1 2, hasPrev := true } }) =
      some ((0, Frame.zero, false), 32768) := by decide
/-- Section 2.3.1, first point. -/
theorem test_rbWrite : pick (fun s => (s.ring.store, s.ring.w, s.pport.code))
    (exec .rbWrite (pArgs 0xFFFB0005 0 0 0 (ready 1 1 (ringOf 4 [])))) =
      some ([fr 5 (-5), fr 0 0, fr 0 0, fr 0 0], 1, .ok) := by decide
/-- Section 2.3.1, third point. -/
theorem test_rbWrite_full : pick (fun s => (faultOut s, statusWord .producer s))
    (exec .rbWrite (ready 1 1 (ringOf 4 [fr 1 1, fr 2 2, fr 3 3]))) =
      some ((true, .fRbFull, 3), 0x00210000) := by decide
/-- Section 2.3.1. -/
theorem test_rbRead : pick (fun s => (cOut s, s.ring.r, s.hasLast))
    (exec .rbRead (ready 1 1 (ringOf 4 [fr 5 (-5)]))) = some ((0xFFFB0005, 1, .ok), 1, false) := by decide
/-- Section 2.3.1, second point. -/
theorem test_rbRead_empty : pick cOut (exec .rbRead (ready 1 1 (ringOf 4 []))) = some (0, 0, .ok) := by decide
/-- Section 2.3.3. -/
theorem test_rbFill :
    pick pOut (exec .rbFill (ready 1 1 (ringOf 4 [fr 1 1, fr 2 2, fr 3 3]))) = some (49152, 0, .ok) ∧
    pick pOut (exec .rbFill boot) = some (0, 0, .ok) := by decide
/-- Section 2.4. -/
theorem test_rcAdjust :
    pick pOut (exec .rcAdjust (pArgs 0 0 0 0 boot)) = some (64226, 0, .ok) ∧
    pick pOut (exec .rcAdjust (pArgs 0xFFFFFFFF 0 0 0 boot)) = some (66846, 0, .ok) := by decide
/-- Program P1, step 1. -/
theorem test_engInit : pick (fun s => (pOut s, s.ring.cap, s.rs.step, engStateWord s))
    (exec .engInit { pArgs 48000 48000 3932160 656 boot with env := { boot.env with grants := [48000] } }) =
      some ((48000, 8, .ok), 8, 65536, 0x31) := by decide
/-- Section 2.5.2, row 4: ERR_ALLOC, with READY and cons_en true. -/
theorem test_engInit_fail : pick (fun s => (pOut s, s.rs.step, engStateWord s))
    (exec .engInit { pArgs 0 48000 3932160 65536 boot with env := { boot.env with grants := [48000] } }) =
      some ((48000, 0, .errAlloc), 65536, 0x11) := by decide
/-- Section 2.5.3, first point. -/
theorem test_engResize : pick (fun s => (pOut s, s.ring.cap, engStateWord s))
    (exec .engResize (pArgs 48000 3932160 656 0 (ready 0 48000 RingState.absent))) =
      some ((8, 0, .ok), 8, 0x32) := by decide
/-- Section 2.5.3, second point. -/
theorem test_engResize_fail : pick (fun s => (pOut s, s.ring, engStateWord s))
    (exec .engResize (pArgs 48000 3932160 1 0 { ready 48000 48000 (ringOf 8 []) with estate := .resized })) =
      some ((0, 0, .errAlloc), RingState.absent, 0x12) := by decide
/-- Program P1, step 2. -/
theorem test_engIngest : pick (fun s => (pOut s, phase s, s.ring.w, s.ring.store.take 5))
    (exec .engIngest (pArgs 0x1000 4 0 0 ((ready 48000 48000 (ringOf 8 [])).withMem ones))) =
      some ((4, 4, .ok), (60296, fr 4 4, true), 4, [fr 1 1, fr 1 1, fr 2 2, fr 3 3, fr 0 0]) := by decide
/-- Section 2.5.4, row 3: a full ring, so a sleep; STATUS shows BUSY. -/
theorem test_engIngest_sleeps : pick (fun s => (s.iphase, statusWord .producer s, readReg .producer 0x54 s))
    (exec .engIngest (pArgs 0x1000 4 0 0 (ready 48000 48000 (ringOf 4 [fr 1 1, fr 2 2, fr 3 3])))) =
      some (.sleeping 1 0x1000 4, 0x00000100, 1) := by decide
/-- Section 2.5.7, row 1. -/
theorem test_engPull : pick (fun s => (readFrames s.env.mem 0x2000 4, s.lastRead, s.hasLast, s.ring.occ))
    (exec .engPull (cArgs 0x2000 4 (ready 1 1 (ringOf 4 [fr 1 1, fr 2 2])))) =
      some ([fr 1 1, fr 2 2, fr 2 2, fr 2 2], fr 2 2, true, 0) := by decide
/-- Section 2.5.7, row 3. -/
theorem test_engPull_underrun : pick (fun s => (s.env.mem, s.lastRead, s.ring.r))
    (exec .engPull (cArgs 0x2000 2
      { ready 1 1 (ringOf 4 []) with lastRead := fr 3 3, hasLast := true })) =
      some ([(0x2000, 3), (0x2002, 3), (0x2004, 3), (0x2006, 3)], fr 3 3, 0) := by decide
/-- Section 2.5.5: 87 of a full ring of 8, 0 of an absent one. -/
theorem test_engOccupancy :
    pick pOut (exec .engOccupancy (ready 1 1 (ringOf 8 (List.replicate 7 (fr 1 1))))) = some (87, 0, .ok) ∧
    pick pOut (exec .engOccupancy (ready 1 1 RingState.absent)) = some (0, 0, .ok) := by decide
/-- Section 2.5.6. -/
theorem test_engReset : pick (fun s => (phase s, s.ring.w, s.ring.occ))
    (exec .engReset { ready 1 1 (ringOf 8 (List.replicate 7 (fr 1 1))) with
      rs := { freshResampler 1 1 with fracPos := 9, prev := fr 1 1, hasPrev := true } }) =
      some ((0, Frame.zero, false), 7, 7) := by decide
/-- Section 2.5.8. -/
theorem test_engQuit : pick (fun s => (engStateWord s, s.ring, s.consEn, s.lastRead))
    (exec .engQuit { ready 1 1 (ringOf 8 [fr 1 1]) with lastRead := fr 3 3, hasLast := true }) =
      some (0x03, RingState.absent, false, fr 3 3) := by decide

/-! ## Steps: accesses, codes and faults (95_test_vectors.md 2.1, 2.6, 2.7) -/

theorem test_step_illegal : pick (fun s => (statusWord .producer s, statusWord .consumer s))
    (step (script [.write .producer 4 0 0x100] boot)) = some (3, 0) := by decide
theorem test_step_wrong_port : pick (statusWord .producer) (step (script [.write .producer 4 0 0x21] boot)) =
    some 4 := by decide
theorem test_step_wrong_state : pick (statusWord .consumer) (step (script [.write .consumer 4 0 0x43] boot)) =
    some 2 := by decide
theorem test_step_fport : pick (fun s => (faultOut s, statusWord .producer s, statusWord .consumer s))
    (step (script [.read .producer 4 0x02] boot)) =
      some ((true, .fPort, 2), 0x00410000, 0x00410000) := by decide
theorem test_step_fbusy : pick (fun s => (faultOut s, statusWord .producer s))
    (step (script [.write .producer 4 0 0x143] { ready 1 1 (ringOf 4 []) with iphase := .sleeping 1 0 0 })) =
      some ((true, .fBusy, 0x143), 0x00310100) := by decide
theorem test_step_read_bus : pick (fun s => (s.env.pBus, s.lock))
    (step (script [.read .producer 4 0x38] boot)) = some (0x00010000, .free) := by decide
theorem test_step_first_word : pick pOut (step ((pArgs 0 0 0 0 boot).withFetchWord 32 0x30)) = some (64226, 0, .ok) := by
  decide
/-- 44_engine.md R256: the Wake of the last budgeted sleep is final. -/
theorem test_step_wake_final : pick (fun s => (s.iphase, pOut s))
    (step { ready 48000 48000 (ringOf 4 [fr 1 1, fr 2 2, fr 3 3]) with iphase := .sleeping 10 0x1000 4 }) =
      some (.idle, (1, 0, .ok)) := by decide

/-- 70_reset_and_hazards.md R345 (d): only a register access still to come keeps a state from being final. -/
theorem test_final : (script [.hostWrite 0 1, .powerOn] boot).final ∧
    ¬ (script [.hostWrite 0 1, .read .consumer 4 0] boot).final ∧
    ¬ ({ boot with cStuck := true } : State).final := by decide

/-! ## Witnesses: states and operands that meet the hypotheses of each statement with hypotheses -/

/-- An agent's access at the head of the script, enabled. -/
abbrev Enabled (s : State) (p : Port) (i : Input) (rest : List Input) : Prop :=
  s.env.script = i :: rest ∧ s.fault = false ∧ stuckOf p s = false ∧ s.lock = .free

/-- A ring of N = 4 that has wrapped: w = 1, r = 2, occupancy 3. -/
def wrapped : RingState := { cap := 4, store := [fr 1 1, fr 2 2, fr 3 3, fr 4 4], w := 1, r := 2 }

/-- READY, N = 4, full, an ENG.INGEST asleep. -/
def asleep (k : Nat) : State := { ready 48000 48000 wrapped with iphase := .sleeping k 0x1000 4 }

theorem witness_DecodeEncodeAgree : Instr.wellFormed .engQuit = true ∧ decode 0x46 = .ok .engQuit ∧
    decode 0x10 = .ok .rsInit := by decide
theorem witness_RegistersAfterReset :
    (0x00 : Word).toNat % 4 = 0 ∧ (0x38 : Word).toNat % 4 = 0 ∧ (0xFC : Word).toNat % 4 = 0 ∧
    (0xFC : Word).toNat ≤ 0xFC := by decide
theorem witness_PowerOnFromAnyState : (script [.powerOn]
    { boot with fault := true, lock := .heldBy Port.producer, pStuck := true }).env.script = [.powerOn] := by decide
/-- The invariant holds of a state that runs a command, of one asleep, and of one that takes F_PORT. -/
theorem witness_StepKeepsInvariant_command :
    (script [.write .producer 4 0 0x45] (ready 48000 48000 wrapped)).Inv ∧
    (pick (fun _ => true) (step (script [.write .producer 4 0 0x45] (ready 48000 48000 wrapped)))).isSome = true := by
  decide
theorem witness_StepKeepsInvariant_wake : (asleep 10).Inv ∧
    (pick (fun _ => true) (step (asleep 10))).isSome = true := by decide
theorem witness_StepKeepsInvariant_fault : (script [.read .consumer 2 0x04] boot).Inv ∧
    (pick (fun _ => true) (step (script [.read .consumer 2 0x04] boot))).isSome = true := by decide
theorem witness_StepRunsDecodedCommand :
    Enabled (script [.write .producer 4 0 0x10] boot) .producer (.write .producer 4 0 0x10) [] ∧
    decode 0x10 = .ok .rsInit ∧ portOf .rsInit = .producer ∧ boot.iphase = .idle ∧
    Enabled (script [.write .consumer 4 0 0x43] (asleep 1)) .consumer (.write .consumer 4 0 0x43) [] ∧
    decode 0x43 = .ok .engPull ∧ portOf .engPull = .consumer := by decide
theorem witness_IllegalWordSetsErrIllegal :
    Enabled (script [.write .producer 4 0 0x16] boot) .producer (.write .producer 4 0 0x16) [] ∧
    Enabled (script [.write .consumer 4 0 0xFFFFFF10] boot) .consumer (.write .consumer 4 0 0xFFFFFF10) [] ∧
    (0x16 : Word) ∉ ([0x10, 0x11, 0x12, 0x13, 0x14, 0x15, 0x20, 0x21, 0x22, 0x30, 0x40, 0x41, 0x42, 0x43, 0x44,
      0x45, 0x46] : List Word) ∧
    (0xFFFFFF10 : Word) ∉ ([0x10, 0x11, 0x12, 0x13, 0x14, 0x15, 0x20, 0x21, 0x22, 0x30, 0x40, 0x41, 0x42, 0x43,
      0x44, 0x45, 0x46] : List Word) := by decide
theorem witness_WrongPortSetsErrPort :
    Enabled (script [.write .producer 4 0 0x21] boot) .producer (.write .producer 4 0 0x21) [] ∧
    decode 0x21 = .ok .rbRead ∧ boot.iphase = .idle ∧
    Enabled (script [.write .consumer 4 0 0x10] (asleep 1)) .consumer (.write .consumer 4 0 0x10) [] ∧
    decode 0x10 = .ok .rsInit ∧ Instr.rsInit ≠ .rbRead ∧ Instr.rsInit ≠ .engPull := by decide
theorem witness_WrongStateSetsErrState :
    commandRuns .engIngest boot = false ∧ commandRuns .engPull boot = false ∧
    commandRuns .engInit (ready 1 1 wrapped) = false ∧
    commandRuns .rsInit { boot with estate := .shutdown } = false := by decide
theorem witness_BusyCommandWriteFaults :
    Enabled (script [.write .producer 4 0 0x43] (asleep 1)) .producer (.write .producer 4 0 0x43) [] ∧
    Enabled (script [.read .producer 4 0xFC] (asleep 1)) .producer (.read .producer 4 0xFC) [] ∧
    Enabled (script [.write .producer 4 0x04 9] (asleep 1)) .producer (.write .producer 4 0x04 9) [] ∧
    (asleep 1).iphase = .sleeping 1 0x1000 4 ∧ (0xFC : Word).toNat % 4 = 0 ∧ (0x04 : Word) ≠ 0 := by decide
theorem witness_MalformedAccessFaults :
    Enabled (script [.read .producer 4 0x100] boot) .producer (.read .producer 4 0x100) [] ∧
    Enabled (script [.write .consumer 4 0xFD 1] boot) .consumer (.write .consumer 4 0xFD 1) [] ∧
    Enabled (script [.read .consumer 8 0x00] boot) .consumer (.read .consumer 8 0x00) [] ∧
    ¬ (0x100 : Word).toNat ≤ 0xFC ∧ ¬ (0xFD : Word).toNat % 4 = 0 ∧ (8 : Nat) ≠ 4 := by decide
theorem witness_FaultedBlockHasNoStep :
    ({ boot with fault := true, fcause := .fSpeed } : State).env.script = [] ∧
    (script [.wake] { boot with fault := true, fcause := .fSpeed }).env.script = [.wake] ∧
    inputByAgent .wake = true ∧
    (script [.powerOn] { boot with fault := true, fcause := .fSpeed }).env.script = [.powerOn] := by decide
/-- The four faults, each from an unfaulted state: the hypotheses of FaultChangesOnlyFaultFields and of
FaultCausesAreExact. -/
theorem witness_faults_port_and_busy :
    pick faultOut (step (script [.write .consumer 1 0x04 9] boot)) = some (true, .fPort, 4) ∧
    pick faultOut (step (script [.write .producer 4 0 0x10] (asleep 10))) = some (true, .fBusy, 0x10) ∧
    boot.fault = false ∧ (asleep 10).fault = false := by decide
theorem witness_faults_speed_and_full :
    pick faultOut (step (script [.write .producer 4 0 0x11] (pArgs 0 0 0x80000000 0 boot))) =
      some (true, .fSpeed, 0x80000000) ∧
    pick faultOut (step (script [.write .producer 4 0 0x20] (ready 1 1 wrapped))) = some (true, .fRbFull, 1) ∧
    (ready 1 1 wrapped).fault = false := by decide
theorem witness_RegisterReadChangesNothing :
    Enabled (script [.read .producer 4 0x00] boot) .producer (.read .producer 4 0x00) [] ∧
    Enabled (script [.read .consumer 4 0xFC] boot) .consumer (.read .consumer 4 0xFC) [] := by decide
theorem witness_ArgWritesStoreOthersIgnored_producer :
    Enabled (script [.write .producer 4 0x04 7] boot) .producer (.write .producer 4 0x04 7) [] ∧
    Enabled (script [.write .producer 4 0x08 7] boot) .producer (.write .producer 4 0x08 7) [] ∧
    Enabled (script [.write .producer 4 0x0C 7] boot) .producer (.write .producer 4 0x0C 7) [] ∧
    Enabled (script [.write .producer 4 0x10 7] boot) .producer (.write .producer 4 0x10 7) [] ∧
    Enabled (script [.write .producer 4 0x14 7] boot) .producer (.write .producer 4 0x14 7) [] ∧
    Enabled (script [.write .producer 4 0xFC 7] boot) .producer (.write .producer 4 0xFC 7) [] := by decide
theorem witness_ArgWritesStoreOthersIgnored_consumer :
    Enabled (script [.write .consumer 4 0x04 7] boot) .consumer (.write .consumer 4 0x04 7) [] ∧
    Enabled (script [.write .consumer 4 0x08 7] boot) .consumer (.write .consumer 4 0x08 7) [] ∧
    Enabled (script [.write .consumer 4 0x0C 7] boot) .consumer (.write .consumer 4 0x0C 7) [] ∧
    Enabled (script [.write .consumer 4 0xFC 7] boot) .consumer (.write .consumer 4 0xFC 7) [] := by decide
theorem witness_ViewsShowState : (ready 44100 48000 wrapped).Inv ∧ (ready 44100 48000 wrapped).ring.cap < 2 ^ 32 ∧
    (ready 44100 48000 wrapped).iphase = .idle := by decide
theorem witness_ViewsShowState_asleep : (asleep 10).Inv ∧ (asleep 10).iphase = .sleeping 10 0x1000 4 ∧
    (readReg .producer 0x54 (asleep 10)).toNat = 10 := by decide
/-- The first and the last reserved offset of each port above its registers (30_encoding.md R124). -/
theorem witness_ViewsShowState_reserved :
    (0x58 : Word).toNat % 4 = 0 ∧ 0x58 ≤ (0x58 : Word).toNat ∧ (0x28 : Word).toNat % 4 = 0 ∧
    0x28 ≤ (0x28 : Word).toNat ∧ (0xFC : Word).toNat % 4 = 0 ∧ (0xFC : Word).toNat ≤ 0xFC := by decide
theorem witness_StepFormulaAndRange :
    ((0xFFFFFFFF : Word).toInt ≤ 0) ∧
    (0 < (1 : Word).toInt ∧ 0 < (65537 : Word).toInt ∧ (1 : Word).toInt * 65536 / (65537 : Word).toInt = 0) ∧
    (0 < (0x7FFFFFFF : Word).toInt ∧ (0x7FFFFFFF : Word).toInt * 65536 / (1 : Word).toInt ≠ 0) := by decide
theorem witness_AdjStepIsClampedProduct : adjStep 1 1 = 1 ∧ adjStep 3 32768 = 1 ∧ adjStep 3 131072 = 6 := by decide
theorem witness_InterpolationStrictlyBetween :
    (0 : Nat) < 65536 ∧ (65535 : Nat) < 65536 ∧
    lerp 0 100 32768 = 50 ∧ lerp 100 0 32768 = 50 := by decide
theorem witness_RsInitResult : boot.estate ≠ .shutdown ∧
    ({ boot with estate := EngineState.shutdown } : State).estate = .shutdown := by decide
theorem witness_engine_states : (ready 1 1 wrapped).estate = .ready ∧
    ({ ready 1 1 wrapped with estate := .resized } : State).estate = .resized ∧ boot.estate = .uninit := by decide
theorem witness_RsEstimateResult :
    (0 < (pArgs 5 1 0 0 boot).pport.arg1.toInt ∧ boot.estate ≠ .shutdown ∧ boot.fault = false) ∧
    (pArgs 5 0 0 0 boot).pport.arg1.toInt ≤ 0 := by decide
/-- Speed 1 and the whole of host memory from 0x1000 on; speed 0; and a count of 0. -/
theorem witness_RsResampleResult :
    (0 < (pArgs 0x1000 0x3FFFFC00 1 0 boot).pport.arg2.toInt ∧
      rangeOK boot.env (0x1000 : Word).toNat (0x3FFFFC00 : Word).toNat = true) ∧
    ((pArgs 0x1000 3 0 0 boot).pport.arg2.toInt ≤ 0 ∧ boot.fault = false) ∧
    rangeOK boot.env (0xFFFFFFFF : Word).toNat (0 : Word).toNat = true := by decide
/-- The dry run of the same operands, and an RS.RESAMPLE that consumes all of its frames. -/
theorem witness_RsResampleDryResult :
    (0 < (pArgs 0x1000 2 1 0 boot).pport.arg2.toInt ∧ rangeOK boot.env 0x1000 2 = true) ∧
    pick (fun s => s.pport.res1)
      (exec .rsResample (pArgs 0x1000 2 1 0 (ready 24000 48000 (ringOf 16 [])))) = some 2 ∧
    (pArgs 0x1000 2 0x80000000 0 boot).pport.arg2.toInt ≤ 0 ∧
    ({ boot with estate := EngineState.shutdown } : State).estate = .shutdown := by decide
/-- On a full ring the dry run counts what RS.RESAMPLE could not write (41_resampler.md R164). -/
theorem witness_RsResampleDryResult_full :
    pick (fun s => (s.pport.res0, s.pport.res1))
      (exec .rsResampleDry (pArgs 0x1000 2 65536 0 (ready 24000 48000 wrapped))) = some (2, 2) ∧
    pick (fun s => (s.pport.res0, s.pport.res1))
      (exec .rsResample (pArgs 0x1000 2 65536 0 (ready 24000 48000 wrapped))) = some (0, 1) := by decide
/-- One frame too many for the address space; a stuck producer and a stuck consumer. -/
theorem witness_UnadmittedRangeIsStuck :
    rangeOK boot.env (0x1000 : Word).toNat (0x3FFFFC01 : Word).toNat = false ∧
    (ready 1 1 wrapped).consEn = true ∧
    (stuckOf .producer { boot with pStuck := true } = true ∧
      stuckOf .consumer { boot with pStuck := true } = false) ∧
    (stuckOf .consumer { boot with cStuck := true } = true ∧
      stuckOf .producer { boot with cStuck := true } = false ∧
      ({ boot with cStuck := true } : State).iphase = .idle) := by
  decide
/-- ENG.INGEST of one frame at the last address: it has space in its start section, and a Wake has spent the
budget. -/
theorem witness_UnadmittedRangeIsStuck_ingest :
    (estimate 48000 48000 1 (rateAdj 0) ≤ (ringOf 8 []).cap - 1 - (ringOf 8 []).occ ∧
      (ringOf 8 []).occ * 65536 / (ringOf 8 []).cap = 0 ∧ (ringOf 8 []).cap ≠ 0) ∧
    rangeOK boot.env (0xFFFFFFFF : Word).toNat (1 : Word).toNat = false ∧ prm.retryMax ≤ 10 ∧
    pick (fun s => (s.pStuck, s.iphase.busy))
      (exec .engIngest (pArgs 0xFFFFFFFF 1 0 0 (ready 48000 48000 (ringOf 8 [])))) = some (true, false) ∧
    pick (fun s => (s.pStuck, s.iphase.busy))
      (step (script [.wake] { asleep 10 with iphase := .sleeping 10 0xFFFFFFFF 4 })) = some (true, true) := by
  decide
/-- Each kind of step of the agent beside a stuck one: an access either way, and the Wake. -/
theorem witness_UnadmittedRangeIsStuck_other_agent :
    Enabled (script [.read .consumer 4 0x1C] { boot with pStuck := true }) .consumer (.read .consumer 4 0x1C) [] ∧
    Enabled (script [.write .consumer 4 0 0x43] { boot with pStuck := true }) .consumer
      (.write .consumer 4 0 0x43) [] ∧
    Enabled (script [.write .producer 4 0 0x10] { boot with cStuck := true }) .producer
      (.write .producer 4 0 0x10) [] ∧
    Enabled (script [.wake] { asleep 1 with cStuck := true }) .producer .wake [] := by decide
/-- A dry run consumes all; a run over a full ring stops after the bootstrap. -/
theorem witness_CoreCountsBounded :
    (coreFrames .dry 32768 [fr 0 0, fr 1 1] (CoreRun.fresh RingState.absent)).consumed = 2 ∧
    (coreFrames .ring 32768 [fr 0 0, fr 1 1] (CoreRun.fresh wrapped)).consumed = 1 := by decide
theorem witness_ChunkingInvariance_core :
    ([[fr 0 0], [fr 1 1, fr 2 2]].foldl (fun e xs => coreFrames .ring 32768 xs e)
      (CoreRun.fresh (ringOf 16 []))).consumed = 3 := by decide
theorem witness_ChunkingInvariance_commands :
    pick (fun s => s.pport.res1)
      (exec .rsResample (pArgs 0x1000 2 65536 0 ((ready 24000 48000 (ringOf 16 [])).withMem ramp))) = some 2 ∧
    rangeOK boot.env 0x1000 2 = true ∧ rangeOK boot.env 0x1008 1 = true ∧ rangeOK boot.env 0x1000 3 = true := by
  decide
/-- A run that stops: of three frames two are consumed, and the ring is full. -/
theorem witness_StoppedResampleResumes :
    (ringOf 4 []).Wf 4 ∧
    (coreFrames .ring 32768 [fr 0 0, fr 100 (-100), fr 200 (-200)] (CoreRun.fresh (ringOf 4 []))).consumed = 2 := by
  decide
theorem witness_StreamClosedForm :
    (coreFrames .dry 60211 [fr 0 0, fr 1 1, fr 2 2, fr 3 3, fr 4 4] (CoreRun.fresh RingState.absent)).fp = 38911 ∧
    (coreFrames .dry 1 [fr 0 0] (CoreRun.fresh RingState.absent)).written = 0 := by decide
/-- The smallest input the rule speaks of at equal rates, and at 44100 to 48000. -/
theorem witness_RateCorrectness :
    (1000 ≤ 48000 * 65536 / 48000 ∧ 1000 * 48000 ≤ 1000 * 48000) ∧
    (1000 ≤ 44100 * 65536 / 48000 ∧ 500 ≤ 919 ∧ 1000 * 44100 ≤ 919 * 48000) ∧
    (List.replicate 1000 (fr 1 1)).length = 1000 :=
  ⟨by decide, by decide, List.length_replicate⟩
theorem witness_PassthroughIdentity : 0 < (48000 : Word).toInt ∧
    ((CoreRun.fresh RingState.absent).bootstrap (fr 5 5)).hp = true ∧
    ((CoreRun.fresh RingState.absent).bootstrap (fr 5 5)).fp = 0 := by decide
theorem witness_RbWriteResult :
    (ringOf 4 []).cap ≠ 0 ∧ ((ringOf 4 []).w + 1) % (ringOf 4 []).cap ≠ (ringOf 4 []).r ∧
    (wrapped.w + 1) % wrapped.cap = wrapped.r ∧ wrapped.w < 2 ^ 32 ∧ RingState.absent.cap = 0 := by decide
theorem witness_RbReadResult : (ready 1 1 (ringOf 4 [])).ring.occ = 0 ∧ (ready 1 1 wrapped).ring.occ ≠ 0 := by decide
theorem witness_RbFillResult_and_OccupancyPercentResult :
    (ready 1 1 wrapped).ring.Wf (ready 1 1 wrapped).env.params.nMax ∧
    (ready 1 1 RingState.absent).ring.Wf (ready 1 1 RingState.absent).env.params.nMax ∧
    (ready 1 1 wrapped).estate ≠ .shutdown := by decide
/-- Rings at the ends of the invariant: absent, N = 2 empty, N = 4 full and wrapped. -/
theorem witness_ring_invariant :
    RingState.absent.Wf 2 ∧ (ringOf 2 []).Wf 2 ∧ wrapped.Wf 4 ∧ 2 ≤ wrapped.cap ∧ wrapped.full = true ∧
    (ringOf 2 []).full = false := by decide
theorem witness_FreeSpaceCountsWrites : (ringOf 4 []).Wf 4 ∧ [fr 1 1, fr 2 2, fr 3 3].length = (ringOf 4 []).freeSpace := by
  decide
theorem witness_RingIsFifo : wrapped.Wf 4 ∧ wrapped.contents = [fr 3 3, fr 4 4, fr 1 1] ∧
    wrapped.pop = some (fr 3 3, { wrapped with r := 3 }) := by decide
theorem witness_FillReadBoundsFreeSpace : wrapped.Wf 4 ∧ 2 ≤ wrapped.cap ∧ wrapped.fillFx = 49152 ∧
    (ringOf 2 []).fillFx = 0 := by decide
theorem witness_LerpStaysBetween : lerp (-32768) 32767 65535 = 32766 ∧ lerp 32767 (-32768) 65535 = -32768 ∧
    lerp 5 5 40000 = 5 := by decide
theorem witness_RateAdjTable : rateAdj (0 + 15) = rateAdj 0 + 1 ∧ rateAdj (19645 + 15) = rateAdj 19645 + 1 ∧
    rateAdj (45876 + 15) = rateAdj 45876 + 1 ∧ rateAdj (65521 + 15) = rateAdj 65521 + 1 := by decide
theorem witness_CapacityFormula : capacityOf 8 2 1 1 = some 2 ∧ capacityOf 8 8 1 1 = some 8 ∧
    capacityOf 8 9 1 1 = none ∧ capacityOf 8 1 1 1 = none := by decide
theorem witness_EngInitResult :
    capacityOf prm.nMax (48000 : Word).toInt (3932160 : Word).toNat (656 : Word).toNat = some 8 ∧
    capacityOf prm.nMax (0 : Word).toInt (3932160 : Word).toNat (656 : Word).toNat = none ∧
    ({ boot.env with grants := [48000] } : Env).grants = 48000 :: [] := by decide
theorem witness_EngResizeResult :
    capacityOf prm.nMax (48000 : Word).toInt (3932160 : Word).toNat (656 : Word).toNat = some 8 ∧
    capacityOf prm.nMax (48000 : Word).toInt (3932160 : Word).toNat (1 : Word).toNat = none := by decide
theorem witness_EngQuitResult :
    ({ boot with estate := EngineState.shutdown } : State).estate = .shutdown ∧ boot.consEn = false := by decide
/-- Program P4's attempt 0 sleeps (need 4, free 3); with an empty ring the need fits. -/
theorem witness_IngestSleepsOrResamples :
    wrapped.cap - 1 - wrapped.occ < estimate 48000 48000 4 (rateAdj (wrapped.occ * 65536 / wrapped.cap)) ∧
    0 < prm.retryMax ∧
    estimate 48000 48000 4 (rateAdj ((ringOf 8 []).occ * 65536 / (ringOf 8 []).cap)) ≤ (ringOf 8 []).cap - 1 - 0 ∧
    rangeOK boot.env 0x1000 4 = true ∧ (ready 48000 48000 wrapped).ring.cap ≠ 0 := by decide
/-- The Wake: the ninth sleep leads to the tenth, and the tenth to the final attempt, on an admitted range and on
another. -/
theorem witness_IngestSleepsOrResamples_wake :
    Enabled (script [.wake] (asleep 9)) .producer .wake [] ∧
    pick (fun s => s.iphase) (step (script [.wake] (asleep 9))) = some (.sleeping 10 0x1000 4) ∧
    pick (fun s => (s.iphase, s.pport.res0, s.pport.res1)) (step (script [.wake] (asleep 10))) =
      some (.idle, 1, 0) ∧
    rangeOK (asleep 10).env 0x1000 4 = true ∧ rangeOK (asleep 10).env 0xFFFFFFFF 4 = false := by decide
theorem witness_IngestAbsentStoreReturnsZero : (ready 1 1 RingState.absent).ring.cap = 0 := by decide
theorem witness_IngestEndsWithinBudget_last_sleep : (asleep 10).Inv ∧ (asleep 10).env.script = [] := by decide
theorem witness_IngestEndsWithinBudget : (asleep 1).Inv ∧ (asleep 1).fault = false ∧
    (asleep 1).pStuck = false ∧ (asleep 1).env.script = [] ∧ rangeOK (asleep 1).env 0x1000 4 = true := by decide
/-- A range that ends with the address space, and addresses on both sides of one. -/
theorem witness_PullResultAndFrame : (ready 1 1 wrapped).consEn = true ∧ boot.consEn = false ∧
    rangeOK boot.env (0xFFFFFFFC : Word).toNat (1 : Word).toNat = true ∧ 0xFFFFFFFB < (0xFFFFFFFC : Word).toNat := by
  decide
theorem witness_PullServesFifoThenRepeats :
    (cArgs 0x2000 4 (ready 48000 48000 wrapped)).Inv ∧ rangeOK boot.env 0x2000 4 = true ∧
    pick (fun s => s.ring.occ) (exec .engPull (cArgs 0x2000 4 (ready 48000 48000 wrapped))) = some 0 ∧
    pick (fun s => s.ring.occ) (exec .engPull (cArgs 0x2000 0 (ready 48000 48000 wrapped))) = some 3 := by decide
/-- Each transition of 44_engine.md R273, as a step. -/
theorem witness_EngineTransitions :
    pick (fun s => s.estate) (step (script [.write .producer 4 0 0x40] (pArgs 48000 48000 3932160 656 boot))) =
      some .ready ∧
    pick (fun s => s.estate)
      (step (script [.write .producer 4 0 0x41] (pArgs 48000 3932160 656 0 (ready 1 1 wrapped)))) = some .resized ∧
    pick (fun s => s.estate) (step (script [.write .producer 4 0 0x46] (ready 1 1 wrapped))) = some .shutdown ∧
    pick (fun s => s.estate) (step (script [.powerOn] (ready 1 1 wrapped))) = some .uninit := by decide
theorem witness_OnlyPullTouchesLastReadAndMemory :
    pick (fun s => (s.lastRead, s.hasLast, s.env.mem))
      (step (script [.write .consumer 4 0 0x43] (cArgs 0x2000 1 (ready 1 1 wrapped)))) =
      some (fr 3 3, true, [(0x2000, 3), (0x2002, 3)]) ∧
    pick (fun s => s.env.mem) (step (script [.hostWrite 0x10 1] boot)) = some [(0x10, 1)] := by decide
theorem witness_PortIsolation :
    pick (fun s => s.ring.r) (step (script [.write .consumer 4 0 0x21] (asleep 1))) = some 3 ∧
    pick (fun s => s.ring.r) (step (script [.write .producer 4 0 0x45] (ready 1 1 wrapped))) = some 2 ∧
    pick (fun s => s.ring.r) (step (script [.wake] (asleep 1))) = some 2 := by decide
theorem witness_HostWordReadAfterWrite : Memory.wf ramp = true ∧ 0xFFFFFFFC + 4 ≤ 2 ^ 32 ∧
    memRead32 (memWrite32 ramp 0xFFFFFFFC 0x01020304) 0xFFFFFFFC = 0x01020304 ∧
    (readFrames ramp 0x1000 4)[3]? = some (fr 300 (-300)) := by decide

end Sys2Proof.Tests
end

section
/-! SUPPORT. What a command, a section and a step of the machine can do, each said once as a relation with one
constructor for each kind of effect, and the proof that `exec` and `step` do nothing else. The statements about
every step (the invariant, the frames of the two ports) are case splits over these relations. -/

namespace Sys2Proof.Machine

/-! ### The decoder, backwards -/

theorem decodeOpcode_ok {o : Nat} {i : Instr} (h : decodeOpcode o = .ok i) : o = (opcodeOf i).toNat := by
  unfold decodeOpcode at h
  split at h <;> cases h <;> rfl

/-- A legal word is the word of the command it decodes to (30_encoding.md R123): each command has one word. -/
theorem eq_encode_of_decode {c : Word} {i : Instr} (h : decode c = .ok i) : c = encode i := by
  unfold decode at h
  split at h
  next hrsv =>
    have hopc : c.extractLsb' 0 8 = opcodeOf i := BitVec.eq_of_toNat_eq (decodeOpcode_ok h)
    calc c = c.extractLsb' 8 24 ++ c.extractLsb' 0 8 :=
          (BitVec.extractLsb'_append_extractLsb' (w := 24) (len := 8)).symm
      _ = encode i := by rw [hrsv, hopc]; rfl
  next => cases h

/-! ### What a command can do -/

/-- The commands that replace the ring's store or drop it: the sizings and ENG.QUIT (10_state.md R45). -/
def ReplacesStore (i : Instr) : Prop := i = .engInit ∨ i = .engResize ∨ i = .engQuit

/-- What ENG.PULL's loop starts from (44_engine.md R265). -/
def pullStart (s : State) : PullRun :=
  { ring := s.ring, lastRead := s.lastRead, hasLast := s.hasLast, mem := s.env.mem }

/-- The kinds of effect a command's section has, whatever it writes to its own port's registers. `ENG.INGEST`
stands for its start section and for its Wake sections. -/
inductive CommandEffect (s : State) : Instr → State → Prop
  /-- the engine state admits no such command (44_engine.md R274) -/
  | notRun (i : Instr) : CommandEffect s i (s.withCode (portOf i) .errState)
  /-- F_SPEED or F_RB_FULL, raised by producer commands only (60_exceptions.md R306) -/
  | faulted (i : Instr) (c : FaultCause) (v : Word) (hp : portOf i = .producer) (hc : c ≠ .none) :
      CommandEffect s i (raiseFault c v s)
  /-- a host range that is not admitted (60_exceptions.md R308) -/
  | stalled (i : Instr) : CommandEffect s i (s.stall (portOf i))
  /-- a producer command that only computes a result -/
  | answered (i : Instr) (pp : ProducerPort) (hp : portOf i = .producer) : CommandEffect s i { s with pport := pp }
  /-- RS.INIT, RS.RESET, ENG.RESET -/
  | resamplerSet (i : Instr) (x : ResamplerState) (pp : ProducerPort) (hp : portOf i = .producer)
      (hx : s.rs.Wf → x.Wf) : CommandEffect s i { s with rs := x, pport := pp }
  /-- RS.RESAMPLE, and the final resample of ENG.INGEST, which ends its sleep -/
  | resampled (i : Instr) (src count speed : Nat) (pp : ProducerPort) (ph : IngestPhase) (hp : portOf i = .producer)
      (hph : ph = s.iphase ∨ ph = .idle) :
      CommandEffect s i
        { s.commitCore (resampleCore .ring src count speed s) with pport := pp, iphase := ph }
  /-- one more sleep of ENG.INGEST (44_engine.md R260), from its start section or from an earlier sleep -/
  | slept (k : Nat) (src count : Word) (hk : k < s.env.params.retryMax)
      (hs : s.iphase.busy = true ∨ (engineRuns s = true ∧ s.ring.cap ≠ 0)) :
      CommandEffect s .engIngest { s with iphase := .sleeping (k + 1) src count }
  | ringWritten (f : Frame) (pp : ProducerPort) (hf : s.ring.full = false) :
      CommandEffect s .rbWrite { s with ring := s.ring.push f, pport := pp }
  | ringEmpty (cp : ConsumerPort) : CommandEffect s .rbRead { s with cport := cp }
  | ringRead (f : Frame) (g : RingState) (cp : ConsumerPort) (hg : s.ring.pop = some (f, g)) :
      CommandEffect s .rbRead { s with ring := g, cport := cp }
  | pulled (dst n : Nat) (q : PullRun) (cp : ConsumerPort) (hr : dst + 4 * n ≤ 2 ^ 32)
      (hq : q = pullLoop n dst (pullStart s)) :
      CommandEffect s .engPull
        { s with
          ring := q.ring, lastRead := q.lastRead, hasLast := q.hasLast, env := { s.env with mem := q.mem }
          cport := cp }
  | engineBuilt (i o : Word) (drive bufsec : Nat) (pp : ProducerPort) :
      CommandEffect s .engInit
        { s with
          rs := freshResampler i o, ring := ringAfterSizing (capacityOf s.env.params.nMax (sext32 i) drive bufsec)
          consEn := true, estate := .ready, env := s.env.drawn, pport := pp }
  | engineResized (i : Word) (drive bufsec n : Nat) (pp : ProducerPort) (hs : engineRuns s = true)
      (hn : capacityOf s.env.params.nMax (sext32 i) drive bufsec = some n) :
      CommandEffect s .engResize
        { s with ring := RingState.sized n, rs := freshResampler i s.rs.outRate, estate := .resized, pport := pp }
  | resizeFailed (pp : ProducerPort) : CommandEffect s .engResize { s with ring := RingState.absent, pport := pp }
  | engineQuit (pp : ProducerPort) :
      CommandEffect s .engQuit
        { s with consEn := false, ring := RingState.absent, estate := .shutdown, pport := pp }

/-! ### Every command does one of these -/

theorem freshResampler_wf (i o : Word) : (freshResampler i o).Wf :=
  ⟨rfl, by simp [freshResampler], fun _ => ⟨rfl, rfl⟩⟩

theorem ResamplerState.resetPhase_wf {x : ResamplerState} (h : x.Wf) : x.resetPhase.Wf :=
  have ⟨hstep, _⟩ := h
  ⟨hstep, by simp [ResamplerState.resetPhase], fun _ => ⟨rfl, rfl⟩⟩

theorem rangeOK_end_le {e : Env} {a n : Word} (h : rangeOK e (zext32 a) (zext32 n) = true) :
    zext32 a + 4 * zext32 n ≤ 2 ^ 32 := by
  have ha : zext32 a < 2 ^ 32 := a.isLt
  simp only [rangeOK, Bool.or_eq_true, beq_iff_eq, Bool.and_eq_true, decide_eq_true_eq] at h
  omega

/-- A command that runs in some engine states only does what its body does, or is not run. -/
theorem CommandEffect.of_whenRuns {i : Instr} {runs : Bool} {s t : State} {body : Result}
    (h : whenRuns (portOf i) runs s body = .next t)
    (hbody : runs = true → body = .next t → CommandEffect s i t) : CommandEffect s i t := by
  obtain ⟨-, rfl⟩ | ⟨hr, h⟩ := whenRuns_next h
  · exact .notRun i
  · exact hbody hr h

/-- An attempt of ENG.INGEST, in its start section or at a Wake. -/
theorem ingestAttempt_effect {k : Nat} {src count : Word} {s t : State} (h : ingestAttempt k src count s = .next t)
    (hs : s.iphase.busy = true ∨ (engineRuns s = true ∧ s.ring.cap ≠ 0)) : CommandEffect s .engIngest t := by
  obtain ⟨-, hk, he⟩ | ⟨-, -, he⟩ | ⟨-, -, he⟩ := ingestAttempt_eq k src count s <;> cases he.symm.trans h
  · exact .slept k src count hk hs
  · exact .resampled _ _ _ _ _ _ rfl (.inr rfl)
  · exact .stalled .engIngest

/-- A command does one of the effects above. -/
theorem exec_effect {i : Instr} {s t : State} (h : exec i s = .next t) : CommandEffect s i t := by
  cases i <;> refine CommandEffect.of_whenRuns h fun hr h => ?_
  case rsInit => cases h; exact .resamplerSet _ _ _ rfl fun _ => freshResampler_wf _ _
  case rsReset => cases h; exact .resamplerSet _ _ _ rfl ResamplerState.resetPhase_wf
  case engReset => cases h; exact .resamplerSet _ _ _ rfl ResamplerState.resetPhase_wf
  case rsIsNeeded => cases h; exact .answered _ _ rfl
  case rbFill => cases h; exact .answered _ _ rfl
  case rcAdjust => cases h; exact .answered _ _ rfl
  case engOccupancy => cases h; exact .answered _ _ rfl
  case rsResample =>
    split at h
    · cases h; exact .faulted _ _ _ rfl nofun
    · split at h <;> cases h
      · exact .resampled _ _ _ _ _ _ rfl (.inl rfl)
      · exact .stalled .rsResample
  case rsResampleDry =>
    split at h
    · cases h; exact .faulted _ _ _ rfl nofun
    · split at h <;> cases h
      · exact .answered _ _ rfl
      · exact .stalled .rsResampleDry
  case rsEstimate =>
    split at h <;> cases h
    · exact .faulted _ _ _ rfl nofun
    · exact .answered _ _ rfl
  case rbWrite =>
    split at h <;> cases h
    · exact .faulted _ _ _ rfl nofun
    · exact .ringWritten _ _ (by simpa using ‹¬ s.ring.full = true›)
  case rbRead =>
    split at h <;> cases h
    · exact .ringEmpty _
    · exact .ringRead _ _ _ ‹_›
  case engInit => cases h; exact .engineBuilt _ _ _ _ _
  case engResize =>
    split at h <;> cases h
    · exact .engineResized _ _ _ _ _ hr ‹_›
    · exact .resizeFailed _
  case engIngest =>
    split at h
    · cases h; exact .answered _ _ rfl
    · exact ingestAttempt_effect h (.inr ⟨hr, ‹_›⟩)
  case engPull =>
    split at h <;> cases h
    · exact .pulled _ _ _ _ (rangeOK_end_le ‹_›) rfl
    · exact .stalled .engPull
  case engQuit => cases h; exact .engineQuit _

/-! ### What a section and a step can do -/

/-- The kinds of effect one atomic section of an agent has (20_memory.md R92). -/
inductive SectionEffect (s : State) : Input → State → Prop
  /-- a command word written to CMD of its own port, which is not busy (30_encoding.md R134) -/
  | issued (i : Instr) (t : State) (hb : busyOf (portOf i) s = false) (he : CommandEffect s i t) :
      SectionEffect s (.write (portOf i) 4 0 (encode i)) t
  | woken (t : State) (he : CommandEffect s .engIngest t) : SectionEffect s .wake t
  /-- ERR_ILLEGAL and ERR_PORT -/
  | refusedWord (p : Port) (width : Nat) (off v : Word) (c : Code) :
      SectionEffect s (.write p width off v) (s.withCode p c)
  | stored (p : Port) (width : Nat) (off v : Word) : SectionEffect s (.write p width off v) (writeReg p off v s)
  | returned (p : Port) (width : Nat) (off v : Word) : SectionEffect s (.read p width off) (s.withBus p v)
  /-- F_PORT and F_BUSY -/
  | faulted (x : Input) (c : FaultCause) (v : Word) (hc : c ≠ .none) : SectionEffect s x (raiseFault c v s)

/-- The kinds of step. A Wake is the next action, or the one step left when there is none (log 8). -/
inductive StepEffect (s : State) : State → Prop
  | final (hs : s.env.script = []) : StepEffect s s
  | reset (rest : List Input) (hs : s.env.script = .powerOn :: rest) : StepEffect s (powerOn (s.withScript rest))
  | hostWrite (a : Word) (b : Byte) (rest : List Input) (hs : s.env.script = .hostWrite a b :: rest) :
      StepEffect s (hostStore a b (s.withScript rest))
  | agent (p : Port) (x : Input) (rest : List Input) (u : State)
      (hs : s.env.script = x :: rest ∨ (s.env.script = [] ∧ x = .wake)) (hf : s.fault = false) (hl : s.lock = .free)
      (he : SectionEffect ((s.withScript rest).acquire p) x u) : StepEffect s u.release

theorem accessOK_width {width : Nat} {off : Word} (h : accessOK width off = true) : width = 4 := by
  simp only [accessOK, Bool.and_eq_true, beq_iff_eq] at h
  obtain ⟨⟨hwidth, -⟩, -⟩ := h
  exact hwidth

theorem readAccess_effect {p : Port} {width : Nat} {off : Word} {s t : State}
    (h : readAccess p width off s = .next t) : SectionEffect s (.read p width off) t := by
  obtain ⟨-, rfl⟩ | ⟨-, rfl⟩ := readAccess_next h
  · exact .returned p width off _
  · exact .faulted _ _ _ nofun

theorem issue_effect {p : Port} {c : Word} {s t : State} (h : issue p c s = .next t) :
    SectionEffect s (.write p 4 0 c) t := by
  obtain ⟨-, rfl⟩ | ⟨-, -, rfl⟩ | ⟨-, _, -, -, rfl⟩ | ⟨hb, i, hi, rfl, he⟩ := issue_next h
  · exact .faulted _ _ _ nofun
  · exact .refusedWord p 4 0 c _
  · exact .refusedWord p 4 0 c _
  · rw [eq_encode_of_decode hi]
    exact .issued i t hb (exec_effect he)

theorem writeAccess_effect {p : Port} {width : Nat} {off v : Word} {s t : State}
    (h : writeAccess p width off v s = .next t) : SectionEffect s (.write p width off v) t := by
  obtain ⟨hok, rfl, hi⟩ | ⟨-, -, rfl⟩ | ⟨-, rfl⟩ := writeAccess_next h
  · rw [accessOK_width hok]
    exact issue_effect hi
  · exact .stored p width off v
  · exact .faulted _ _ _ nofun

theorem ingestWake_effect {s t : State} (h : ingestWake s = .next t) : SectionEffect s .wake t := by
  unfold ingestWake at h
  split at h
  · cases h
  · exact .woken t (ingestAttempt_effect h (.inl (by simp [*, IngestPhase.busy])))

/-- A step does one of the effects above. -/
theorem step_effect {s t : State} (h : step s = .next t) : StepEffect s t := by
  obtain ⟨hs, hf, -, -, hl, u, hu, rfl⟩ | ⟨hs, -, -, -, -, rfl⟩ | ⟨rest, hs, rfl⟩ | ⟨a, b, rest, hs, rfl⟩ |
    ⟨rest, hs, hf, -, hl, u, hu, rfl⟩ | ⟨p, width, off, rest, hs, hf, -, hl, u, hu, rfl⟩ |
    ⟨p, width, off, v, rest, hs, hf, -, hl, u, hu, rfl⟩ := step_next h
  · exact .agent .producer .wake s.env.script u (.inr ⟨hs, rfl⟩) hf hl (ingestWake_effect hu)
  · exact .final hs
  · exact .reset rest hs
  · exact .hostWrite a b rest hs
  · exact .agent .producer .wake rest u (.inl hs) hf hl (ingestWake_effect hu)
  · exact .agent p _ rest u (.inl hs) hf hl (readAccess_effect hu)
  · exact .agent p _ rest u (.inl hs) hf hl (writeAccess_effect hu)

end Sys2Proof.Machine
end

section
/-! PROOF. The machine's invariant (10_state.md R39 to R49): the reset state meets it and every step keeps it.
Inside a section the lock is held, so what a command keeps is the invariant of the state with the lock released. -/

namespace Sys2Proof.Machine

/-! ### The resample core and the ring -/

theorem RingState.eq_absent_of_cap_eq_zero {nMax : Nat} {g : RingState} (h : g.Wf nMax) (h0 : g.cap = 0) :
    g = RingState.absent := by
  rcases h with rfl | ⟨h2, _⟩
  · rfl
  · omega

theorem RingState.pop_wf {nMax : Nat} {g g' : RingState} {f : Frame} (h : g.Wf nMax) (hp : g.pop = some (f, g')) :
    g'.Wf nMax ∧ g'.cap = g.cap :=
  ⟨(RingState.pop_spec h hp).1, by rw [RingState.pop_eq hp]⟩

/-- What a run of the core from a state commits: the ring's invariant and capacity, and the resampler's invariant,
since the adjusted step is at most twice the step (10_state.md R40). -/
theorem resampleCore_wf {nMax : Nat} {s : State} (mode : CoreMode) (src count speed : Nat) (hr : s.ring.Wf nMax)
    (hx : s.rs.Wf) {c : CoreRun} (hc : c = resampleCore mode src count speed s) :
    c.ring.Wf nMax ∧ c.ring.cap = s.ring.cap ∧
      ({ s.rs with fracPos := c.fp, prev := c.pv, hasPrev := c.hp } : ResamplerState).Wf := by
  obtain ⟨hstep, hphase, hprev⟩ := hx
  have hpos : 1 ≤ s.rs.step := hstep ▸ stepOf_pos _ _
  have hle : adjStep s.rs.step speed ≤ max ONE (2 * s.rs.step) :=
    le_max_of_le_right (adjStep_le _ speed hpos)
  obtain ⟨hring, hfp, hp⟩ := coreFrames_wf mode _ (adjStep_pos s.rs.step speed) (le_max_left ONE _) hle
    (readFrames s.env.mem src count) (coreStart s) hr hphase hprev
  subst hc
  exact ⟨hring, coreFrames_cap _ _ _ _, hstep, hfp, hp⟩

/-! ### The invariant under the updates -/

section Updates

variable {s : State}

theorem inv_withCode (p : Port) (c : Code) (h : s.release.Inv) : (s.withCode p c).release.Inv := by
  cases p <;> exact h

theorem inv_stall (p : Port) (h : s.release.Inv) : (s.stall p).release.Inv := by
  cases p <;> exact h

theorem inv_withBus (p : Port) (v : Word) (h : s.release.Inv) : (s.withBus p v).release.Inv := by
  cases p <;> exact h

theorem inv_writeReg (p : Port) (off v : Word) (h : s.release.Inv) : (writeReg p off v s).release.Inv := by
  cases p
  · simp only [writeReg, writeProducer]; split <;> exact h
  · simp only [writeReg, writeConsumer]; split <;> exact h

theorem inv_raiseFault {c : FaultCause} (hc : c ≠ .none) (v : Word) (h : s.release.Inv) :
    (raiseFault c v s).release.Inv := by
  unfold raiseFault
  split
  · exact h
  · obtain ⟨hlock, hpar, hmem, hrs, hring, hcons, habs, hlast, hphase, -⟩ := h
    exact ⟨hlock, hpar, hmem, hrs, hring, hcons, habs, hlast, hphase, nofun, fun _ => hc⟩

theorem inv_withRs {x : ResamplerState} (hx : s.rs.Wf → x.Wf) (h : s.release.Inv) : (s.withRs x).release.Inv := by
  obtain ⟨hlock, hpar, hmem, hrs, hrest⟩ := h
  exact ⟨hlock, hpar, hmem, hx hrs, hrest⟩

/-- A ring of the same capacity: an absent store stays absent, and a sleep keeps its store. -/
theorem inv_withRing {g : RingState} (hg : g.Wf s.env.params.nMax) (hcap : g.cap = s.ring.cap)
    (h : s.release.Inv) : (s.withRing g).release.Inv := by
  obtain ⟨hlock, hpar, hmem, hrs, -, hcons, habs, hlast, hphase, hfault⟩ := h
  refine ⟨hlock, hpar, hmem, hrs, hg, hcons, fun hr => ?_, hlast, fun hb => ?_, hfault⟩
  · have hring : s.ring = RingState.absent := habs hr
    exact RingState.eq_absent_of_cap_eq_zero hg (hcap.trans (congrArg RingState.cap hring))
  · obtain ⟨h1, h2, hr, hc⟩ := hphase hb
    exact ⟨h1, h2, hr, hcap.symm ▸ hc⟩

theorem inv_idle (h : s.release.Inv) : ({ s with iphase := .idle } : State).release.Inv := by
  obtain ⟨hlock, hpar, hmem, hrs, hring, hcons, habs, hlast, -, hfault⟩ := h
  exact ⟨hlock, hpar, hmem, hrs, hring, hcons, habs, hlast, nofun, hfault⟩

/-- The engine rebuilt, resized or left while no ENG.INGEST sleeps: `consEn` and the ring agree with the new engine
state. -/
theorem inv_withEngine {e : EngineState} {b : Bool} {g : RingState} (hidle : s.iphase.busy = false)
    (hg : g.Wf s.env.params.nMax) (hb : b = engineRuns { s with estate := e }) (habs : b = false → g = RingState.absent)
    (h : s.release.Inv) : ({ s with estate := e, consEn := b, ring := g } : State).release.Inv := by
  obtain ⟨hlock, hpar, hmem, hrs, -, -, -, hlast, -, hfault⟩ := h
  refine ⟨hlock, hpar, hmem, hrs, hg, hb, fun hr => habs (hb.trans hr), hlast, fun hbusy => ?_, hfault⟩
  exact absurd (hidle.symm.trans hbusy) nofun

theorem reset_rs_wf : State.reset.rs.Wf := ⟨rfl, by simp [State.reset], fun _ => ⟨rfl, rfl⟩⟩

/-- Power-on reset reaches a state that meets the invariant from every state, faulted or with the lock held too, for
it reads of the state only the parameters and host memory. -/
theorem inv_powerOn (hpar : s.env.params.wellFormed = true) (hmem : Memory.wf s.env.mem = true) : (powerOn s).Inv :=
  ⟨rfl, hpar, hmem, reset_rs_wf, RingState.absent_wf _, rfl, fun _ => rfl, fun _ => rfl,
    nofun, fun _ => ⟨rfl, rfl⟩, nofun⟩

end Updates

theorem params_wellFormed : Config.params.wellFormed = true := by
  simp [Params.wellFormed, Config.params, Config.nMax]

/-- Settles O6: the reset state is what power-on reset makes of itself. -/
theorem resetMeetsInvariant : Obligations.ResetMeetsInvariant :=
  inv_powerOn (s := State.reset) params_wellFormed reset_mem_wf

/-! ### The invariant under the effects -/

/-- A command keeps the invariant, if no ENG.INGEST sleeps under a command that replaces the store. -/
theorem CommandEffect.inv {i : Instr} {s t : State} (he : CommandEffect s i t) (h : s.release.Inv)
    (hidle : ReplacesStore i → s.iphase.busy = false) : t.release.Inv := by
  have ⟨_, hpar, hmem, hrs, hring, hcons, habs, hlast, hphase, hfault⟩ := h
  cases he with
  | notRun => exact inv_withCode _ _ h
  | faulted _ c v _ hc => exact inv_raiseFault hc v h
  | stalled => exact inv_stall _ h
  | answered => exact h
  | resamplerSet _ x pp _ hx => exact inv_withRs (s := { s with pport := pp }) hx h
  | resampled _ src count speed pp ph _ hph =>
    obtain ⟨hg, hcap, hx⟩ := resampleCore_wf .ring src count speed hring hrs rfl
    have hcommit : (s.commitCore (resampleCore .ring src count speed s)).release.Inv :=
      inv_withRs (s := s.withRing (resampleCore .ring src count speed s).ring) (fun _ => hx) (inv_withRing hg hcap h)
    rcases hph with rfl | rfl
    · exact hcommit
    · exact inv_idle hcommit
  | slept k src count hk hs =>
    have hrun : engineRuns s = true ∧ 0 < s.ring.cap := by
      rcases hs with hb | ⟨hr, hc⟩
      · obtain ⟨-, -, hr, hc⟩ := hphase hb; exact ⟨hr, hc⟩
      · exact ⟨hr, Nat.pos_of_ne_zero hc⟩
    exact ⟨rfl, hpar, hmem, hrs, hring, hcons, habs, hlast, fun _ => ⟨Nat.succ_pos k, hk, hrun⟩, hfault⟩
  | ringWritten f pp hf => exact inv_withRing (RingState.push_wf f hring hf) rfl h
  | ringEmpty => exact h
  | ringRead f g cp hg =>
    obtain ⟨hwf, hcap⟩ := RingState.pop_wf hring hg
    exact inv_withRing hwf hcap h
  | pulled dst n q cp hr hq =>
    subst hq
    obtain ⟨hwf, hl⟩ := pullLoop_wf n dst (pullStart s) hring hlast
    have hcap := (pullLoop_ring n dst (pullStart s)).1
    obtain ⟨_, hpar, _, hrs, hg, hcons, habs, _, hphase, hfault⟩ := inv_withRing hwf hcap h
    exact ⟨rfl, hpar, pullLoop_mem_wf n dst (pullStart s) hmem hr, hrs, hg, hcons, habs, hl, hphase, hfault⟩
  | engineBuilt i o drive bufsec pp =>
    exact inv_withRs (fun _ => freshResampler_wf i o)
      (inv_withEngine (e := .ready) (b := true) (hidle (.inl rfl)) (ringAfterSizing_wf _ _ drive bufsec) rfl nofun h)
  | engineResized i drive bufsec n pp hs hn =>
    obtain ⟨h2, hle⟩ := capacityOf_bounds hn
    exact inv_withRs (fun _ => freshResampler_wf i _)
      (inv_withEngine (e := .resized) (b := s.consEn) (hidle (.inr (.inl rfl))) (RingState.sized_wf h2 hle)
        (hcons.trans hs) (fun hb => absurd ((hcons.trans hs).symm.trans hb) nofun) h)
  | resizeFailed pp =>
    exact inv_withEngine (e := s.estate) (b := s.consEn) (hidle (.inr (.inl rfl))) (RingState.absent_wf _) hcons
      (fun _ => rfl) h
  | engineQuit pp =>
    exact inv_withEngine (e := .shutdown) (b := false) (hidle (.inr (.inr rfl))) (RingState.absent_wf _) rfl
      (fun _ => rfl) h

/-- The commands that replace the store stand on the producer port, whose BUSY bit is the sleep. -/
theorem idle_of_replacesStore {i : Instr} {s : State} (hb : busyOf (portOf i) s = false) (hi : ReplacesStore i) :
    s.iphase.busy = false := by
  rcases hi with rfl | rfl | rfl <;> exact hb

theorem SectionEffect.inv {x : Input} {s t : State} (he : SectionEffect s x t) (h : s.release.Inv) : t.release.Inv := by
  cases he with
  | issued i t hb he => exact he.inv h (idle_of_replacesStore hb)
  | woken t he => exact he.inv h (by simp [ReplacesStore])
  | refusedWord => exact inv_withCode _ _ h
  | stored => exact inv_writeReg _ _ _ h
  | returned => exact inv_withBus _ _ h
  | faulted _ c v hc => exact inv_raiseFault hc v h

/-- Settles O7, by cases over what a step can do. -/
theorem stepKeepsInvariant : Obligations.StepKeepsInvariant := by
  intro s t h hst
  have ⟨hlock, hpar, hmem, hrest⟩ := h
  cases step_effect hst with
  | final => exact h
  | reset rest => exact inv_powerOn hpar hmem
  | hostWrite a b rest => exact ⟨hlock, hpar, hostStore_mem_wf a b (s.withScript rest) hmem, hrest⟩
  | agent p x rest u _ _ _ he => exact he.inv ⟨rfl, hpar, hmem, hrest⟩

end Sys2Proof.Machine
end

section
/-! PROOF. What no step touches: the parts of the state that ENG.PULL, the producer's steps and the consumer's steps
leave alone (10_state.md R45, R47; 60_exceptions.md R315). Each part is one tuple, so that a frame is one equation. -/

namespace Sys2Proof.Machine

/-- What ENG.PULL writes besides the read cursor: the last frame read and host memory (44_engine.md R265). -/
def State.pulledPart (s : State) : Frame × Bool × Memory := (s.lastRead, s.hasLast, s.env.mem)

/-- The consumer port's registers and its agent's last word read. -/
def State.consumerPart (s : State) : ConsumerPort × Word := (s.cport, s.env.cBus)

/-- What belongs to the producer alone: its registers and last word read, the engine, the resampler, `iphase`, and of
the ring all but the read cursor (60_exceptions.md R315). -/
def State.producerPart (s : State) :
    ProducerPort × EngineState × Bool × ResamplerState × IngestPhase × Word × Nat × List Frame × Nat :=
  (s.pport, s.estate, s.consEn, s.rs, s.iphase, s.env.pBus, s.ring.cap, s.ring.store, s.ring.w)

/-! ### The read cursor under the core -/

section CoreRing

variable {P : RingState → Prop} (hpush : ∀ g f, P g → P (g.push f))
include hpush

theorem emitLoop_ring_keeps (mode : CoreMode) (a : Nat) (x : Frame) (fuel : Nat) (c : CoreRun) (h : P c.ring) :
    P (emitLoop mode a x fuel c).1.ring := by
  induction fuel generalizing c with
  | zero => exact h
  | succ n ih =>
    have hemit : P (c.emit mode a x).ring := by
      rw [CoreRun.emit_ring]
      split
      · exact hpush _ _ h
      · exact h
    rw [emitLoop]
    split
    · split
      · exact h
      · exact ih _ hemit
    · exact h

/-- What every write keeps of a ring, the core keeps of it, for it touches the ring by writes only. -/
theorem coreFrames_ring_keeps (mode : CoreMode) (a : Nat) (xs : List Frame) (c : CoreRun) (h : P c.ring) :
    P (coreFrames mode a xs c).ring := by
  induction xs generalizing c with
  | nil => exact h
  | cons x xs ih =>
    cases hhp : c.hp with
    | true =>
      have hloop := emitLoop_ring_keeps hpush mode a x (ONE - c.fp) c h
      rw [coreFrames_cons_hp _ _ _ _ _ hhp]
      split
      · exact ih _ hloop
      · exact hloop
    | false =>
      rw [coreFrames_cons_boot _ _ _ _ _ hhp]
      exact ih _ h

end CoreRing

theorem coreFrames_r (mode : CoreMode) (a : Nat) (xs : List Frame) (c : CoreRun) :
    (coreFrames mode a xs c).ring.r = c.ring.r :=
  coreFrames_ring_keeps (P := fun g => g.r = c.ring.r) (fun _ _ h => h) mode a xs c rfl

/-! ### The frames of a command -/

section Commands

variable {i : Instr} {s t : State}

/-- Only ENG.PULL writes last_read, has_last or host memory. -/
theorem CommandEffect.pulledPart_eq (he : CommandEffect s i t) (hi : i ≠ .engPull) :
    t.pulledPart = s.pulledPart := by
  cases he with
  | pulled => exact absurd rfl hi
  | notRun | faulted | stalled => simp [State.pulledPart]
  | _ => rfl

theorem CommandEffect.consumerPart_eq (he : CommandEffect s i t) (hp : portOf i = .producer) :
    t.consumerPart = s.consumerPart := by
  cases he with
  | notRun => rw [hp]; rfl
  | faulted | stalled => simp [State.consumerPart]
  | ringEmpty | ringRead | pulled => cases hp
  | _ => rfl

theorem CommandEffect.producerPart_eq (he : CommandEffect s i t) (hp : portOf i = .consumer) :
    t.producerPart = s.producerPart := by
  cases he with
  | notRun => rw [hp]; rfl
  | stalled => rw [hp]; rfl
  | ringEmpty => rfl
  | ringRead f g cp hg => rw [RingState.pop_eq hg]; rfl
  | pulled dst n q cp hr hq =>
    obtain ⟨hcap, hstore, hw⟩ := pullLoop_ring n dst (pullStart s)
    simp only [State.producerPart, hq, hcap, hstore, hw]
    rfl
  | faulted _ _ _ hp' | answered _ _ hp' | resamplerSet _ _ _ hp' | resampled _ _ _ _ _ _ hp' =>
    exact absurd (hp'.symm.trans hp) nofun
  | slept | ringWritten | engineBuilt | engineResized | resizeFailed | engineQuit => cases hp

/-- A producer command moves the read cursor only where it replaces the store. -/
theorem CommandEffect.readCursor_eq (he : CommandEffect s i t) (hp : portOf i = .producer)
    (hi : ¬ ReplacesStore i) : t.ring.r = s.ring.r := by
  cases he with
  | resampled => exact coreFrames_r _ _ _ _
  | ringEmpty | ringRead | pulled => cases hp
  | engineBuilt | engineResized | resizeFailed | engineQuit => exact absurd (by simp [ReplacesStore]) hi
  | notRun | faulted | stalled => simp
  | _ => rfl

end Commands

/-! ### The frames of a section -/

section Sections

variable {x : Input} {s t : State}

/-- Only the word of ENG.PULL on the consumer port reaches the pulled part. -/
theorem SectionEffect.pulledPart_eq (he : SectionEffect s x t) (hx : x ≠ .write .consumer 4 0 0x43) :
    t.pulledPart = s.pulledPart := by
  cases he with
  | issued i t _ he =>
    refine he.pulledPart_eq ?_
    rintro rfl
    exact hx rfl
  | woken t he => exact he.pulledPart_eq nofun
  | _ => simp [State.pulledPart]

/-- The agent whose step an action is: a register access is its port's, the Wake the producer's, and power-on reset
and the host's own write are no agent's (60_exceptions.md R312). -/
def agentOf : Input → Option Port
  | .read p _ _ => some p
  | .write p _ _ _ => some p
  | .wake => some .producer
  | .powerOn => none
  | .hostWrite _ _ => none

theorem SectionEffect.consumerPart_eq (he : SectionEffect s x t) (hx : agentOf x = some .producer) :
    t.consumerPart = s.consumerPart := by
  cases he with
  | issued i t _ he => exact he.consumerPart_eq (Option.some.inj hx)
  | woken t he => exact he.consumerPart_eq rfl
  | refusedWord | returned => cases hx; rfl
  | stored => cases hx; simp [State.consumerPart, writeReg_producer_cport]
  | faulted => simp [State.consumerPart]

theorem SectionEffect.producerPart_eq (he : SectionEffect s x t) (hx : agentOf x = some .consumer) :
    t.producerPart = s.producerPart := by
  cases he with
  | issued i t _ he => exact he.producerPart_eq (Option.some.inj hx)
  | woken => cases hx
  | refusedWord | returned => cases hx; rfl
  | stored => cases hx; simp [State.producerPart, writeReg_consumer_pport]
  | faulted => simp [State.producerPart]

/-- A producer's section moves the read cursor only by the word of a command that replaces the store. -/
theorem SectionEffect.readCursor_eq (he : SectionEffect s x t) (hx : agentOf x = some .producer)
    (hw : ∀ i, ReplacesStore i → x ≠ .write .producer 4 0 (encode i)) : t.ring.r = s.ring.r := by
  cases he with
  | issued i t _ he =>
    have hp : portOf i = .producer := Option.some.inj hx
    exact he.readCursor_eq hp fun hi => hw i hi (by rw [hp])
  | woken t he => exact he.readCursor_eq rfl (by simp [ReplacesStore])
  | _ => simp

end Sections

/-! ### The frames of a step -/

/-- Settles O58: a step is the host's own, or a section, which leaves the pulled part alone unless it is ENG.PULL's. -/
theorem onlyPullTouchesLastReadAndMemory : Obligations.OnlyPullTouchesLastReadAndMemory := by
  intro s t h
  cases step_effect h with
  | final => simp
  | reset rest hs => exact ⟨fun _ => ⟨rest, .inr hs⟩, fun hmem => absurd rfl hmem⟩
  | hostWrite a b rest hs => exact ⟨by simp [hostStore], fun _ => ⟨a, b, rest, .inr hs⟩⟩
  | agent p x rest u hs _ _ he =>
    by_cases hx : x = .write .consumer 4 0 0x43
    · subst hx
      have hpull := hs.resolve_right nofun
      exact ⟨fun _ => ⟨rest, .inl hpull⟩, fun _ => ⟨0, 0, rest, .inl hpull⟩⟩
    · have hkept : u.release.pulledPart = s.pulledPart := he.pulledPart_eq hx
      simp only [State.pulledPart, Prod.mk.injEq] at hkept
      obtain ⟨hlast, hhas, hmem⟩ := hkept
      rw [hlast, hhas, hmem]
      simp

/-- An agent's action that answers a next state is one section of that agent. -/
theorem step_section {x : Input} {rest : List Input} {q : Port} {s t : State} (h : step s = .next t)
    (hs : s.env.script = x :: rest) (hx : agentOf x = some q) :
    ∃ p u, SectionEffect ((s.withScript rest).acquire p) x u ∧ t = u.release := by
  cases step_effect h with
  | final hs' => cases hs.symm.trans hs'
  | reset _ hs' => cases hs.symm.trans hs'; cases hx
  | hostWrite _ _ _ hs' => cases hs.symm.trans hs'; cases hx
  | agent p _ _ u hs' _ _ he =>
    rcases hs' with hs' | ⟨hs', -⟩ <;> cases hs.symm.trans hs'
    exact ⟨p, u, he, rfl⟩

/-- The words of the commands that replace the store. -/
theorem encode_replacesStore {i : Instr} (hi : ReplacesStore i) :
    encode i = 0x40 ∨ encode i = 0x41 ∨ encode i = 0x46 := by
  rcases hi with rfl | rfl | rfl <;> decide

/-- Settles O59: each agent's steps are its own sections, which leave the other's part alone. -/
theorem portIsolation : Obligations.PortIsolation := by
  intro s t x rest hs h
  constructor
  · intro hby
    have hx : agentOf x = some .producer := by
      obtain rfl | ⟨_, _, rfl⟩ | ⟨_, _, _, rfl⟩ := hby <;> rfl
    obtain ⟨p, u, he, rfl⟩ := step_section h hs hx
    have hcons : u.release.consumerPart = s.consumerPart := he.consumerPart_eq hx
    have hpull : u.release.pulledPart = s.pulledPart := he.pulledPart_eq (by rintro rfl; cases hx)
    simp only [State.consumerPart, State.pulledPart, Prod.mk.injEq] at hcons hpull
    obtain ⟨hcport, hbus⟩ := hcons
    obtain ⟨hlast, hhas, -⟩ := hpull
    refine ⟨hcport, hlast, hhas, hbus, ?_⟩
    by_cases hw : ∃ i, ReplacesStore i ∧ x = .write .producer 4 0 (encode i)
    · obtain ⟨i, hi, rfl⟩ := hw
      right
      simpa using encode_replacesStore hi
    · left
      exact he.readCursor_eq hx fun i hi hxi => hw ⟨i, hi, hxi⟩
  · intro hby
    have hx : agentOf x = some .consumer := by
      obtain ⟨_, _, rfl⟩ | ⟨_, _, _, rfl⟩ := hby <;> rfl
    obtain ⟨p, u, he, rfl⟩ := step_section h hs hx
    have hprod : u.release.producerPart = s.producerPart := he.producerPart_eq hx
    simpa only [State.producerPart, Prod.mk.injEq] using hprod

end Sys2Proof.Machine
end

section
/-! PROOF. What the registers read: the fields of STATUS (10_state.md R50), and the views and results (R52). -/

namespace Sys2Proof.Machine

/-! ### Fields of a concatenation -/

/-- One step of reading a field off a concatenation: a field above the low part is a field of the high part. -/
theorem extract_above {v w start len : Nat} {hi : BitVec v} {lo : BitVec w} {x : BitVec len}
    (hx : hi.extractLsb' (start - w) len = x) (h : w ≤ start := by decide) :
    (hi ++ lo).extractLsb' start len = x := by
  rw [BitVec.extractLsb'_append_eq_of_le h, hx]

/-- Reading the low part off a concatenation. -/
theorem extract_low {v w : Nat} {hi : BitVec v} {lo : BitVec w} : (hi ++ lo).extractLsb' 0 w = lo := by
  rw [BitVec.extractLsb'_append_eq_of_add_le (Nat.le_of_eq (Nat.zero_add w)), BitVec.extractLsb'_eq_self]

theorem statusWord_fields (p : Port) (s : State) :
    (statusWord p s).extractLsb' 0 4 = (codeOf p s).bits ∧ (statusWord p s).extractLsb' 4 4 = 0 ∧
      (statusWord p s).extractLsb' 8 1 = BitVec.ofBool (busyOf p s) ∧ (statusWord p s).extractLsb' 9 7 = 0 ∧
      (statusWord p s).extractLsb' 16 1 = BitVec.ofBool s.fault ∧ (statusWord p s).extractLsb' 17 3 = 0 ∧
      (statusWord p s).extractLsb' 20 4 = causeShown s ∧ (statusWord p s).extractLsb' 24 8 = 0 := by
  refine ⟨?code, ?rsvLow, ?busy, ?rsvMid, ?fault, ?rsvHigh, ?cause, ?rsvTop⟩
  case code => exact extract_low
  case rsvLow => exact extract_above extract_low
  case busy => exact extract_above <| extract_above extract_low
  case rsvMid => exact extract_above <| extract_above <| extract_above extract_low
  case fault => exact extract_above <| extract_above <| extract_above <| extract_above extract_low
  case rsvHigh => exact extract_above <| extract_above <| extract_above <| extract_above <| extract_above extract_low
  case cause =>
    exact extract_above <| extract_above <| extract_above <| extract_above <| extract_above <| extract_above extract_low
  case rsvTop =>
    exact extract_above <| extract_above <| extract_above <| extract_above <| extract_above <| extract_above <|
      extract_above BitVec.extractLsb'_eq_self

theorem pack_fields (f : Frame) : (pack f).extractLsb' 0 16 = f.l ∧ (pack f).extractLsb' 16 16 = f.r :=
  ⟨extract_low, extract_above BitVec.extractLsb'_eq_self⟩

theorem ofBool_eq_one_iff (b : Bool) : BitVec.ofBool b = 1 ↔ b = true := by
  cases b <;> decide

theorem IngestPhase.busy_iff (x : IngestPhase) : x.busy = true ↔ x ≠ .idle := by
  cases x <;> simp [IngestPhase.busy]

/-- Settles O19: STATUS reads the status word on both ports, field by field. -/
theorem statusLayout : Obligations.StatusLayout := by
  intro p s
  have hread : readReg p 0x1C s = statusWord p s := by cases p <;> rfl
  obtain ⟨hcode, hlow, hbusy, hmid, hfault, hhigh, hcause, htop⟩ := statusWord_fields p s
  rw [hread]
  refine ⟨?code, hlow, ?busy, hmid, ?fault, hhigh, ?cause, htop⟩
  case code =>
    rw [hcode]
    cases p with
    | producer => rw [codeOf]; cases s.pport.code <;> rfl
    | consumer => rw [codeOf]; cases s.cport.code <;> rfl
  case busy =>
    rw [hbusy, ofBool_eq_one_iff]
    cases p with
    | producer => simp [busyOf, IngestPhase.busy_iff]
    | consumer => simp [busyOf]
  case fault => rw [hfault, ofBool_eq_one_iff]
  case cause =>
    rw [hcause, causeShown]
    split
    · cases s.fcause <;> rfl
    · rfl

/-! ### Views -/

/-- The two halves of a value below 2^64 are its low and its high word. -/
theorem halves_toNat {n : Nat} (h : n < 2 ^ 64) :
    (trunc32 ((n : Int) / 2 ^ 32) ++ trunc32 (n : Int)).toNat = n := by
  have hhigh : (trunc32 ((n : Int) / 2 ^ 32)).toNat = n / 2 ^ 32 := by
    simp only [trunc32, BitVec.toNat_ofInt]; omega
  have hlow : (trunc32 (n : Int)).toNat = n % 2 ^ 32 := by
    simp only [trunc32, BitVec.toNat_ofInt]; omega
  rw [BitVec.toNat_append, hhigh, hlow, ← Nat.shiftLeft_add_eq_or_of_lt (Nat.mod_lt _ (by decide)), Nat.shiftLeft_eq]
  omega

theorem wideWord_toNat (v : WideView) {n : Nat} (h : n < 2 ^ 32) : (wideWord v n).toNat = n := by
  rw [wideWord, if_pos h, BitVec.toNat_ofNat, Nat.mod_eq_of_lt h]

/-- A step is at most the input rate in 16.16, so twice a step fits 64 bits (41_resampler.md R156). -/
theorem stepOf_lt (i o : Word) : stepOf (sext32 i) (sext32 o) < 2 ^ 47 := by
  unfold stepOf
  split
  · decide
  · split
    · decide
    · have hi : (sext32 i).toNat < 2 ^ 31 := by have := BitVec.toInt_lt (x := i); simp only [sext32]; omega
      calc (sext32 i).toNat * ONE / (sext32 o).toNat ≤ (sext32 i).toNat * ONE := Nat.div_le_self _ _
        _ < 2 ^ 47 := by simp only [ONE_eq]; omega

theorem ResamplerState.Wf.bounds {x : ResamplerState} (h : x.Wf) : x.step < 2 ^ 64 ∧ x.fracPos < 2 ^ 64 := by
  obtain ⟨hstep, hphase, -⟩ := h
  have hlt := stepOf_lt x.inRate x.outRate
  rw [← hstep] at hlt
  simp only [ONE_eq] at hphase
  omega

theorem RingState.Wf.cursors_le {nMax : Nat} {g : RingState} (h : g.Wf nMax) : g.w ≤ g.cap ∧ g.r ≤ g.cap := by
  rcases h with rfl | ⟨_, _, hw, hr, _⟩
  · exact ⟨Nat.le_refl _, Nat.le_refl _⟩
  · exact ⟨hw.le, hr.le⟩

/-- ENGSTATE as a number: STORE, CONS_EN and STATE. -/
theorem engStateWord_toNat (s : State) : (engStateWord s).toNat =
    (if 0 < s.ring.cap then 32 else 0) + (if s.consEn = true then 16 else 0) + s.estate.bits.toNat := by
  have hfields : ∀ (store cons : Bool) (e : BitVec 2),
      ((0 : BitVec 26) ++ BitVec.ofBool store ++ BitVec.ofBool cons ++ (0 : BitVec 2) ++ e).toNat =
        (if store = true then 32 else 0) + (if cons = true then 16 else 0) + e.toNat := by decide
  simpa [engStateWord] using hfields (decide (0 < s.ring.cap)) s.consEn s.estate.bits

/-- Above ATTEMPTS the producer window is reserved (30_encoding.md R124). -/
theorem readProducer_reserved {off : Nat} (h : 0x58 ≤ off) (s : State) : readProducer off s = 0 := by
  unfold readProducer
  split
  case h_22 => rfl
  all_goals omega

/-- Above LAST_FLAGS the consumer window is reserved (30_encoding.md R124). -/
theorem readConsumer_reserved {off : Nat} (h : 0x28 ≤ off) (s : State) : readConsumer off s = 0 := by
  unfold readConsumer
  split
  case h_8 => rfl
  all_goals omega

/-- Settles O20: the unbounded values are bounded by the invariant, and every other view is its field. -/
theorem viewsShowState : Obligations.ViewsShowState := by
  intro s h
  obtain ⟨-, -, -, hrs, hring, -⟩ := h
  obtain ⟨hstep, hphase⟩ := hrs.bounds
  obtain ⟨hw, hr⟩ := hring.cursors_le
  refine ⟨halves_toNat hstep, halves_toNat hphase, fun hcap => ⟨?_, ?_, ?_⟩, ⟨rfl, rfl⟩, pack_fields _, rfl, rfl, ?_,
    pack_fields _, rfl, fun hidle => ?_, fun k src count hsleep hk => ?_, ⟨rfl, rfl, rfl, rfl⟩, ⟨rfl, rfl, rfl, rfl⟩,
    fun off _ _ => ⟨fun hoff => readProducer_reserved hoff s, fun hoff => readConsumer_reserved hoff s⟩⟩
  · exact wideWord_toNat .capacity hcap
  · exact wideWord_toNat .wcur (by omega)
  · exact wideWord_toNat .rcur (by omega)
  · have hstate := engStateWord_toNat s
    cases he : s.estate <;> rw [he] at hstate <;> exact hstate
  · change wideWord .attempts s.iphase.attempts = 0
    rw [hidle]
    rfl
  · change (wideWord .attempts s.iphase.attempts).toNat = k
    rw [hsleep]
    exact wideWord_toNat .attempts hk

end Sys2Proof.Machine
end

section
/-! SUPPORT. The step read forwards: what an action of an agent does once its agent may step, and what the model reports
where the agent is stuck (20_memory.md R92; 60_exceptions.md R308). -/

namespace Sys2Proof.Machine

/-! ### One action, and the section it asks for -/

/-- What an action does once it may happen: an agent's section, or the host's own act. -/
def actionBody : Input → State → Result
  | .read p width off => readAccess p width off
  | .write p width off v => writeAccess p width off v
  | .wake => ingestWake
  | .powerOn => fun s => .next (powerOn s)
  | .hostWrite a b => fun s => .next (hostStore a b s)

theorem takeInput_of_agent {x : Input} {p : Port} (hx : agentOf x = some p) (s : State) :
    takeInput x s = agentStep p s (actionBody x) := by
  cases x <;> cases hx <;> rfl

theorem step_of_script_cons {s : State} {x : Input} {rest : List Input} (hs : s.env.script = x :: rest) :
    step s = takeInput x (s.withScript rest) := by
  unfold step stepOnce
  rw [hs]

theorem step_of_script_nil {s : State} (hs : s.env.script = []) : step s = idleStep s := by
  unfold step stepOnce
  rw [hs]

/-- A step that takes an action of an agent is that agent's step. -/
theorem step_of_agent {s : State} {x : Input} {p : Port} {rest : List Input} (hs : s.env.script = x :: rest)
    (hx : agentOf x = some p) : step s = agentStep p (s.withScript rest) (actionBody x) :=
  (step_of_script_cons hs).trans (takeInput_of_agent hx _)

/-- With no action left a sleeping ENG.INGEST wakes (log 8). -/
theorem idleStep_of_busy {s : State} (hb : s.iphase.busy = true) : idleStep s = agentStep .producer s ingestWake := by
  rw [idleStep, if_pos hb]
  rfl

/-! ### The lock and the marks -/

@[simp] theorem stuckOf_withScript (p : Port) (l : List Input) (s : State) :
    stuckOf p (s.withScript l) = stuckOf p s := by cases p <;> rfl

theorem State.release_acquire {s : State} (p : Port) (hl : s.lock = .free) : (s.acquire p).release = s := by
  cases s
  cases hl
  rfl

theorem raiseFault_of_unfaulted {s : State} (hf : s.fault = false) (c : FaultCause) (v : Word) :
    raiseFault c v s = { s with fault := true, fcause := c, finfo := v } := by
  simp [raiseFault, hf]

/-! No operation of a section reads or writes the lock the section holds. -/

theorem raiseFault_acquire (p : Port) (c : FaultCause) (v : Word) (s : State) :
    raiseFault c v (s.acquire p) = (raiseFault c v s).acquire p := by
  unfold raiseFault
  rw [State.acquire_fault]
  split <;> rfl

theorem withBus_acquire (p q : Port) (v : Word) (s : State) :
    (s.acquire p).withBus q v = (s.withBus q v).acquire p := by cases q <;> rfl

theorem readReg_acquire_withScript (p q : Port) (off : Word) (l : List Input) (s : State) :
    readReg q off ((s.withScript l).acquire p) = readReg q off s := by cases q <;> rfl

/-! ### An agent that may step, and one that is stuck -/

theorem agentStep_of_stuck {p : Port} {s : State} (hf : s.fault = false) (hp : stuckOf p s = true)
    (body : State → Result) : agentStep p s body = .fault (.agentStuck p) := by
  simp [agentStep, hf, hp]

/-- An enabled agent whose section answers a next state has a step. -/
theorem agentStep_answers {p : Port} {s : State} {body : State → Result} (hf : s.fault = false)
    (hp : stuckOf p s = false) (hl : s.lock = .free) (hb : ∃ u, body (s.acquire p) = .next u) :
    ∃ t, agentStep p s body = .next t := by
  obtain ⟨u, hu⟩ := hb
  exact ⟨u.release, by rw [agentStep_of_enabled hf hp hl, hu]; rfl⟩

/-- An enabled agent's step, from what its section does under the lock. -/
theorem step_of_section {s t : State} {x : Input} {p : Port} {rest : List Input} (hs : s.env.script = x :: rest)
    (hx : agentOf x = some p) (hf : s.fault = false) (hp : stuckOf p s = false) (hl : s.lock = .free)
    (hb : actionBody x ((s.withScript rest).acquire p) = .next (t.acquire p)) (ht : t.lock = .free) :
    step s = .next t := by
  rw [step_of_agent hs hx, agentStep_of_enabled (s := s.withScript rest) hf (by simpa using hp) hl, hb]
  exact congrArg Host.Outcome.next (State.release_acquire p ht)

/-! ### Every section of an agent answers -/

theorem issue_answers (p : Port) (c : Word) (s : State) : ∃ t, issue p c s = .next t := by
  unfold issue
  split
  · exact ⟨_, rfl⟩
  · split
    · exact ⟨_, rfl⟩
    · split
      · exact exec_next _ s
      · exact ⟨_, rfl⟩

theorem readAccess_answers (p : Port) (width : Nat) (off : Word) (s : State) :
    ∃ t, readAccess p width off s = .next t := by
  unfold readAccess
  split <;> exact ⟨_, rfl⟩

theorem writeAccess_answers (p : Port) (width : Nat) (off v : Word) (s : State) :
    ∃ t, writeAccess p width off v s = .next t := by
  unfold writeAccess
  split
  · split
    · exact issue_answers p v s
    · exact ⟨_, rfl⟩
  · exact ⟨_, rfl⟩

theorem ingestWake_answers {s : State} {k : Nat} {src count : Word} (hi : s.iphase = .sleeping k src count) :
    ∃ t, ingestWake s = .next t := by
  unfold ingestWake
  rw [hi]
  obtain ⟨-, -, h⟩ | ⟨-, -, h⟩ | ⟨-, -, h⟩ := ingestAttempt_eq k src count s <;> exact ⟨_, h⟩

end Sys2Proof.Machine
end

section
/-! PROOF. Register accesses: the shape 20_memory.md R90 asks for, and what a read leaves (R88). -/

namespace Sys2Proof.Machine

theorem accessOK_iff {width : Nat} {off : Word} :
    accessOK width off = true ↔ width = 4 ∧ off.toNat % 4 = 0 ∧ off.toNat ≤ 0xFC := by
  simp only [accessOK, Bool.and_eq_true, beq_iff_eq, decide_eq_true_eq]
  omega

theorem readAccess_of_malformed {width : Nat} {off : Word} (h : accessOK width off = false) (p : Port) (s : State) :
    readAccess p width off s = .next (raiseFault .fPort off s) := by
  simp [readAccess, h]

theorem writeAccess_of_malformed {width : Nat} {off : Word} (h : accessOK width off = false) (p : Port) (v : Word)
    (s : State) : writeAccess p width off v s = .next (raiseFault .fPort off s) := by
  simp [writeAccess, h]

theorem readAccess_of_ok {width : Nat} {off : Word} (h : accessOK width off = true) (p : Port) (s : State) :
    readAccess p width off s = .next (s.withBus p (readReg p off s)) := by
  simp [readAccess, h]

/-- A step whose section raises a fault changes the three fault fields and nothing else (60_exceptions.md R314). -/
theorem step_of_raise {s : State} {x : Input} {p : Port} {rest : List Input} {c : FaultCause} {v : Word}
    (hs : s.env.script = x :: rest) (hx : agentOf x = some p) (hf : s.fault = false) (hp : stuckOf p s = false)
    (hl : s.lock = .free) (hb : ∀ u, actionBody x u = .next (raiseFault c v u)) :
    step s = .next { s with env := { s.env with script := rest }, fault := true, fcause := c, finfo := v } := by
  have hraise : actionBody x ((s.withScript rest).acquire p) =
      .next ((raiseFault c v (s.withScript rest)).acquire p) := by rw [hb, raiseFault_acquire]
  rw [step_of_section hs hx hf hp hl hraise (by simpa using hl),
    raiseFault_of_unfaulted (s := s.withScript rest) hf]
  rfl

/-- Settles O13: on a malformed access both kinds of section raise F_PORT. -/
theorem malformedAccessFaults : Obligations.MalformedAccessFaults := by
  intro s p width off v rest hs hf hp hl hbad
  have hbad : accessOK width off = false := by rwa [← accessOK_iff, Bool.not_eq_true] at hbad
  rcases hs with hs | hs
  · exact step_of_raise hs rfl hf hp hl (readAccess_of_malformed hbad p)
  · exact step_of_raise hs rfl hf hp hl (writeAccess_of_malformed hbad p v)

/-- Settles O17: the section of a read writes the agent's bus word only, and reads neither the lock nor the script. -/
theorem registerReadChangesNothing : Obligations.RegisterReadChangesNothing := by
  intro s p off rest hs halign hwin hf hp hl
  have hok : accessOK 4 off = true := accessOK_iff.mpr ⟨rfl, halign, hwin⟩
  have hread : actionBody (.read p 4 off) ((s.withScript rest).acquire p) =
      .next (((s.withScript rest).withBus p (readReg p off s)).acquire p) := by
    rw [actionBody, readAccess_of_ok hok, readReg_acquire_withScript, withBus_acquire]
  rw [step_of_section hs rfl hf hp hl hread (by simpa using hl)]
  cases p <;> rfl

end Sys2Proof.Machine
end

section
/-! PROOF. Host words and frames (20_memory.md R81 to R85): a word is its four bytes, a word written reads back, and the
frames of a resample are words of memory, unpacked (41_resampler.md R151). -/

namespace Sys2Proof.Machine

theorem memRead32_bytes (m : Memory) (a : Nat) :
    (memRead32 m a).extractLsb' 0 8 = memRead m a ∧ (memRead32 m a).extractLsb' 8 8 = memRead m (a + 1) ∧
    (memRead32 m a).extractLsb' 16 8 = memRead m (a + 2) ∧ (memRead32 m a).extractLsb' 24 8 = memRead m (a + 3) :=
  ⟨extract_low, extract_above extract_low, extract_above <| extract_above extract_low,
    extract_above <| extract_above <| extract_above BitVec.extractLsb'_eq_self⟩

/-- A word is its four bytes, put together. -/
theorem word_eq_bytes (v : Word) :
    v = v.extractLsb' 24 8 ++ v.extractLsb' 16 8 ++ v.extractLsb' 8 8 ++ v.extractLsb' 0 8 := by
  calc v = v.extractLsb' 8 24 ++ v.extractLsb' 0 8 :=
        (BitVec.extractLsb'_append_extractLsb' (w := 24) (len := 8)).symm
    _ = v.extractLsb' 16 16 ++ v.extractLsb' 8 8 ++ v.extractLsb' 0 8 := by
        rw [BitVec.extractLsb'_append_extractLsb'_eq_extractLsb' (start₁ := 8) (len₁ := 8) rfl]
    _ = v.extractLsb' 24 8 ++ v.extractLsb' 16 8 ++ v.extractLsb' 8 8 ++ v.extractLsb' 0 8 := by
        rw [BitVec.extractLsb'_append_extractLsb'_eq_extractLsb' (start₁ := 16) (len₁ := 8) rfl]

/-- The four bytes of a word written; each write is read past the later ones. -/
theorem memRead_memWrite32_bytes {m : Memory} {a : Nat} (v : Word) (h : Memory.wf m = true) (ha : a + 4 ≤ 2 ^ 32) :
    memRead (memWrite32 m a v) a = v.extractLsb' 0 8 ∧ memRead (memWrite32 m a v) (a + 1) = v.extractLsb' 8 8 ∧
    memRead (memWrite32 m a v) (a + 2) = v.extractLsb' 16 8 ∧
    memRead (memWrite32 m a v) (a + 3) = v.extractLsb' 24 8 := by
  unfold memWrite32
  have h1 := Memory.wf_memWrite m a (v.extractLsb' 0 8) h (by omega)
  have h2 := Memory.wf_memWrite _ (a + 1) (v.extractLsb' 8 8) h1 (by omega)
  have h3 := Memory.wf_memWrite _ (a + 2) (v.extractLsb' 16 8) h2 (by omega)
  refine ⟨?_, ?_, ?_, memRead_memWrite_self _ _ _ h3⟩
  · rw [memRead_memWrite_other _ _ _ _ (by omega), memRead_memWrite_other _ _ _ _ (by omega),
      memRead_memWrite_other _ _ _ _ (by omega), memRead_memWrite_self _ _ _ h]
  · rw [memRead_memWrite_other _ _ _ _ (by omega), memRead_memWrite_other _ _ _ _ (by omega),
      memRead_memWrite_self _ _ _ h1]
  · rw [memRead_memWrite_other _ _ _ _ (by omega), memRead_memWrite_self _ _ _ h2]

theorem memRead32_memWrite32_self {m : Memory} {a : Nat} (v : Word) (h : Memory.wf m = true) (ha : a + 4 ≤ 2 ^ 32) :
    memRead32 (memWrite32 m a v) a = v := by
  obtain ⟨h0, h1, h2, h3⟩ := memRead_memWrite32_bytes v h ha
  rw [memRead32, h0, h1, h2, h3, ← word_eq_bytes]

theorem unpack_pack (f : Frame) : unpack (pack f) = f := by
  obtain ⟨hl, hr⟩ := pack_fields f
  rw [unpack, hl, hr]

theorem readFrames_getElem? (m : Memory) (a : Nat) {n i : Nat} (hi : i < n) :
    (readFrames m a n)[i]? = some (unpack (memRead32 m (a + 4 * i))) := by
  induction n generalizing a i with
  | zero => cases hi
  | succ n ih =>
    cases i with
    | zero => rfl
    | succ i =>
      rw [readFrames, List.getElem?_cons_succ, ih (a + 4) (Nat.lt_of_succ_lt_succ hi)]
      congr 3
      omega

/-- Settles O60, from the bytes of a word read and of a word written. -/
theorem hostWordReadAfterWrite : Obligations.HostWordReadAfterWrite := by
  refine ⟨memRead32_bytes, fun m a n => ⟨readFrames_length m a n, fun i => readFrames_getElem? m a⟩,
    fun w => ⟨rfl, rfl⟩, fun f => ?_, fun m a v h ha => ?_⟩
  · obtain ⟨hl, hr⟩ := pack_fields f
    exact ⟨hl, hr, unpack_pack f⟩
  · obtain ⟨h0, h1, h2, h3⟩ := memRead_memWrite32_bytes v h ha
    exact ⟨memRead32_memWrite32_self v h ha, h0, h1, h2, h3, fun b => memRead_memWrite32_other m a b v⟩

end Sys2Proof.Machine
end

section
/-! PROOF. A host range that is not admitted (20_memory.md R83; 60_exceptions.md R308): the command changes nothing but
its agent's mark, and only the marked agent stops. -/

namespace Sys2Proof.Machine

theorem rangeOK_iff (e : Env) (a n : Nat) :
    rangeOK e a n = true ↔ (n = 0 ∨ (a + 4 * n ≤ 2 ^ 32 ∧ hostOK e.params a (4 * n) = true)) := by
  simp [rangeOK]

/-! ### Commands on a range that is not admitted -/

theorem whenRuns_of_runs {runs : Bool} (h : runs = true) (p : Port) (s : State) (body : Result) :
    whenRuns p runs s body = body := if_pos h

theorem componentRuns_iff {s : State} : componentRuns s = true ↔ s.estate ≠ .shutdown := by
  simp [componentRuns]

theorem engineRuns_iff {s : State} : engineRuns s = true ↔ s.estate = .ready ∨ s.estate = .resized := by
  simp [engineRuns]

/-- RS.RESAMPLE and RS.RESAMPLE.DRY test the speed, then the range, so a positive speed leaves the range to decide. -/
theorem exec_resample_of_unadmitted {s : State} (he : s.estate ≠ .shutdown) (hsp : 0 < sext32 s.pport.arg2)
    (hr : rangeOK s.env (zext32 s.pport.arg0) (zext32 s.pport.arg1) = false) :
    exec .rsResample s = .next (s.stall .producer) ∧ exec .rsResampleDry s = .next (s.stall .producer) := by
  have hruns := whenRuns_of_runs (componentRuns_iff.mpr he) .producer s
  constructor
  · rw [exec, execRsResample, hruns, if_neg (not_le.mpr hsp), hr]
    rfl
  · rw [exec, execRsResampleDry, hruns, if_neg (not_le.mpr hsp), hr]
    rfl

theorem exec_engPull_of_unadmitted {s : State} (hc : s.consEn = true)
    (hr : rangeOK s.env (zext32 s.cport.arg0) (zext32 s.cport.arg1) = false) :
    exec .engPull s = .next (s.stall .consumer) := by
  rw [exec, execEngPull, whenRuns_of_runs (runs := pullRuns s) hc, hr]
  rfl

/-- The test for space, with the multiplier and the free frames of a ring with a store written out (44_engine.md
R258, R259). -/
theorem ingestNeedsSpace_iff {s : State} {m : Nat} (hcap : s.ring.cap ≠ 0)
    (hm : m = rateAdj (s.ring.occ * 65536 / s.ring.cap)) (count : Word) :
    ingestNeedsSpace count s = true ↔
      s.ring.cap - 1 - s.ring.occ < estimate s.rs.inRate.toInt s.rs.outRate.toInt count.toNat m := by
  simp [ingestNeedsSpace, ingestMultiplier, RingState.freeSpace, RingState.fillFx, hcap, hm, sext32, zext32]

/-- A final attempt of ENG.INGEST, with space or with its retries spent, is stuck on a range that is not admitted. -/
theorem ingestAttempt_of_unadmitted {s : State} {k m : Nat} {src count : Word} (hcap : s.ring.cap ≠ 0)
    (hm : m = rateAdj (s.ring.occ * 65536 / s.ring.cap))
    (hfinal : estimate s.rs.inRate.toInt s.rs.outRate.toInt count.toNat m ≤ s.ring.cap - 1 - s.ring.occ ∨
      s.env.params.retryMax ≤ k)
    (hr : rangeOK s.env (zext32 src) (zext32 count) = false) :
    ingestAttempt k src count s = .next (s.stall .producer) := by
  have hneeds := ingestNeedsSpace_iff hcap hm count
  obtain ⟨hn, hk, -⟩ | ⟨-, hok, -⟩ | ⟨-, -, hstall⟩ := ingestAttempt_eq k src count s
  · have := hneeds.mp hn
    omega
  · cases hok.symm.trans hr
  · exact hstall

theorem exec_engIngest_eq_attempt {s : State} (he : s.estate = .ready ∨ s.estate = .resized)
    (hcap : s.ring.cap ≠ 0) : exec .engIngest s = ingestAttempt 0 s.pport.arg0 s.pport.arg1 s := by
  rw [exec, execEngIngest, whenRuns_of_runs (engineRuns_iff.mpr he), if_neg hcap]

theorem ingestWake_eq_attempt {s : State} {k : Nat} {src count : Word} (hi : s.iphase = .sleeping k src count) :
    ingestWake s = ingestAttempt k src count s := by
  unfold ingestWake
  rw [hi]

/-! ### The stuck agent, and the other one -/

/-- A stuck agent's accesses, and a stuck producer's Wake, are reported. -/
theorem step_of_stuck {s : State} {x : Input} {p : Port} {rest : List Input} (hs : s.env.script = x :: rest)
    (hx : agentOf x = some p) (hf : s.fault = false) (hp : stuckOf p s = true) :
    step s = .fault (.agentStuck p) := by
  rw [step_of_agent hs hx]
  exact agentStep_of_stuck (s := s.withScript rest) hf (by simpa using hp) _

theorem step_of_producer_stuck_idle {s : State} (hs : s.env.script = []) (hf : s.fault = false)
    (hp : s.pStuck = true) : step s = .fault (.agentStuck .producer) := by
  simp [step_of_script_nil hs, idleStep, hf, hp]

theorem step_of_consumer_stuck_idle {s : State} (hs : s.env.script = []) (hf : s.fault = false)
    (hp : s.pStuck = false) (hi : s.iphase = .idle) (hc : s.cStuck = true) :
    step s = .fault (.agentStuck .consumer) := by
  simp [step_of_script_nil hs, idleStep, hf, hp, hi, hc, IngestPhase.busy]

/-- Every access of an agent that is not stuck has a step, whatever the other agent's mark. -/
theorem access_answers {s : State} {q : Port} {width : Nat} {off v : Word} {rest : List Input} (hf : s.fault = false)
    (hq : stuckOf q s = false) (hl : s.lock = .free)
    (hs : s.env.script = .read q width off :: rest ∨ s.env.script = .write q width off v :: rest) :
    ∃ t, step s = .next t := by
  have hq' : stuckOf q (s.withScript rest) = false := by simpa using hq
  rcases hs with hs | hs
  · rw [step_of_agent hs rfl]
    exact agentStep_answers hf hq' hl (readAccess_answers q width off _)
  · rw [step_of_agent hs rfl]
    exact agentStep_answers hf hq' hl (writeAccess_answers q width off v _)

/-- The Wake of a sleeping ENG.INGEST has a step, as the next action or with no action left. -/
theorem wake_answers {s : State} {k : Nat} {src count : Word} {rest : List Input} (hf : s.fault = false)
    (hp : s.pStuck = false) (hl : s.lock = .free) (hi : s.iphase = .sleeping k src count)
    (hs : s.env.script = [] ∨ s.env.script = .wake :: rest) : ∃ t, step s = .next t := by
  rcases hs with hs | hs
  · have hb : s.iphase.busy = true := by rw [hi]; rfl
    rw [step_of_script_nil hs, idleStep_of_busy hb]
    exact agentStep_answers hf hp hl (ingestWake_answers hi)
  · rw [step_of_agent hs rfl]
    exact agentStep_answers hf hp hl (ingestWake_answers hi)

/-- Settles O31: a command on the range is a stall, a marked agent's step is reported, and the other agent's sections
read no mark but its own. -/
theorem unadmittedRangeIsStuck : Obligations.UnadmittedRangeIsStuck := by
  refine ⟨rangeOK_iff, fun s => exec_resample_of_unadmitted, fun s => exec_engPull_of_unadmitted, ?start, ?wake, ?stuck,
    fun s p q width off v rest hf _ hq hl hs => access_answers hf hq hl hs,
    fun s k src count rest hf _ hp hl hi hs => wake_answers hf hp hl hi hs⟩
  case start =>
    intro s m he hcap hm hfinal hr
    rw [exec_engIngest_eq_attempt he hcap]
    exact ingestAttempt_of_unadmitted hcap hm (by omega) hr
  case wake =>
    intro s m k src count rest hs hf hp hl hi hcap hm hfinal hr
    have hstall : actionBody .wake ((s.withScript rest).acquire .producer) =
        .next (((s.withScript rest).stall .producer).acquire .producer) :=
      (ingestWake_eq_attempt (s := (s.withScript rest).acquire .producer) hi).trans
        (ingestAttempt_of_unadmitted hcap hm hfinal hr)
    exact step_of_section hs rfl hf hp hl hstall hl
  case stuck =>
    intro s p width off v rest hf hp hs
    obtain hs | hs | ⟨rfl, hs⟩ | ⟨rfl, hs⟩ | ⟨rfl, hps, hi, hs⟩ := hs
    · exact step_of_stuck hs rfl hf hp
    · exact step_of_stuck hs rfl hf hp
    · exact step_of_stuck hs rfl hf hp
    · exact step_of_producer_stuck_idle hs hf hp
    · exact step_of_consumer_stuck_idle hs hf hps hi hp

end Sys2Proof.Machine
end

section
/-! PROOF. The decoder and the encoder (30_encoding.md R120 to R130): a word is legal exactly when it is the word of a
command, and the opcode map's rows are the commands with their words. -/

namespace Sys2Proof.Machine

/-! ### The fields of a command word -/

@[simp] theorem encode_reservedBits (i : Instr) : (encode i).extractLsb' 8 24 = 0 :=
  extract_above BitVec.extractLsb'_zero

@[simp] theorem encode_opcode (i : Instr) : (encode i).extractLsb' 0 8 = opcodeOf i := extract_low

@[simp] theorem decodeOpcode_opcodeOf (i : Instr) : decodeOpcode (opcodeOf i).toNat = .ok i := by cases i <;> rfl

/-! ### The two directions -/

@[simp] theorem decode_encode (i : Instr) : decode (encode i) = .ok i := by simp [decode]

/-- A word decodes to a command exactly when it is the command's word. -/
theorem decode_eq_ok_iff {c : Word} {i : Instr} : decode c = .ok i ↔ c = encode i :=
  ⟨eq_encode_of_decode, by rintro rfl; exact decode_encode i⟩

/-- Settles O3: `decode` and `encode` are inverse on the legal words. -/
theorem decodeEncodeAgree : Obligations.DecodeEncodeAgree :=
  ⟨fun i _ => decode_encode i, fun _ _ h => (eq_encode_of_decode h).symm⟩

/-! ### The map as a list -/

theorem mem_commands (i : Instr) : i ∈ commands := by cases i <;> decide

/-- A row of the map is a command with its word. -/
theorem mem_opcodeRows_iff {c : Word} {i : Instr} : (c, i) ∈ commands.map (fun j => (encode j, j)) ↔ c = encode i := by
  simp only [List.mem_map, Prod.mk.injEq]
  constructor
  · rintro ⟨_, -, rfl, rfl⟩
    rfl
  · rintro rfl
    exact ⟨i, mem_commands i, rfl, rfl⟩

/-- Settles O2: the rows written out are each command with its word, and only those words decode. -/
theorem decodeIsTheOpcodeMap : Obligations.DecodeIsTheOpcodeMap := by
  intro c
  constructor
  · intro i
    exact decode_eq_ok_iff.trans mem_opcodeRows_iff.symm
  · cases decode c with
    | ok i => exact .inl ⟨i, rfl⟩
    | error e => exact .inr ⟨e, rfl⟩

/-! ### Illegal words, by the field that makes them illegal -/

theorem decode_of_reservedBits {c : Word} (h : c.extractLsb' 8 24 ≠ 0) : decode c = .error .reservedBitsSet :=
  if_neg h

theorem decode_of_reservedZero {c : Word} (h : c.extractLsb' 8 24 = 0) :
    decode c = decodeOpcode (c.extractLsb' 0 8).toNat :=
  if_pos h

/-- Settles O1: the legal words are the encoder's own, the illegal ones fail at the reserved bits or at the map. -/
theorem sampleWordsDecode : Obligations.SampleWordsDecode :=
  ⟨decode_encode .rsInit, decode_encode .rsResampleDry, decode_encode .rbRead, decode_encode .rcAdjust,
    decode_encode .engPull, decode_of_reservedBits (by decide), decode_of_reservedBits (by decide),
    decode_of_reservedZero (by decide), decode_of_reservedZero (by decide), rfl, rfl, rfl⟩

end Sys2Proof.Machine
end

section
/-! PROOF. Register writes (30_encoding.md R133, R134): a write to CMD issues the word, and any other write stores an ARG
or is ignored. -/

namespace Sys2Proof.Machine

/-! ### A write to CMD -/

theorem writeAccess_cmd (p : Port) (c : Word) (s : State) : writeAccess p 4 0 c s = issue p c s := rfl

theorem busyOf_eq_false {p : Port} {s : State} (h : p = .producer → s.iphase = .idle) : busyOf p s = false := by
  cases p with
  | producer => rw [busyOf, h rfl]; rfl
  | consumer => rfl

/-- A legal word of the port's own on a port that is not busy runs its command. -/
theorem issue_of_decode {p : Port} {c : Word} {i : Instr} {s : State} (hb : busyOf p s = false)
    (hi : decode c = .ok i) (hp : portOf i = p) : issue p c s = exec i s := by
  simp [issue, hb, hi, hp]

/-- Settles O8: the agent's step is one section, the section of a CMD write is `issue`, and its tests all pass. -/
theorem stepRunsDecodedCommand : Obligations.StepRunsDecodedCommand := by
  intro s p c i rest hs hi _ hport hf hp hl hidle
  have hbusy : busyOf p ((s.withScript rest).acquire p) = false := busyOf_eq_false hidle
  calc step s = agentStep p (s.withScript rest) (writeAccess p 4 0 c) := step_of_agent hs rfl
    _ = mapNext State.release (writeAccess p 4 0 c ((s.withScript rest).acquire p)) :=
      agentStep_of_enabled hf (by simpa using hp) hl
    _ = mapNext State.release (exec i ((s.withScript rest).acquire p)) := by
      rw [writeAccess_cmd, issue_of_decode hbusy hi hport]
    _ = _ := rfl

/-! ### A write to any other register -/

theorem writeAccess_of_ne_cmd {off : Word} (hok : accessOK 4 off = true) (h0 : off ≠ 0) (p : Port) (v : Word)
    (s : State) : writeAccess p 4 off v s = .next (writeReg p off v s) := by
  rw [writeAccess, if_pos hok, if_neg h0]

theorem writeReg_acquire (p q : Port) (off v : Word) (s : State) :
    writeReg q off v (s.acquire p) = (writeReg q off v s).acquire p := by
  cases q with
  | producer =>
    simp only [writeReg, writeProducer]
    split <;> rfl
  | consumer =>
    simp only [writeReg, writeConsumer]
    split <;> rfl

/-- The step of a well-formed write at an offset other than CMD's. -/
theorem step_of_writeReg {s : State} {p : Port} {off v : Word} {rest : List Input}
    (hs : s.env.script = .write p 4 off v :: rest) (hf : s.fault = false) (hp : stuckOf p s = false)
    (hl : s.lock = .free) (hok : accessOK 4 off = true) (h0 : off ≠ 0) :
    step s = .next (writeReg p off v (s.withScript rest)) := by
  have hwrite : actionBody (.write p 4 off v) ((s.withScript rest).acquire p) =
      .next ((writeReg p off v (s.withScript rest)).acquire p) := by
    rw [actionBody, writeAccess_of_ne_cmd hok h0, writeReg_acquire]
  exact step_of_section hs rfl hf hp hl hwrite (by simpa using hl)

/-- Above ARG3 the producer window is read-only or reserved (30_encoding.md R124). -/
theorem writeProducer_above_args {off : Nat} (h : 0x14 ≤ off) (v : Word) (s : State) : writeProducer off v s = s := by
  unfold writeProducer
  split
  case h_5 => rfl
  all_goals omega

/-- Above ARG1 the consumer window is read-only or reserved (30_encoding.md R124). -/
theorem writeConsumer_above_args {off : Nat} (h : 0x0C ≤ off) (v : Word) (s : State) : writeConsumer off v s = s := by
  unfold writeConsumer
  split
  case h_3 => rfl
  all_goals omega

/-- The step of a write that the port ignores takes the action off the script and nothing else. -/
theorem step_of_ignored_write {s : State} {p : Port} {off v : Word} {rest : List Input}
    (hs : s.env.script = .write p 4 off v :: rest) (hf : s.fault = false) (hp : stuckOf p s = false)
    (hl : s.lock = .free) (halign : off.toNat % 4 = 0) (hwin : off.toNat ≤ 0xFC) (hpos : 0 < off.toNat)
    (hignored : writeReg p off v (s.withScript rest) = s.withScript rest) : step s = .next (s.withScript rest) := by
  have h0 : off ≠ 0 := by
    rintro rfl
    exact absurd hpos (by decide)
  rw [step_of_writeReg hs hf hp hl (accessOK_iff.mpr ⟨rfl, halign, hwin⟩) h0, hignored]

/-- Settles O18: at an ARG's offset `writeReg` stores the word, and above the ARGs it leaves the state as it is. -/
theorem argWritesStoreOthersIgnored : Obligations.ArgWritesStoreOthersIgnored := by
  intro s v rest hf hl
  refine ⟨fun hp => ⟨?p0, ?p1, ?p2, ?p3, ?pOther⟩, fun hc => ⟨?c0, ?c1, ?cOther⟩, rfl, rfl, rfl, rfl, rfl, rfl⟩
  case p0 | p1 | p2 | p3 => exact fun hs => step_of_writeReg hs hf hp hl (by decide) (by decide)
  case c0 | c1 => exact fun hs => step_of_writeReg hs hf hc hl (by decide) (by decide)
  case pOther =>
    intro off hs halign hargs hwin
    exact step_of_ignored_write hs hf hp hl halign hwin (by omega) (writeProducer_above_args hargs v _)
  case cOther =>
    intro off hs halign hargs hwin
    exact step_of_ignored_write hs hf hc hl halign hwin (by omega) (writeConsumer_above_args hargs v _)

end Sys2Proof.Machine
end

section
/-! PROOF. The datapath's arithmetic: the nominal step, the adjusted step and the interpolation (41_resampler.md R156 to
R159, R173). -/

namespace Sys2Proof.Machine

/-! ### The nominal step -/

theorem stepOf_of_nonpos {i o : Int} (h : i ≤ 0 ∨ o ≤ 0) : stepOf i o = 65536 := if_pos h

/-- For positive rates the step is the floored quotient, or ONE where that is 0. -/
theorem stepOf_of_pos {i o : Nat} (hi : 0 < i) (ho : 0 < o) :
    stepOf i o = if i * 65536 / o = 0 then 65536 else i * 65536 / o := by
  rw [stepOf, if_neg (by omega)]
  rfl

/-- Settles O21: positive rates are naturals, whose quotient as integers is the quotient of `stepOf_of_pos`. -/
theorem stepFormulaAndRange : Obligations.StepFormulaAndRange := by
  refine ⟨fun i o => ⟨stepOf_of_nonpos, ?quotientZero, ?quotient, stepOf_pos _ _, stepOf_lt i o⟩, by decide,
    by decide⟩
  case quotientZero =>
    intro hi ho hq
    lift i.toInt to Nat using hi.le with n
    lift o.toInt to Nat using ho.le with m
    rw [stepOf_of_pos (by omega) (by omega), if_pos (by exact_mod_cast hq)]
  case quotient =>
    intro hi ho hq
    lift i.toInt to Nat using hi.le with n
    lift o.toInt to Nat using ho.le with m
    rw [stepOf_of_pos (by omega) (by omega), if_neg (by exact_mod_cast hq)]
    push_cast
    rfl

/-! ### The adjusted step -/

/-- Clamping the speed to [1/2, 2] first changes nothing, since it only replaces products already outside
[step/2, 2·step] by the ends of that range (41_resampler.md R157). -/
theorem adjStep_eq_clampedProduct (st speed : Nat) :
    adjStep st speed = max (min (max (st * speed / 65536) (st / 2)) (2 * st)) 1 := by
  simp only [adjStep, clamp, ONE_eq]
  rcases Nat.lt_or_ge speed 32768 with hlow | hlow
  · have hp : st * speed ≤ st * 32768 := Nat.mul_le_mul_left _ hlow.le
    rw [show min (max speed (65536 / 2)) (2 * 65536) = 32768 by omega]
    omega
  · rcases Nat.lt_or_ge 131072 speed with hhigh | hhigh
    · have hp : st * 131072 ≤ st * speed := Nat.mul_le_mul_left _ hhigh.le
      rw [show min (max speed (65536 / 2)) (2 * 65536) = 131072 by omega]
      omega
    · rw [show min (max speed (65536 / 2)) (2 * 65536) = speed by omega]

/-- At speed ONE the adjusted step is the step. -/
theorem adjStep_one {st : Nat} (h : 1 ≤ st) : adjStep st 65536 = st := by
  rw [adjStep_eq_clampedProduct]
  omega

/-- Settles O22: the model clamps the speed first, and clamping the product alone gives the same. -/
theorem adjStepIsClampedProduct : Obligations.AdjStepIsClampedProduct :=
  ⟨fun st speed _ _ => ⟨adjStep_eq_clampedProduct st speed, rfl⟩, by decide, by decide, by decide, by decide,
    by decide⟩

/-! ### Interpolation -/

/-- A floored product with a fraction below ONE lies between 0 and its other factor. -/
theorem fraction_of_nonneg {d : Int} {f : Nat} (hd : 0 ≤ d) (hf : f < 65536) :
    0 ≤ d * f / 65536 ∧ d * f / 65536 ≤ d ∧ (d * f / 65536 < d ∨ d = 0) := by
  have hlow : 0 ≤ d * f := by positivity
  have hhigh : d * f ≤ d * 65535 := mul_le_mul_of_nonneg_left (by omega) hd
  omega

/-- Below 0 the floor keeps the product of the fraction between the other factor and 0. -/
theorem fraction_of_neg {d : Int} {f : Nat} (hd : d < 0) (hf : f < 65536) :
    d ≤ d * f / 65536 ∧ d * f / 65536 ≤ 0 := by
  have hhigh : d * f ≤ 0 := mul_nonpos_of_nonpos_of_nonneg hd.le (by positivity)
  have hlow : d * 65536 ≤ d * f := mul_le_mul_of_nonpos_left (by omega) hd.le
  omega

theorem lerp_eq (a b : Int) (f : Nat) : lerp a b f = a + (b - a) * f / 65536 := rfl

@[simp] theorem lerp_zero (a b : Int) : lerp a b 0 = a := by simp [lerp]

/-- Rising, the interpolation stays in [a, b), or at a = b. -/
theorem lerp_of_le {a b : Int} {f : Nat} (hab : a ≤ b) (hf : f < 65536) :
    a ≤ lerp a b f ∧ (lerp a b f < b ∨ a = b) ∧ lerp a b f ≤ b := by
  have := fraction_of_nonneg (sub_nonneg.mpr hab) hf
  rw [lerp_eq]
  omega

/-- Falling, the interpolation stays in [b, a]. -/
theorem lerp_of_gt {a b : Int} {f : Nat} (hba : b < a) (hf : f < 65536) :
    b ≤ lerp a b f ∧ lerp a b f ≤ a := by
  have := fraction_of_neg (sub_neg.mpr hba) hf
  rw [lerp_eq]
  omega

/-- An interpolated sample fits a sample: storing it in 16 bits loses nothing. -/
theorem toInt_ofInt_lerp (a b : Sample) {f : Nat} (hf : f < 65536) :
    (BitVec.ofInt 16 (lerp a.toInt b.toInt f)).toInt = lerp a.toInt b.toInt f := by
  have := a.toInt_lt
  have := a.le_toInt
  have := b.toInt_lt
  have := b.le_toInt
  rcases le_or_gt a.toInt b.toInt with h | h
  · have := lerp_of_le h hf
    exact BitVec.toInt_ofInt_eq_self (by decide) (by omega) (by omega)
  · have := lerp_of_gt h hf
    exact BitVec.toInt_ofInt_eq_self (by decide) (by omega) (by omega)

theorem lerpFrame_toInt (p c : Frame) {f : Nat} (hf : f < 65536) :
    (lerpFrame p c f).l.toInt = lerp p.l.toInt c.l.toInt f ∧
      (lerpFrame p c f).r.toInt = lerp p.r.toInt c.r.toInt f :=
  ⟨toInt_ofInt_lerp _ _ hf, toInt_ofInt_lerp _ _ hf⟩

/-- At phase 0 the output is the previous frame. -/
@[simp] theorem lerpFrame_zero (p c : Frame) : lerpFrame p c 0 = p := by simp [lerpFrame]

/-- Settles O23: the two directions of the interpolation, and both lanes of a frame read back exactly. -/
theorem lerpStaysBetween : Obligations.LerpStaysBetween :=
  ⟨fun a b _ _ _ _ _ hf => ⟨fun h => lerp_of_le h hf, fun h => lerp_of_gt h hf, lerp_zero a b⟩,
    fun p c _ hf => lerpFrame_toInt p c hf⟩

/-- One channel of 41_resampler.md R173: the floored product must leave both ends. -/
theorem lerp_strictlyBetween_iff (a b : Int) {f : Nat} (hf : f < 65536) :
    (min a b < lerp a b f ∧ lerp a b f < max a b) ↔
      ((a < b ∧ 65536 ≤ (b - a) * f) ∨ (b < a ∧ 0 < f ∧ 65536 ≤ (a - b) * (65536 - f))) := by
  rw [lerp_eq]
  rcases lt_trichotomy a b with hab | rfl | hab
  · have := fraction_of_nonneg (sub_nonneg.mpr hab.le) hf
    omega
  · simp
  · have hsplit : (a - b) * (65536 - f) = (a - b) * 65536 + (b - a) * f := by ring
    have hzero : (b - a) * f < 0 ↔ 0 < f := by
      rw [mul_neg_iff]
      omega
    rw [hsplit]
    omega

/-- Settles O24: both lanes are `lerp`, read back exactly. -/
theorem interpolationStrictlyBetween : Obligations.InterpolationStrictlyBetween := by
  intro x y f hf
  obtain ⟨hl, hr⟩ := lerpFrame_toInt x y hf
  rw [hl, hr]
  exact ⟨lerp_strictlyBetween_iff _ _ hf, lerp_strictlyBetween_iff _ _ hf⟩

end Sys2Proof.Machine
end

section
/-! PROOF. The ring as a queue under the core's writes (42_ringbuffer.md R202, R205, R207). -/

namespace Sys2Proof.Machine

/-- A value short of two rounds wraps at most once. -/
theorem mod_of_lt_two_mul {a n : Nat} (h : a < 2 * n) : a % n = if a < n then a else a - n := by
  split
  · exact Nat.mod_eq_of_lt ‹_›
  · rw [Nat.mod_eq_sub_mod (by omega), Nat.mod_eq_of_lt (by omega)]

/-- The occupancy of a ring with its cursors in range, on naturals. -/
theorem RingState.occ_eq {g : RingState} (hw : g.w < g.cap) (hr : g.r < g.cap) :
    g.occ = if g.r ≤ g.w then g.w - g.r else g.w + g.cap - g.r := by
  rw [RingState.occ, if_neg (by omega)]
  split
  · rw [Int.emod_eq_of_lt (by omega) (by omega)]
    omega
  · rw [← Int.add_emod_right, Int.emod_eq_of_lt (by omega) (by omega)]
    omega

theorem RingState.full_eq_false_iff {g : RingState} (hw : g.w < g.cap) :
    g.full = false ↔ (g.w + 1) % g.cap ≠ g.r := by
  have : g.cap ≠ 0 := by omega
  simp [RingState.full, this]

/-- A write with space adds its frame at the back of the queue. -/
theorem RingState.contents_push {nMax : Nat} {g : RingState} (f : Frame) (h : g.Wf nMax) (hf : g.full = false) :
    (g.push f).contents = g.contents ++ [f] := by
  obtain ⟨h2, -, hw, hr, hlen⟩ := RingState.present_of_not_full h hf
  have hnext := mod_of_lt_two_mul (a := g.w + 1) (n := g.cap) (by omega)
  have hspace := (RingState.full_eq_false_iff hw).mp hf
  have hocc := RingState.occ_eq hw hr
  have hpush : (g.push f).occ = g.occ + 1 := by
    rw [RingState.occ_eq (g := g.push f) (Nat.mod_lt _ (by omega)) hr, hocc]
    simp only [RingState.push]
    grind
  have hslot (i : Nat) (hi : i ≤ g.occ) : (g.r + i) % g.cap = g.w ↔ i = g.occ := by
    rw [mod_of_lt_two_mul (by grind)]
    grind
  rw [RingState.contents, RingState.contents, hpush, List.range_succ, List.map_append]
  congr 1
  · refine List.map_congr_left fun i hi => ?_
    have hi := List.mem_range.mp hi
    have hne : g.w ≠ (g.r + i) % g.cap := fun he => by have := (hslot i hi.le).mp he.symm; omega
    simp [RingState.push, List.getD_eq_getElem?_getD, List.getElem?_set_ne hne]
  · have hw' : g.w < g.store.length := by omega
    simp [RingState.push, (hslot g.occ le_rfl).mpr rfl, List.getD_eq_getElem?_getD, List.getElem?_set_self hw']

/-- The ring after a list of writes, each of which found space. -/
inductive RingState.Writes : RingState → List Frame → RingState → Prop
  | nil (g : RingState) : Writes g [] g
  | cons {g g' : RingState} {f : Frame} {fs : List Frame} (hf : g.full = false) (h : Writes (g.push f) fs g') :
      Writes g (f :: fs) g'

theorem RingState.Writes.append {g g' g'' : RingState} {fs fs' : List Frame} (h : g.Writes fs g')
    (h' : g'.Writes fs' g'') : g.Writes (fs ++ fs') g'' := by
  induction h with
  | nil => exact h'
  | cons hf _ ih => exact .cons hf (ih h')

/-- Writes that found space add their frames at the back of the queue, in order. -/
theorem RingState.Writes.contents {nMax : Nat} {g g' : RingState} {fs : List Frame} (h : g.Writes fs g')
    (hg : g.Wf nMax) : g'.contents = g.contents ++ fs := by
  induction h with
  | nil => simp
  | cons hf _ ih => simp [ih (RingState.push_wf _ hg hf), RingState.contents_push _ hg hf]

end Sys2Proof.Machine
end

section
/-! SUPPORT. The resample core against the stream of an unbounded ring (41_resampler.md R153 to R155, R161, R163): what
one run of the core consumes, writes and leaves, said once. -/

namespace Sys2Proof.Machine

/-! ### The outputs of one input frame

At an adjusted step of at least 1 the fuel ONE − fp never runs out, so the outputs of a frame depend on the phase
alone: `frameOutputs a p c (ONE - fp) fp` is the spelling used from here on. -/

theorem frameOutputs_of_ge {a fp : Nat} (p c : Frame) (fuel : Nat) (h : ONE ≤ fp) :
    frameOutputs a p c fuel fp = [] := by
  cases fuel with
  | zero => rfl
  | succ k => exact if_neg (Nat.not_lt.mpr h)

/-- Any two fuels that reach ONE give the same outputs. -/
theorem frameOutputs_fuel {a : Nat} (ha : 1 ≤ a) (p c : Frame) {fuel fuel' fp : Nat} (h : ONE ≤ fp + fuel)
    (h' : ONE ≤ fp + fuel') : frameOutputs a p c fuel fp = frameOutputs a p c fuel' fp := by
  induction fuel generalizing fuel' fp with
  | zero =>
    have hge : ONE ≤ fp := h
    rw [frameOutputs_of_ge p c _ hge, frameOutputs_of_ge p c _ hge]
  | succ k ih =>
    rcases Nat.lt_or_ge fp ONE with hlt | hge
    · obtain ⟨m, rfl⟩ : ∃ m, fuel' = m + 1 := ⟨fuel' - 1, by omega⟩
      rw [frameOutputs, frameOutputs, ih (fuel' := m) (by omega) (by omega)]
    · rw [frameOutputs_of_ge p c _ hge, frameOutputs_of_ge p c _ hge]

/-- One emission, then the outputs from the phase it leaves. -/
theorem frameOutputs_of_lt {a fp : Nat} (ha : 1 ≤ a) (p c : Frame) (h : fp < ONE) :
    frameOutputs a p c (ONE - fp) fp = lerpFrame p c fp :: frameOutputs a p c (ONE - (fp + a)) (fp + a) := by
  rw [frameOutputs_fuel ha p c (fuel' := ONE - fp - 1 + 1) (by omega) (by omega), frameOutputs, if_pos h,
    frameOutputs_fuel ha p c (fuel' := ONE - (fp + a)) (by omega) (by omega)]

theorem frameOutputs_length_le (a : Nat) (p c : Frame) (fuel fp : Nat) :
    (frameOutputs a p c fuel fp).length ≤ fuel := by
  induction fuel generalizing fp with
  | zero => exact Nat.le_refl _
  | succ k ih =>
    rw [frameOutputs]
    split
    · exact Nat.succ_le_succ (ih _)
    · exact Nat.zero_le _

/-! ### The stream, frame by frame -/

theorem streamOutputs_boot (a : Nat) (x : Frame) (xs : List Frame) (fp : Nat) (p : Frame) :
    streamOutputs a (x :: xs) fp p false = streamOutputs a xs fp x true := rfl

theorem streamOutputs_frame (a : Nat) (x : Frame) (xs : List Frame) (fp : Nat) (p : Frame) :
    streamOutputs a (x :: xs) fp p true =
      frameOutputs a p x (ONE - fp) fp ++
        streamOutputs a xs (fp + a * (frameOutputs a p x (ONE - fp) fp).length - ONE) x true := rfl

/-- At most ONE outputs for each input frame (41_resampler.md R170). -/
theorem streamOutputs_length_le (a : Nat) (xs : List Frame) (fp : Nat) (p : Frame) (hp : Bool) :
    (streamOutputs a xs fp p hp).length ≤ xs.length * ONE := by
  induction xs generalizing fp p hp with
  | nil => exact Nat.zero_le _
  | cons x xs ih =>
    cases hp with
    | false =>
      rw [streamOutputs_boot]
      exact (ih fp x true).trans (Nat.mul_le_mul_right _ (Nat.le_succ _))
    | true =>
      have hframe := frameOutputs_length_le a p x (ONE - fp) fp
      have hrest := ih (fp + a * (frameOutputs a p x (ONE - fp) fp).length - ONE) x true
      rw [streamOutputs_frame, List.length_append, List.length_cons, Nat.succ_mul]
      omega

/-! ### One emission loop -/

/-- What the emission loop writes is the front of its frame's outputs, and the phase it leaves gives the rest: none at
all where it ends unstopped. -/
theorem emitLoop_outputs (mode : CoreMode) {a : Nat} (x : Frame) (ha : 1 ≤ a) (fuel : Nat) (c d : CoreRun)
    (hd : (emitLoop mode a x fuel c).1 = d) (hfuel : ONE ≤ c.fp + fuel) :
    ∃ out, d.written = c.written + out.length ∧ (mode = .ring → c.ring.Writes out d.ring) ∧
      frameOutputs a c.pv x (ONE - c.fp) c.fp = out ++ frameOutputs a c.pv x (ONE - d.fp) d.fp := by
  induction fuel generalizing c with
  | zero => exact ⟨[], by simp [← hd, emitLoop], fun _ => hd ▸ .nil _, by simp [← hd, emitLoop]⟩
  | succ k ih =>
    rw [emitLoop] at hd
    split at hd
    next hlt =>
      split at hd
      next => exact ⟨[], by simp [← hd], fun _ => hd ▸ .nil _, by simp [← hd]⟩
      next hspace =>
        obtain ⟨out, hwritten, hring, hout⟩ := ih (c.emit mode a x) hd (by rw [CoreRun.emit_fp]; omega)
        refine ⟨lerpFrame c.pv x c.fp :: out, ?_, fun hm => ?_, ?_⟩
        · rw [hwritten, CoreRun.emit_written, List.length_cons]
          omega
        · refine .cons (by simpa [hm] using hspace) ?_
          simpa [hm] using hring hm
        · rw [frameOutputs_of_lt ha _ _ hlt, List.cons_append]
          exact congrArg _ hout
    next => exact ⟨[], by simp [← hd], fun _ => hd ▸ .nil _, by simp [← hd]⟩

/-! ### One run of the core -/

/-- A run of the core over `xs` from `c` to `d` that consumes `k` frames and writes `out`. -/
structure CoreRun.Fed (mode : CoreMode) (a : Nat) (xs : List Frame) (c d : CoreRun) (k : Nat) (out : List Frame) :
    Prop where
  consumed : d.consumed = c.consumed + k
  consumed_le : k ≤ xs.length
  written : d.written = c.written + out.length
  /-- the unconsumed frames give the rest of the stream from what the run leaves (41_resampler.md R163) -/
  stream : streamOutputs a xs c.fp c.pv c.hp = out ++ streamOutputs a (xs.drop k) d.fp d.pv d.hp
  ring : mode = .ring → c.ring.Writes out d.ring
  dry : mode = .dry → k = xs.length ∧ d.ring = c.ring
  stopped : k < xs.length → d.ring.full = true ∧ d.fp < ONE ∧ d.hp = true
  /-- each output moves the phase by one adjusted step, each frame after the bootstrap takes one ONE off it -/
  phase : c.hp = true → d.hp = true ∧ d.fp + k * ONE = c.fp + a * out.length
  prev : k = xs.length → d.pv = xs.getLastD c.pv

theorem CoreRun.Fed.nil (mode : CoreMode) (a : Nat) (c : CoreRun) : CoreRun.Fed mode a [] c c 0 [] where
  consumed := rfl
  consumed_le := Nat.le_refl _
  written := rfl
  stream := rfl
  ring _ := .nil _
  dry _ := ⟨rfl, rfl⟩
  stopped := nofun
  phase h := ⟨h, by simp⟩
  prev _ := rfl

section Frames

variable {mode : CoreMode} {a : Nat} {x : Frame} {xs : List Frame} {c d : CoreRun} {k : Nat} {out : List Frame}

theorem CoreRun.Fed.boot (hp : c.hp = false) (h : CoreRun.Fed mode a xs (c.bootstrap x) d k out) :
    CoreRun.Fed mode a (x :: xs) c d (k + 1) out where
  consumed := by rw [h.consumed, CoreRun.bootstrap_consumed]; omega
  consumed_le := Nat.succ_le_succ h.consumed_le
  written := h.written
  stream := by rw [hp, streamOutputs_boot]; exact h.stream
  ring := h.ring
  dry hm := ⟨congrArg (· + 1) (h.dry hm).1, (h.dry hm).2⟩
  stopped hk := h.stopped (Nat.lt_of_succ_lt_succ hk)
  phase hp' := absurd (hp'.symm.trans hp) nofun
  prev hk := by rw [List.getLastD_cons]; exact h.prev (Nat.succ.inj hk)

/-- A frame whose emission loop ends unstopped is consumed. -/
theorem CoreRun.Fed.frame (ha : 1 ≤ a) (hp : c.hp = true) {e : CoreRun}
    (he : emitLoop mode a x (ONE - c.fp) c = (e, true)) (h : CoreRun.Fed mode a xs (e.wrap x) d k out) :
    ∃ pre, CoreRun.Fed mode a (x :: xs) c d (k + 1) (pre ++ out) := by
  obtain ⟨hpv, hhp, hconsumed, -, -, hphase, hdry, hdone, -⟩ := emitLoop_counts mode a x ha _ c _ he (by omega)
  obtain ⟨pre, hwritten, hring, hout⟩ := emitLoop_outputs mode x ha (ONE - c.fp) c e (by rw [he]) (by omega)
  have hge : ONE ≤ e.fp := hdone rfl
  have hfp : e.fp = c.fp + a * pre.length := by simpa [hwritten] using hphase
  rw [frameOutputs_of_ge _ _ _ hge, List.append_nil] at hout
  have hwrap : (e.wrap x).hp = true := hhp.trans hp
  refine ⟨pre, {
    consumed := by rw [h.consumed, CoreRun.wrap_consumed, hconsumed]; omega
    consumed_le := Nat.succ_le_succ h.consumed_le
    written := by rw [h.written, CoreRun.wrap_written, hwritten, List.length_append]; omega
    stream := ?_
    ring := fun hm => (hring hm).append (h.ring hm)
    dry := fun hm => ⟨congrArg (· + 1) (h.dry hm).1, (h.dry hm).2.trans (hdry hm).2⟩
    stopped := fun hk => h.stopped (Nat.lt_of_succ_lt_succ hk)
    phase := fun _ => ⟨(h.phase hwrap).1, ?_⟩
    prev := fun hk => by rw [List.getLastD_cons]; exact h.prev (Nat.succ.inj hk) }⟩
  · have hrest := h.stream
    rw [hwrap, CoreRun.wrap_fp, CoreRun.wrap_pv, hfp] at hrest
    rw [hp, streamOutputs_frame, hout, hrest, List.append_assoc, List.drop_succ_cons]
  · have hrest := (h.phase hwrap).2
    rw [CoreRun.wrap_fp] at hrest
    rw [List.length_append, Nat.mul_add, Nat.succ_mul]
    omega

/-- A frame whose emission loop a full ring stops is not consumed, and its outputs left go on from the phase left. -/
theorem CoreRun.Fed.stop (ha : 1 ≤ a) (hp : c.hp = true) (he : emitLoop mode a x (ONE - c.fp) c = (d, false)) :
    ∃ out, CoreRun.Fed mode a (x :: xs) c d 0 out := by
  obtain ⟨hpv, hhp, hconsumed, -, -, hphase, hdry, -, hstop⟩ := emitLoop_counts mode a x ha _ c _ he (by omega)
  obtain ⟨out, hwritten, hring, hout⟩ := emitLoop_outputs mode x ha (ONE - c.fp) c d (by rw [he]) (by omega)
  obtain ⟨hlt, hfull⟩ := hstop rfl
  have hfp : d.fp = c.fp + a * out.length := by simpa [hwritten] using hphase
  have hhp : d.hp = true := hhp.trans hp
  refine ⟨out, {
    consumed := hconsumed
    consumed_le := Nat.zero_le _
    written := hwritten
    stream := ?_
    ring := hring
    dry := fun hm => absurd (hdry hm).1 nofun
    stopped := fun _ => ⟨hfull, hlt, hhp⟩
    phase := fun _ => ⟨hhp, by simpa using hfp⟩
    prev := nofun }⟩
  have hpv : d.pv = c.pv := hpv
  rw [hp, hhp, hpv, List.drop_zero, streamOutputs_frame, streamOutputs_frame, hout, List.append_assoc,
    List.length_append, Nat.mul_add, ← Nat.add_assoc, ← hfp]

end Frames

/-- Every run of the core is one of these. -/
theorem coreFrames_fed (mode : CoreMode) {a : Nat} (ha : 1 ≤ a) (xs : List Frame) (c : CoreRun) :
    ∃ k out, CoreRun.Fed mode a xs c (coreFrames mode a xs c) k out := by
  induction xs generalizing c with
  | nil => exact ⟨0, [], .nil mode a c⟩
  | cons x xs ih =>
    cases hp : c.hp with
    | false =>
      obtain ⟨k, out, h⟩ := ih (c.bootstrap x)
      rw [coreFrames_cons_boot mode a x xs c hp]
      exact ⟨k + 1, out, h.boot hp⟩
    | true =>
      rw [coreFrames_cons_hp mode a x xs c hp]
      cases he : emitLoop mode a x (ONE - c.fp) c with
      | mk e done =>
        cases done with
        | false => exact ⟨0, CoreRun.Fed.stop ha hp he⟩
        | true =>
          obtain ⟨k, out, h⟩ := ih (e.wrap x)
          obtain ⟨pre, h⟩ := h.frame ha hp he
          exact ⟨k + 1, pre ++ out, h⟩

/-- A run that consumes all its frames writes the whole stream. -/
theorem CoreRun.Fed.written_of_all {mode : CoreMode} {a : Nat} {xs : List Frame} {c d : CoreRun} {k : Nat}
    {out : List Frame} (h : CoreRun.Fed mode a xs c d k out) (hk : k = xs.length) :
    streamOutputs a xs c.fp c.pv c.hp = out := by
  rw [h.stream, List.drop_of_length_le hk.ge]
  simp [streamOutputs]

end Sys2Proof.Machine
end

section
/-! PROOF. Runs of the core: their counts (41_resampler.md R170), the stop and what follows it (R163), the closed form
of a stream (R171), its rate (R172) and equal rates (R169). -/

namespace Sys2Proof.Machine

/-- Settles O32: the frames written are a front of the stream, which has at most ONE outputs per frame. -/
theorem coreCountsBounded : Obligations.CoreCountsBounded := by
  rintro mode a xs c _ ha rfl
  obtain ⟨k, out, h⟩ := coreFrames_fed mode ha xs c
  have hbound : out.length ≤ xs.length * ONE := by
    have := streamOutputs_length_le a xs c.fp c.pv c.hp
    rw [h.stream, List.length_append] at this
    omega
  have hconsumed := h.consumed
  have hwritten := h.written
  have hle := h.consumed_le
  refine ⟨by omega, by omega, by omega, ?_, fun hm => ?_, fun hk => h.stopped (by omega)⟩
  · rw [hwritten]
    exact Nat.add_le_add_left hbound _
  · obtain ⟨hk, hring⟩ := h.dry hm
    exact ⟨by omega, hring⟩

/-- Settles O34: the writes of a run extend the queue by the front of the stream, and what the run leaves gives the
rest. -/
theorem stoppedResampleResumes : Obligations.StoppedResampleResumes := by
  rintro nMax a xs c _ ha hring rfl
  obtain ⟨k, out, h⟩ := coreFrames_fed .ring ha xs c
  have hk : (coreFrames .ring a xs c).consumed - c.consumed = k := by rw [h.consumed]; omega
  have hout : (streamOutputs a xs c.fp c.pv c.hp).take ((coreFrames .ring a xs c).written - c.written) = out := by
    rw [h.written, Nat.add_sub_cancel_left, h.stream, List.take_left]
  rw [hout, hk]
  exact ⟨(h.ring rfl).contents hring, h.stream, fun hlt => (h.stopped hlt).1⟩

/-! ### The closed form of a stream -/

/-- The stream's value at a position in 16.16: between the two frames around it, at its fraction. -/
def pointAt (ys : List Frame) (pos : Nat) : Frame :=
  lerpFrame (ys.getD (pos / ONE) Frame.zero) (ys.getD (pos / ONE + 1) Frame.zero) (pos % ONE)

theorem pointAt_of_lt {pos : Nat} (p x : Frame) (xs : List Frame) (h : pos < ONE) :
    pointAt (p :: x :: xs) pos = lerpFrame p x pos := by
  rw [pointAt, Nat.div_eq_of_lt h, Nat.mod_eq_of_lt h]
  rfl

theorem pointAt_cons (p : Frame) (ys : List Frame) (pos : Nat) : pointAt (p :: ys) (pos + ONE) = pointAt ys pos := by
  rw [pointAt, Nat.add_div_right _ (by decide), Nat.add_mod_right]
  rfl

/-- One more position, `a` apart, lies below `m` than below `m - a`. -/
theorem ceilDiv_step {a m : Nat} (ha : 1 ≤ a) (hm : 0 < m) : (m + a - 1) / a = (m - a + a - 1) / a + 1 := by
  rcases Nat.lt_or_ge m a with h | h
  · rw [Nat.sub_eq_zero_of_le h.le, Nat.div_eq_of_lt (by omega : 0 + a - 1 < a), show m + a - 1 = m - 1 + a by omega,
      Nat.add_div_right _ ha, Nat.div_eq_of_lt (by omega : m - 1 < a)]
  · rw [← Nat.add_div_right _ ha]
    congr 1
    omega

theorem streamOutputs_emit {a fp : Nat} (ha : 1 ≤ a) (p x : Frame) (xs : List Frame) (h : fp < ONE) :
    streamOutputs a (x :: xs) fp p true = lerpFrame p x fp :: streamOutputs a (x :: xs) (fp + a) p true := by
  rw [streamOutputs_frame, streamOutputs_frame, frameOutputs_of_lt ha p x h, List.length_cons, Nat.mul_succ,
    Nat.add_comm (a * _) a, ← Nat.add_assoc, List.cons_append]

theorem streamOutputs_wrap {a fp : Nat} (p x : Frame) (xs : List Frame) (h : ONE ≤ fp) :
    streamOutputs a (x :: xs) fp p true = streamOutputs a xs (fp - ONE) x true := by
  rw [streamOutputs_frame, frameOutputs_of_ge p x _ h]
  rfl

/-- Output j of a stream is its value at position fp + j·a, for every such position before the last frame. -/
theorem streamOutputs_eq_points {a : Nat} (ha : 1 ≤ a) (xs : List Frame) (fp : Nat) (p : Frame) :
    streamOutputs a xs fp p true =
      (List.range ((xs.length * ONE - fp + a - 1) / a)).map fun j => pointAt (p :: xs) (fp + j * a) := by
  induction xs generalizing fp p with
  | nil =>
    rw [List.length_nil, Nat.zero_mul, Nat.zero_sub, Nat.zero_add, Nat.div_eq_of_lt (by omega)]
    rfl
  | cons x xs ih =>
    induction hm : ONE - fp using Nat.strong_induction_on generalizing fp with
    | _ m ihm =>
      rcases Nat.lt_or_ge fp ONE with hlt | hge
      · have hlast : 0 < (x :: xs).length * ONE - fp := by rw [List.length_cons, Nat.succ_mul]; omega
        have hshift (j : Nat) : fp + (j + 1) * a = fp + a + j * a := by rw [Nat.succ_mul]; omega
        rw [streamOutputs_emit ha p x xs hlt, ihm _ (by omega) (fp + a) rfl, ceilDiv_step ha hlast,
          List.range_succ_eq_map, List.map_cons, List.map_map, Nat.zero_mul, Nat.add_zero, Nat.sub_sub]
        simp [hshift, pointAt_of_lt p x xs hlt]
      · obtain ⟨q, rfl⟩ : ∃ q, fp = q + ONE := ⟨fp - ONE, by omega⟩
        have hleft : (x :: xs).length * ONE - (q + ONE) = xs.length * ONE - q := by
          rw [List.length_cons, Nat.succ_mul]
          omega
        simp only [streamOutputs_wrap p x xs hge, ih, Nat.add_sub_cancel, hleft]
        refine List.map_congr_left fun j _ => ?_
        rw [show q + ONE + j * a = q + j * a + ONE by omega]
        exact (pointAt_cons p (x :: xs) (q + j * a)).symm

/-- A dry run after the bootstrap of a fresh resampler: the whole stream, and the phase its count leaves. -/
theorem coreFrames_dry_fresh {a : Nat} (ha : 1 ≤ a) (x : Frame) (xs : List Frame) (g : RingState) :
    CoreRun.Fed .dry a xs ((CoreRun.fresh g).bootstrap x) (coreFrames .dry a (x :: xs) (CoreRun.fresh g)) xs.length
      (streamOutputs a xs 0 x true) := by
  rw [coreFrames_cons_boot _ _ _ _ _ rfl]
  obtain ⟨k, out, h⟩ := coreFrames_fed .dry ha xs ((CoreRun.fresh g).bootstrap x)
  obtain ⟨rfl, -⟩ := h.dry rfl
  obtain rfl := h.written_of_all rfl
  exact h

/-- The number of outputs of a fresh stream: the first frame gives none (41_resampler.md R171). -/
theorem streamOutputs_length_fresh {a : Nat} (ha : 1 ≤ a) (x : Frame) (xs : List Frame) :
    (streamOutputs a xs 0 x true).length = (xs.length * ONE + a - 1) / a := by
  simp [streamOutputs_eq_points ha]

/-- Settles O35: after the bootstrap the stream is `streamOutputs_eq_points` from phase 0. -/
theorem streamClosedForm : Obligations.StreamClosedForm := by
  rintro a (_ | ⟨x, xs⟩) g _ _ ha hne rfl rfl
  · exact absurd rfl hne
  have h := coreFrames_dry_fresh ha x xs g
  have hlen := streamOutputs_length_fresh ha x xs
  obtain ⟨hhp, hphase⟩ := h.phase rfl
  refine ⟨?_, ?_, ?_, by rw [List.getLastD_cons]; exact h.prev rfl, hhp, ?_⟩
  · rw [streamOutputs_boot, streamOutputs_eq_points ha]
    simp [pointAt]
  · rw [h.written, hlen]
    simp [CoreRun.fresh]
  · rw [hlen] at hphase
    simpa [CoreRun.fresh, Nat.mul_comm a] using hphase
  · rw [h.consumed]
    simp [CoreRun.fresh, Nat.add_comm]

/-! ### The rate -/

/-- The number W of outputs of N = n − 1 intervals, with the floor of the step and the ceiling of the count kept as
bounds: both cost at most one part in a thousand. -/
theorem rate_within {ri ro a N W : Nat} (ha : 1000 ≤ a) (hlow : a * ro ≤ ri * 65536)
    (hhigh : ri * 65536 < (a + 1) * ro) (hWlow : N * 65536 ≤ W * a) (hWhigh : W * a < N * 65536 + a)
    (hN : 500 ≤ N + 1) (hn : 1000 * ri ≤ (N + 1) * ro) :
    500 * |(W * ri : Int) - ((N + 1) * ro : Int)| ≤ (N + 1) * ro := by
  have hbelow : N * ro ≤ W * ri := by
    refine Nat.le_of_mul_le_mul_left ?_ (by decide : 0 < 65536)
    calc 65536 * (N * ro) = N * 65536 * ro := by ring
      _ ≤ W * a * ro := Nat.mul_le_mul_right _ hWlow
      _ = W * (a * ro) := by ring
      _ ≤ W * (ri * 65536) := Nat.mul_le_mul_left _ hlow
      _ = 65536 * (W * ri) := by ring
  have hstep : 1000 * (ri * 65536) ≤ 1001 * (a * ro) := by
    have hro : 1000 * ro ≤ a * ro := Nat.mul_le_mul_right _ ha
    rw [Nat.succ_mul] at hhigh
    omega
  have habove : 1000 * (W * ri) ≤ 1001 * (N * ro) + 1000 * ri := by
    obtain _ | V := W
    · omega
    have hV : V * a ≤ N * 65536 := by
      rw [Nat.succ_mul] at hWhigh
      omega
    refine Nat.le_of_mul_le_mul_left ?_ (by decide : 0 < 65536)
    calc 65536 * (1000 * ((V + 1) * ri)) = V * (1000 * (ri * 65536)) + 65536 * (1000 * ri) := by ring
      _ ≤ V * (1001 * (a * ro)) + 65536 * (1000 * ri) := by gcongr
      _ = 1001 * (V * a * ro) + 65536 * (1000 * ri) := by ring
      _ ≤ 1001 * (N * 65536 * ro) + 65536 * (1000 * ri) := by gcongr
      _ = 65536 * (1001 * (N * ro) + 1000 * ri) := by ring
  have hone : 500 * ro ≤ (N + 1) * ro := Nat.mul_le_mul_right _ hN
  rw [Nat.succ_mul] at hone hn
  zify at hbelow habove hone hn
  rcases abs_cases ((W * ri : Int) - ((N + 1) * ro : Int)) with ⟨h, -⟩ | ⟨h, -⟩
  · rw [h]; linarith
  · rw [h]; linarith

/-- Settles O36: the count is the ceiling of (n−1)·ONE/A for the floored step A. -/
theorem rateCorrectness : Obligations.RateCorrectness := by
  rintro ri ro (_ | ⟨x, xs⟩) g hri hro hstep hlen hn
  · exact absurd hlen (by decide)
  have ha : adjStep (stepOf ri ro) 65536 = ri * 65536 / ro := by
    rw [stepOf_of_pos hri hro, if_neg (by omega), adjStep_one (by omega)]
  have hlow : ri * 65536 / ro * ro ≤ ri * 65536 := Nat.div_mul_le_self _ _
  have hhigh : ri * 65536 < (ri * 65536 / ro + 1) * ro := Nat.lt_mul_of_div_lt (Nat.lt_succ_self _) hro
  rw [ha]
  generalize ri * 65536 / ro = a at *
  have h := coreFrames_dry_fresh (a := a) (by omega) x xs g
  have hcount := streamOutputs_length_fresh (a := a) (by omega) x xs
  have hphase := (h.phase rfl).2
  have hlowCount : xs.length * 65536 ≤ (streamOutputs a xs 0 x true).length * a := by
    have hstart : ((CoreRun.fresh g).bootstrap x).fp = 0 := rfl
    rw [hstart, ONE_eq] at hphase
    rw [Nat.mul_comm _ a]
    omega
  have hhighCount : (streamOutputs a xs 0 x true).length * a < xs.length * 65536 + a := by
    have hceil := Nat.div_mul_le_self (xs.length * ONE + a - 1) a
    rw [← hcount, ONE_eq] at hceil
    omega
  have hwritten : (coreFrames .dry a (x :: xs) (CoreRun.fresh g)).written = (streamOutputs a xs 0 x true).length := by
    rw [h.written]
    simp [CoreRun.fresh]
  rw [hwritten]
  have hbound := rate_within (N := xs.length) (W := (streamOutputs a xs 0 x true).length) hstep hlow hhigh
    hlowCount hhighCount hlen hn
  simpa using hbound

/-! ### Equal rates -/

/-- At an adjusted step of ONE and phase 0 a frame gives one output, the frame before it. -/
theorem streamOutputs_one (xs : List Frame) (p : Frame) : streamOutputs 65536 xs 0 p true = (p :: xs).dropLast := by
  induction xs generalizing p with
  | nil => rfl
  | cons x xs ih =>
    rw [streamOutputs_emit (by decide) p x xs (by decide), streamOutputs_wrap p x xs (by decide), lerpFrame_zero]
    exact congrArg (p :: ·) (ih x)

/-- Settles O37: a dry run from phase 0 writes the stream of `streamOutputs_one`, one output for each frame. -/
theorem passthroughIdentity : Obligations.PassthroughIdentity := by
  refine ⟨fun r hr => ?step, ?later, ?first⟩
  case step =>
    lift r.toInt to Nat using hr.le with n
    have hn : 0 < n := by omega
    rw [stepOf_of_pos hn hn, Nat.mul_div_cancel_left _ hn]
    decide
  case later =>
    rintro xs _ c _ hfp hhp rfl rfl
    obtain ⟨k, out, h⟩ := coreFrames_fed .dry (by decide : 1 ≤ 65536) xs c
    obtain ⟨hk, -⟩ := h.dry rfl
    have hout := h.written_of_all hk
    rw [hfp, hhp, streamOutputs_one] at hout
    have hlen : out.length = xs.length := by simp [← hout]
    have hphase := (h.phase hhp).2
    rw [ONE_eq] at hphase
    exact ⟨streamOutputs_one xs c.pv, by omega, by rw [h.written, hlen], by rw [h.consumed, hk]⟩
  case first =>
    rintro (_ | ⟨x, xs⟩)
    · rfl
    · rw [streamOutputs_boot, streamOutputs_one]

end Sys2Proof.Machine
end

section
/-! PROOF. Runs of the core one after another (41_resampler.md R165): a run over a concatenation is a run over its first
part, and where that consumed all its frames, a run over the rest. -/

namespace Sys2Proof.Machine

/-- The emission loop consumes no frame, whatever the adjusted step. -/
theorem emitLoop_consumed (mode : CoreMode) (a : Nat) (x : Frame) (fuel : Nat) (c : CoreRun) :
    (emitLoop mode a x fuel c).1.consumed = c.consumed := by
  induction fuel generalizing c with
  | zero => rfl
  | succ k ih =>
    rw [emitLoop]
    split
    · split
      · rfl
      · exact ih _
    · rfl

theorem coreFrames_consumed_le (mode : CoreMode) (a : Nat) (xs : List Frame) (c : CoreRun) :
    (coreFrames mode a xs c).consumed ≤ c.consumed + xs.length := by
  induction xs generalizing c with
  | nil => exact Nat.le_refl _
  | cons x xs ih =>
    rw [List.length_cons]
    cases hp : c.hp with
    | false =>
      have h := ih (c.bootstrap x)
      rw [CoreRun.bootstrap_consumed] at h
      rw [coreFrames_cons_boot _ _ _ _ _ hp]
      omega
    | true =>
      have hkeep := emitLoop_consumed mode a x (ONE - c.fp) c
      have h := ih ((emitLoop mode a x (ONE - c.fp) c).1.wrap x)
      rw [CoreRun.wrap_consumed] at h
      rw [coreFrames_cons_hp _ _ _ _ _ hp]
      split <;> omega

/-- A run that consumes all of `xs` goes on over `ys` as a run of its own would. -/
theorem coreFrames_append (mode : CoreMode) (a : Nat) (xs ys : List Frame) (c : CoreRun)
    (h : (coreFrames mode a xs c).consumed = c.consumed + xs.length) :
    coreFrames mode a (xs ++ ys) c = coreFrames mode a ys (coreFrames mode a xs c) := by
  induction xs generalizing c with
  | nil => rfl
  | cons x xs ih =>
    rw [List.cons_append]
    rw [List.length_cons] at h
    cases hp : c.hp with
    | false =>
      rw [coreFrames_cons_boot _ _ _ _ _ hp] at h ⊢
      rw [coreFrames_cons_boot _ _ _ _ _ hp]
      exact ih _ (by rw [h, CoreRun.bootstrap_consumed]; omega)
    | true =>
      have hkeep := emitLoop_consumed mode a x (ONE - c.fp) c
      rw [coreFrames_cons_hp _ _ _ _ _ hp] at h ⊢
      rw [coreFrames_cons_hp _ _ _ _ _ hp]
      split at h
      next hdone =>
        rw [if_pos hdone, if_pos hdone]
        exact ih _ (by rw [h, CoreRun.wrap_consumed, hkeep]; omega)
      next => omega

/-- The core fed a partition of its input, one part after another. -/
def coreChunks (mode : CoreMode) (a : Nat) (chunks : List (List Frame)) (c : CoreRun) : CoreRun :=
  chunks.foldl (fun e xs => coreFrames mode a xs e) c

theorem coreChunks_consumed_le (mode : CoreMode) (a : Nat) (chunks : List (List Frame)) (c : CoreRun) :
    (coreChunks mode a chunks c).consumed ≤ c.consumed + chunks.flatten.length := by
  induction chunks generalizing c with
  | nil => exact Nat.le_refl _
  | cons xs chunks ih =>
    have hfirst := coreFrames_consumed_le mode a xs c
    have hrest := ih (coreFrames mode a xs c)
    rw [List.flatten_cons, List.length_append]
    exact hrest.trans (by omega)

/-- Parts that are consumed whole together are each consumed whole, so they run as their concatenation does. -/
theorem coreFrames_flatten (mode : CoreMode) (a : Nat) (chunks : List (List Frame)) (c : CoreRun)
    (h : (coreChunks mode a chunks c).consumed = c.consumed + chunks.flatten.length) :
    coreFrames mode a chunks.flatten c = coreChunks mode a chunks c := by
  induction chunks generalizing c with
  | nil => rfl
  | cons xs chunks ih =>
    have hfirst := coreFrames_consumed_le mode a xs c
    have hrest := coreChunks_consumed_le mode a chunks (coreFrames mode a xs c)
    have hfold : coreChunks mode a (xs :: chunks) c = coreChunks mode a chunks (coreFrames mode a xs c) := rfl
    rw [hfold, List.flatten_cons, List.length_append] at h
    rw [hfold, List.flatten_cons, coreFrames_append _ _ _ _ _ (by omega)]
    exact ih _ (by omega)

/-! ### The counts a run starts from -/

/-- A working copy with its counts moved on. -/
def CoreRun.addCounts (w k : Nat) (c : CoreRun) : CoreRun :=
  { c with written := w + c.written, consumed := k + c.consumed }

theorem emitLoop_addCounts (mode : CoreMode) (a : Nat) (x : Frame) (w k fuel : Nat) (c : CoreRun) :
    emitLoop mode a x fuel (c.addCounts w k) =
      ((emitLoop mode a x fuel c).1.addCounts w k, (emitLoop mode a x fuel c).2) := by
  induction fuel generalizing c with
  | zero => rfl
  | succ n ih =>
    have hemit : (c.addCounts w k).emit mode a x = (c.emit mode a x).addCounts w k := rfl
    have hfp : (c.addCounts w k).fp = c.fp := rfl
    have hring : (c.addCounts w k).ring = c.ring := rfl
    rw [emitLoop, emitLoop, hemit, ih, hfp, hring]
    split_ifs <;> rfl

/-- The core does not read its counts. -/
theorem coreFrames_addCounts (mode : CoreMode) (a : Nat) (w k : Nat) (xs : List Frame) (c : CoreRun) :
    coreFrames mode a xs (c.addCounts w k) = (coreFrames mode a xs c).addCounts w k := by
  induction xs generalizing c with
  | nil => rfl
  | cons x xs ih =>
    have hboot : (c.addCounts w k).bootstrap x = (c.bootstrap x).addCounts w k := rfl
    have hwrap (e : CoreRun) : (e.addCounts w k).wrap x = (e.wrap x).addCounts w k := rfl
    have hloop : emitLoop mode a x (ONE - (c.addCounts w k).fp) (c.addCounts w k) = _ :=
      emitLoop_addCounts mode a x w k (ONE - c.fp) c
    cases hp : c.hp with
    | false =>
      rw [coreFrames_cons_boot _ _ _ _ _ hp, coreFrames_cons_boot mode a x xs (c.addCounts w k) hp, hboot, ih]
    | true =>
      rw [coreFrames_cons_hp _ _ _ _ _ hp, coreFrames_cons_hp mode a x xs (c.addCounts w k) hp, hloop]
      simp only [hwrap, ih]
      split <;> rfl

/-- A run over a concatenation, its first part consumed whole, is that part's run and then one with its counts
from 0. -/
theorem coreFrames_resume (mode : CoreMode) (a : Nat) (xs ys : List Frame) {c d : CoreRun}
    (hd : d = coreFrames mode a xs c) (h : d.consumed = c.consumed + xs.length) :
    coreFrames mode a (xs ++ ys) c =
      (coreFrames mode a ys { d with written := 0, consumed := 0 }).addCounts d.written d.consumed := by
  subst hd
  rw [coreFrames_append mode a xs ys c h, ← coreFrames_addCounts]
  rfl

end Sys2Proof.Machine
end

section
/-! PROOF. The resampler's commands: the whole next state of each (41_resampler.md R160, R162, R164, R166 to R168;
44_engine.md R271), and two RS.RESAMPLE commands over adjacent ranges (R165). -/

namespace Sys2Proof.Machine

/-! ### Running or not, and the speed -/

theorem whenRuns_of_not_runs {runs : Bool} (h : runs = false) (p : Port) (s : State) (body : Result) :
    whenRuns p runs s body = .next (s.withCode p .errState) := by
  rw [h]
  rfl

theorem whenRuns_component {s : State} (h : s.estate ≠ .shutdown) (body : Result) :
    whenRuns .producer (componentRuns s) s body = body := whenRuns_of_runs (componentRuns_iff.mpr h) _ _ _

theorem whenRuns_component_shutdown {s : State} (h : s.estate = .shutdown) (body : Result) :
    whenRuns .producer (componentRuns s) s body = .next (s.withCode .producer .errState) :=
  whenRuns_of_not_runs (by simp [componentRuns, h]) _ _ _

/-- F_SPEED's information is the speed operand itself. -/
theorem raiseFault_fSpeed {s : State} (hf : s.fault = false) (v : Word) :
    raiseFault .fSpeed (trunc32 (sext32 v)) s = { s with fault := true, fcause := .fSpeed, finfo := v } := by
  rw [raiseFault_of_unfaulted hf, trunc32, sext32, BitVec.ofInt_toInt]

theorem satU32_of_lt {n : Nat} (h : n < 2 ^ 32) : satU32 n = BitVec.ofNat 32 n := by
  rw [satU32, Nat.min_eq_left (by omega)]

theorem satU32_toNat (n : Nat) : (satU32 n).toNat = min n (2 ^ 32 - 1) := by
  rw [satU32, BitVec.toNat_ofNat]
  omega

/-! ### RS.INIT, RS.RESET, ENG.RESET, RS.ISNEEDED -/

/-- Settles O25: the command's body, or the engine-state test's ERR_STATE. -/
theorem rsInitResult : Obligations.RsInitResult :=
  fun _ => ⟨fun h => whenRuns_component h _, fun h => whenRuns_component_shutdown h _⟩

/-- Settles O26: the two commands have one body, under different tests of the engine state. -/
theorem resetCommandsClearPhase : Obligations.ResetCommandsClearPhase := by
  refine fun s => ⟨fun h => whenRuns_component h _, fun h => whenRuns_component_shutdown h _, fun h => ?runs,
    fun h => ?notRun⟩
  case runs => exact whenRuns_of_runs (engineRuns_iff.mpr h) _ _ _
  case notRun => exact whenRuns_of_not_runs (by rcases h with h | h <;> simp [engineRuns, h]) _ _ _

/-- Settles O27: rates are compared as signed words, so the flag is 0 exactly where the words are equal. -/
theorem rsIsNeededResult : Obligations.RsIsNeededResult := by
  refine fun s => ⟨fun h => (whenRuns_component h _).trans ?_, fun h => whenRuns_component_shutdown h _⟩
  by_cases heq : s.pport.arg0.toInt = s.pport.arg1.toInt
  · simp [flagWord, sext32, heq, State.withPRes0, State.withCode]
  · simp [flagWord, sext32, heq, State.withPRes0, State.withCode]

/-! ### RS.ESTIMATE -/

/-- The estimate for a positive speed, on integers (41_resampler.md R166). -/
theorem estimate_cast (i o : Int) (n : Nat) {speed : Int} (hsp : 0 < speed) :
    (estimate i o n speed.toNat : Int) =
      if i ≤ 0 ∨ o ≤ 0 then (n : Int) else (2 * n * o * 65536 + i * speed) / (2 * i * speed) := by
  unfold estimate
  split
  · rfl
  · push_cast
    rw [Int.toNat_of_nonneg (by omega), Int.toNat_of_nonneg (by omega), Int.toNat_of_nonneg hsp.le]
    rfl

theorem satU32_eq_ofInt (n : Nat) : satU32 n = BitVec.ofInt 32 (min (2 ^ 32 - 1) (n : Int)) := by
  rw [satU32, min_comm, ← BitVec.ofInt_natCast]
  push_cast
  rfl

/-- Settles O28: the estimate is the integer quotient, and F_SPEED is tested before it. -/
theorem rsEstimateResult : Obligations.RsEstimateResult := by
  refine fun s => ⟨fun h hsp => (whenRuns_component h _).trans ?answer,
    fun h hsp hf => (whenRuns_component h _).trans ?fault, fun h => whenRuns_component_shutdown h _⟩
  case answer =>
    have hestimate := satU32_eq_ofInt
      (estimate s.rs.inRate.toInt s.rs.outRate.toInt s.pport.arg0.toNat s.pport.arg1.toInt.toNat)
    rw [estimate_cast _ _ _ hsp] at hestimate
    rw [← hestimate]
    exact if_neg (not_le.mpr hsp)
  case fault =>
    rw [← raiseFault_fSpeed hf]
    exact if_pos hsp

/-! ### RS.RESAMPLE and RS.RESAMPLE.DRY -/

/-- RS.RESAMPLE with a positive speed and an admitted range. -/
theorem exec_rsResample_of_admitted {s : State} (he : s.estate ≠ .shutdown) (hsp : 0 < s.pport.arg2.toInt)
    (hr : rangeOK s.env s.pport.arg0.toNat s.pport.arg1.toNat = true) {c : CoreRun}
    (hc : c = resampleCore .ring s.pport.arg0.toNat s.pport.arg1.toNat s.pport.arg2.toInt.toNat s) :
    exec .rsResample s =
      .next (((s.commitCore c).withPRes (satU32 c.written) (satU32 c.consumed)).withCode .producer .ok) := by
  subst hc
  exact ((whenRuns_component he _).trans (if_neg (not_le.mpr hsp))).trans (if_pos hr)

theorem exec_rsResampleDry_of_admitted {s : State} (he : s.estate ≠ .shutdown) (hsp : 0 < s.pport.arg2.toInt)
    (hr : rangeOK s.env s.pport.arg0.toNat s.pport.arg1.toNat = true) {c : CoreRun}
    (hc : c = resampleCore .dry s.pport.arg0.toNat s.pport.arg1.toNat s.pport.arg2.toInt.toNat s) :
    exec .rsResampleDry s =
      .next ((s.withPRes (satU32 c.written) (satU32 c.consumed)).withCode .producer .ok) := by
  subst hc
  exact ((whenRuns_component he _).trans (if_neg (not_le.mpr hsp))).trans (if_pos hr)

/-- Both resample commands raise F_SPEED before they look at the range. -/
theorem exec_resample_of_speed {s : State} (he : s.estate ≠ .shutdown) (hsp : s.pport.arg2.toInt ≤ 0)
    (hf : s.fault = false) :
    exec .rsResample s = .next { s with fault := true, fcause := .fSpeed, finfo := s.pport.arg2 } ∧
      exec .rsResampleDry s = .next { s with fault := true, fcause := .fSpeed, finfo := s.pport.arg2 } := by
  rw [← raiseFault_fSpeed hf]
  exact ⟨(whenRuns_component he _).trans (if_pos hsp), (whenRuns_component he _).trans (if_pos hsp)⟩

/-- A command's run of the core, against the stream of the frames it reads. -/
theorem resampleCore_fed (mode : CoreMode) (src count speed : Nat) (s : State) :
    ∃ k out, CoreRun.Fed mode (adjStep s.rs.step speed) (readFrames s.env.mem src count) (coreStart s)
      (resampleCore mode src count speed s) k out ∧
      (resampleCore mode src count speed s).consumed = k ∧
      (resampleCore mode src count speed s).written = out.length := by
  obtain ⟨k, out, h⟩ := coreFrames_fed mode (adjStep_pos s.rs.step speed) (readFrames s.env.mem src count)
    (coreStart s)
  exact ⟨k, out, h, h.consumed.trans (Nat.zero_add k), h.written.trans (Nat.zero_add _)⟩

theorem resampleCore_consumed_le (mode : CoreMode) (src count speed : Nat) (s : State) :
    (resampleCore mode src count speed s).consumed ≤ count := by
  have h := coreFrames_consumed_le mode (adjStep s.rs.step speed) (readFrames s.env.mem src count) (coreStart s)
  rw [readFrames_length] at h
  exact h.trans (Nat.zero_add count).le

/-- Settles O29: the count consumed is at most the operand, so RES1 is not cut. -/
theorem rsResampleResult : Obligations.RsResampleResult := by
  refine fun s he => ⟨?resampled, fun hsp hf => (exec_resample_of_speed he hsp hf).1⟩
  rintro hsp hr c (hc : c = resampleCore .ring _ _ _ s)
  have hle : c.consumed ≤ s.pport.arg1.toNat := hc ▸ resampleCore_consumed_le _ _ _ _ _
  have hlt := s.pport.arg1.isLt
  refine ⟨?_, hle, fun h0 => ?_⟩
  · rw [exec_rsResample_of_admitted he hsp hr hc, satU32_of_lt (n := c.consumed) (by omega)]
    rfl
  · rw [h0] at hc
    subst hc
    exact ⟨rfl, rfl, rfl, rfl, rfl⟩

/-- Settles O30: an unstopped run, dry or not, writes the whole stream. -/
theorem rsResampleDryResult : Obligations.RsResampleDryResult := by
  refine fun s => ⟨?dry, fun he hsp hf => (exec_resample_of_speed he hsp hf).2,
    fun he => whenRuns_component_shutdown he _⟩
  rintro he hsp hr c (hc : c = resampleCore .dry _ _ _ s)
  have hlt := s.pport.arg1.isLt
  have hlen := readFrames_length s.env.mem s.pport.arg0.toNat s.pport.arg1.toNat
  obtain ⟨k, out, hfed, hk, hw⟩ :=
    resampleCore_fed .dry s.pport.arg0.toNat s.pport.arg1.toNat s.pport.arg2.toInt.toNat s
  rw [← hc] at hfed hk hw
  have hall := (hfed.dry rfl).1
  have hout := hfed.written_of_all hall
  refine ⟨?_, hw.trans (congrArg _ hout.symm), fun t ht hres => ?_⟩
  · rw [exec_rsResampleDry_of_admitted he hsp hr hc, hk, hall, hlen, satU32_of_lt hlt, BitVec.ofNat_toNat,
      BitVec.setWidth_eq]
    rfl
  · obtain ⟨k', out', hfed', hk', hw'⟩ :=
      resampleCore_fed .ring s.pport.arg0.toNat s.pport.arg1.toNat s.pport.arg2.toInt.toNat s
    have hle := hfed'.consumed_le
    rw [exec_rsResample_of_admitted he hsp hr rfl] at ht
    cases ht
    have hall' := congrArg BitVec.toNat (show satU32 _ = s.pport.arg1 from hres)
    rw [satU32_toNat, hk'] at hall'
    have hsame : out' = out := (hfed'.written_of_all (by omega)).symm.trans hout
    rw [hw, ← hsame, ← hw']
    rfl

/-! ### Two RS.RESAMPLE commands over adjacent ranges -/

/-- The operands of RS.RESAMPLE in their registers. -/
def State.withOperands (src n sp : Word) (s : State) : State :=
  { s with pport := { s.pport with arg0 := src, arg1 := n, arg2 := sp } }

/-- What an RS.RESAMPLE with its operands set leaves of the parts the next one reads. -/
theorem resample_next {s t : State} {src n sp : Word} {c : CoreRun} (he : s.estate ≠ .shutdown) (hsp : 0 < sp.toInt)
    (hr : rangeOK s.env src.toNat n.toNat = true) (h : exec .rsResample (s.withOperands src n sp) = .next t)
    (hc : c = resampleCore .ring src.toNat n.toNat sp.toInt.toNat s) :
    t.estate = s.estate ∧ t.env = s.env ∧ t.rs = { s.rs with fracPos := c.fp, prev := c.pv, hasPrev := c.hp } ∧
      t.ring = c.ring ∧ t.pport.res1 = satU32 c.consumed := by
  rw [exec_rsResample_of_admitted (s := s.withOperands src n sp) he hsp hr hc] at h
  cases h
  exact ⟨rfl, rfl, rfl, rfl, rfl⟩

/-- The second of two adjacent ranges begins where the first ends; only an empty one may begin past the last address,
where the word wraps, and nothing is read from it. -/
theorem adjacent_range {e : Env} {src n1 n2 : Word} (h : rangeOK e (src.toNat + 4 * n1.toNat) n2.toNat = true) :
    rangeOK e (src + 4 * n1).toNat n2.toNat = true ∧
      readFrames e.mem (src + 4 * n1).toNat n2.toNat = readFrames e.mem (src.toNat + 4 * n1.toNat) n2.toNat := by
  by_cases h0 : n2.toNat = 0
  · rw [h0]
    exact ⟨rfl, rfl⟩
  · have hstart : (src + 4 * n1).toNat = src.toNat + 4 * n1.toNat := by
      obtain h | ⟨h, -⟩ := (rangeOK_iff _ _ _).mp h
      · exact absurd h h0
      · bv_omega
    rw [hstart]
    exact ⟨h, rfl⟩

/-- A run of the core over two adjacent ranges, when the run over the first consumed all of it and the second starts
from a state that holds what the first left. -/
theorem resampleCore_resume {s t : State} {src next n1 n2 speed : Nat} {c : CoreRun}
    (hc : c = resampleCore .ring src n1 speed s) (hall : c.consumed = n1) (henv : t.env = s.env)
    (hrs : t.rs = { s.rs with fracPos := c.fp, prev := c.pv, hasPrev := c.hp }) (hring : t.ring = c.ring)
    (hread : readFrames s.env.mem next n2 = readFrames s.env.mem (src + 4 * n1) n2) :
    resampleCore .ring src (n1 + n2) speed s =
      (resampleCore .ring next n2 speed t).addCounts c.written c.consumed := by
  have hstart : coreStart t = { c with written := 0, consumed := 0 } := by simp [coreStart, hrs, hring]
  have hstep : t.rs.step = s.rs.step := by rw [hrs]
  have hconsumed : c.consumed = (coreStart s).consumed + (readFrames s.env.mem src n1).length := by
    rw [readFrames_length, hall]
    exact (Nat.zero_add n1).symm
  rw [resampleCore, readFrames_add, ← hread, coreFrames_resume _ _ _ _ hc hconsumed, resampleCore, hstep, henv,
    hstart]

/-- Settles O33: on the core by `coreFrames_flatten`; of two commands the second starts from what the first leaves, with
its counts from 0. -/
theorem chunkingInvariance : Obligations.ChunkingInvariance := by
  refine ⟨fun mode a chunks c d hd hall => ?core, ?commands⟩
  case core =>
    subst hd
    exact coreFrames_flatten mode a chunks c hall
  case commands =>
    intro s t1 t2 t src n1 n2 sp he hsp hn h1 h2 h12 hexec1 hres1 hexec2 hexec
    obtain ⟨hr2, hread2⟩ := adjacent_range h2
    have hsum : (n1 + n2).toNat = n1.toNat + n2.toNat := by rw [BitVec.toNat_add, Nat.mod_eq_of_lt hn]
    rw [← hsum] at h12
    obtain ⟨c1, hc1⟩ : ∃ c, c = resampleCore .ring src.toNat n1.toNat sp.toInt.toNat s := ⟨_, rfl⟩
    obtain ⟨c2, hc2⟩ : ∃ c, c = resampleCore .ring (src + 4 * n1).toNat n2.toNat sp.toInt.toNat t1 := ⟨_, rfl⟩
    have hle1 : c1.consumed ≤ n1.toNat := hc1 ▸ resampleCore_consumed_le _ _ _ _ _
    have hle2 : c2.consumed ≤ n2.toNat := hc2 ▸ resampleCore_consumed_le _ _ _ _ _
    obtain ⟨hstate1, henv1, hrs1, hring1, hcount1⟩ := resample_next he hsp h1 hexec1 hc1
    obtain ⟨-, -, hrs2, hring2, hcount2⟩ := resample_next (hstate1 ▸ he) hsp (henv1 ▸ hr2) hexec2 hc2
    have hall : c1.consumed = n1.toNat := by
      have := congrArg BitVec.toNat (hcount1.symm.trans hres1)
      rw [satU32_toNat] at this
      omega
    have hwhole : c2.addCounts c1.written c1.consumed =
        resampleCore .ring src.toNat (n1 + n2).toNat sp.toInt.toNat s := by
      rw [hsum, hc2, resampleCore_resume hc1 hall henv1 hrs1 hring1 hread2]
    obtain ⟨-, -, hrs, hring, hcount⟩ := resample_next he hsp h12 hexec hwhole
    refine ⟨?_, hring.trans hring2.symm, ?_⟩
    · rw [hrs, hrs2, hrs1]
      rfl
    · have hadd : (c2.addCounts c1.written c1.consumed).consumed = n1.toNat + c2.consumed := by rw [← hall]; rfl
      rw [hcount, hres1, hcount2, hadd]
      apply BitVec.eq_of_toNat_eq
      rw [BitVec.toNat_add, satU32_toNat, satU32_toNat]
      omega

end Sys2Proof.Machine
end

section
/-! PROOF. The ring buffer's statements: the occupancy (42_ringbuffer.md R202, R203, R208), the ring as a queue (R205 to
R207), the free space (R204) and the RB commands (R209 to R212). -/

namespace Sys2Proof.Machine

/-! ### Occupancy, full and free space -/

theorem RingState.occ_of_cap_eq_zero {g : RingState} (h : g.cap = 0) : g.occ = 0 := if_pos h

theorem RingState.full_iff_cursors {g : RingState} : g.full = true ↔ g.cap = 0 ∨ (g.w + 1) % g.cap = g.r := by
  simp [RingState.full]

theorem RingState.full_of_cap_eq_zero {g : RingState} (h : g.cap = 0) : g.full = true :=
  RingState.full_iff_cursors.mpr (.inl h)

/-- A ring with a store holds fewer frames than it has slots. -/
theorem RingState.occ_lt {nMax : Nat} {g : RingState} (h : g.Wf nMax) (h0 : g.cap ≠ 0) : g.occ < g.cap := by
  rcases h with rfl | ⟨_, _, hw, hr, _⟩
  · exact absurd rfl h0
  · rw [RingState.occ_eq hw hr]
    split <;> omega

/-- One slot always stays free: a ring is full when the write cursor stands one slot before the read cursor. -/
theorem RingState.full_iff_occ {g : RingState} (hw : g.w < g.cap) (hr : g.r < g.cap) :
    g.full = true ↔ g.occ = g.cap - 1 := by
  have hnext := mod_of_lt_two_mul (a := g.w + 1) (n := g.cap) (by omega)
  rw [RingState.full_iff_cursors, hnext, RingState.occ_eq hw hr]
  split <;> split <;> omega

theorem RingState.full_iff_freeSpace {nMax : Nat} {g : RingState} (h : g.Wf nMax) :
    g.full = true ↔ g.freeSpace = 0 := by
  rcases h with rfl | ⟨h2, hN, hw, hr, hlen⟩
  · exact ⟨fun _ => rfl, fun _ => rfl⟩
  · have hlt := RingState.occ_lt (Or.inr ⟨h2, hN, hw, hr, hlen⟩) (by omega)
    rw [RingState.full_iff_occ hw hr, RingState.freeSpace, if_neg (by omega)]
    omega

/-- Settles O41: the remainder of the cursors' difference, whose one wrap is the source's second case. -/
theorem occupancyCaseSplit : Obligations.OccupancyCaseSplit := by
  refine ⟨fun nMax g h h2 => ?present,
    fun g h0 => ⟨RingState.occ_of_cap_eq_zero h0, RingState.full_of_cap_eq_zero h0⟩⟩
  have h0 : g.cap ≠ 0 := by omega
  have hlt := RingState.occ_lt h h0
  rcases h with rfl | ⟨_, _, hw, hr, _⟩
  · exact absurd rfl h0
  · refine ⟨?_, ?_, by omega, RingState.full_iff_occ hw hr⟩
    · rw [RingState.occ, if_neg h0, Int.toNat_of_nonneg (Int.emod_nonneg _ (by omega))]
    · rw [RingState.occ_eq hw hr]
      split <;> omega

/-! ### The queue -/

@[simp] theorem RingState.contents_length (g : RingState) : g.contents.length = g.occ := by
  simp [RingState.contents]

theorem RingState.contents_eq_nil_iff {g : RingState} : g.contents = [] ↔ g.occ = 0 := by
  rw [← List.length_eq_zero_iff, RingState.contents_length]

theorem RingState.pop_of_empty {g : RingState} (h : g.occ = 0) : g.pop = none := if_pos h

theorem RingState.pop_of_nonempty {g : RingState} (h : g.occ ≠ 0) :
    g.pop = some (g.store.getD g.r Frame.zero, { g with r := (g.r + 1) % g.cap }) := if_neg h

theorem RingState.pop_eq_none_iff {g : RingState} : g.pop = none ↔ g.contents = [] := by
  rw [RingState.contents_eq_nil_iff]
  exact ⟨fun hp => by_contra fun h => by simp [RingState.pop_of_nonempty h] at hp, RingState.pop_of_empty⟩

/-- A read leaves one frame less. -/
theorem RingState.occ_pop {nMax : Nat} {g h : RingState} {f : Frame} (hg : g.Wf nMax) (hp : g.pop = some (f, h)) :
    g.occ = h.occ + 1 := by
  obtain ⟨-, hocc, -, rfl⟩ := RingState.pop_spec hg hp
  rcases hg with rfl | ⟨_, _, hw, hr, _⟩
  · exact absurd rfl hocc
  · have hnext := mod_of_lt_two_mul (a := g.r + 1) (n := g.cap) (by omega)
    have hlt : (g.r + 1) % g.cap < g.cap := Nat.mod_lt _ (by omega)
    rw [RingState.occ_eq hw hr] at hocc ⊢
    rw [RingState.occ_eq (g := { g with r := (g.r + 1) % g.cap }) hw hlt]
    dsimp only
    rw [hnext]
    grind

/-- A read takes the frame at the front: the slots after it are those the moved read cursor counts from. -/
theorem RingState.contents_pop {nMax : Nat} {g h : RingState} {f : Frame} (hg : g.Wf nMax)
    (hp : g.pop = some (f, h)) : g.contents = f :: h.contents := by
  have hocc := RingState.occ_pop hg hp
  obtain ⟨-, hne, rfl, rfl⟩ := RingState.pop_spec hg hp
  have hr : g.r % g.cap = g.r := by
    rcases hg with rfl | ⟨_, _, _, hr, _⟩
    · exact absurd rfl hne
    · exact Nat.mod_eq_of_lt hr
  have hslot (i : Nat) : ((g.r + 1) % g.cap + i) % g.cap = (g.r + (i + 1)) % g.cap := by
    rw [Nat.mod_add_mod, Nat.add_assoc, Nat.add_comm 1 i]
  rw [RingState.contents, RingState.contents, hocc, List.range_succ_eq_map]
  simp [hr, hslot]

/-- Settles O43: what a write appends and a read takes is `contents_push` and `contents_pop`. -/
theorem ringIsFifo : Obligations.RingIsFifo := by
  intro nMax g hg
  exact ⟨g.contents_length, fun f hf => ⟨RingState.push_wf f hg hf, RingState.contents_push f hg hf⟩,
    RingState.pop_eq_none_iff,
    fun f h hp => ⟨(RingState.pop_wf hg hp).1, RingState.contents_pop hg hp⟩,
    fun n => RingState.contents_eq_nil_iff.mpr (by simp [RingState.occ, RingState.sized])⟩

/-! ### The free space as a count of writes -/

theorem RingState.occ_push {nMax : Nat} {g : RingState} (f : Frame) (h : g.Wf nMax) (hf : g.full = false) :
    (g.push f).occ = g.occ + 1 := by
  simpa using congrArg List.length (RingState.contents_push f h hf)

theorem RingState.freeSpace_push {nMax : Nat} {g : RingState} (f : Frame) (h : g.Wf nMax) (hf : g.full = false) :
    g.freeSpace = (g.push f).freeSpace + 1 := by
  have hocc := RingState.occ_push f h hf
  have h0 : g.cap ≠ 0 := fun h0 => by simp [RingState.full_of_cap_eq_zero h0] at hf
  have hlt : (g.push f).occ < g.cap := RingState.occ_lt (RingState.push_wf f h hf) h0
  rw [RingState.freeSpace, RingState.freeSpace, if_neg h0, if_neg (show (g.push f).cap ≠ 0 from h0),
    show (g.push f).cap = g.cap from rfl]
  omega

/-- Settles O42, by induction on the writes: each takes one from the free space, and full is no free space. -/
theorem freeSpaceCountsWrites : Obligations.FreeSpaceCountsWrites := by
  refine fun nMax g fs h => ⟨rfl, fun hle => ?_⟩
  induction fs generalizing g with
  | nil => exact (RingState.full_iff_freeSpace h).trans eq_comm
  | cons f fs ih =>
    have hf : g.full = false := by
      rw [← Bool.not_eq_true, RingState.full_iff_freeSpace h]
      exact Nat.ne_of_gt (Nat.lt_of_lt_of_le fs.length.succ_pos hle)
    have hfree := RingState.freeSpace_push f h hf
    rw [List.length_cons, hfree] at hle ⊢
    rw [List.foldl_cons, ih (g.push f) (RingState.push_wf f h hf) (by omega)]
    omega

/-! ### RB.WRITE, RB.READ, RB.FILL -/

/-- Settles O38: the command's body split on RingFull(). -/
theorem rbWriteResult : Obligations.RbWriteResult := by
  refine fun s => ⟨fun he h0 hspace => (whenRuns_component he _).trans ?space,
    fun he hfull hf => ⟨wideWord .finfo s.ring.w, (whenRuns_component he _).trans ?full, fun hw => if_pos hw⟩,
    fun he => whenRuns_component_shutdown he _⟩
  case space => exact if_neg fun h => (RingState.full_iff_cursors.mp h).elim h0 hspace
  case full => rw [if_pos (RingState.full_iff_cursors.mpr hfull), raiseFault_of_unfaulted hf]

/-- Settles O39: the command's body split on EMPTY. -/
theorem rbReadResult : Obligations.RbReadResult := by
  refine fun s => ⟨fun he hocc => (whenRuns_of_runs (componentRuns_iff.mpr he) _ _ _).trans ?empty,
    fun he hocc => (whenRuns_of_runs (componentRuns_iff.mpr he) _ _ _).trans ?nonempty,
    fun he => whenRuns_of_not_runs (by simp [componentRuns, he]) _ _ _⟩
  case empty => rw [RingState.pop_of_empty hocc]; rfl
  case nonempty => rw [RingState.pop_of_nonempty hocc]; rfl

/-- The fill fraction is below ONE, since one slot always stays free (42_ringbuffer.md R209). -/
theorem RingState.fillFx_lt {nMax : Nat} {g : RingState} (h : g.Wf nMax) : g.fillFx < 65536 := by
  rw [RingState.fillFx, ONE_eq]
  split
  · decide
  · next h0 =>
    have hlt := RingState.occ_lt h h0
    exact Nat.div_lt_of_lt_mul (by omega)

/-- Settles O40: a fraction below ONE fits its word. -/
theorem rbFillResult : Obligations.RbFillResult := by
  refine fun s => ⟨fun he hg => ⟨(whenRuns_component he _).trans ?_, RingState.fillFx_lt hg⟩,
    fun he => whenRuns_component_shutdown he _⟩
  have hlt := RingState.fillFx_lt hg
  rw [satU32_of_lt (by omega)]
  rfl

end Sys2Proof.Machine
end

section
/-! PROOF. Rate control (43_ratecontrol.md): the multiplier as one expression, from which its order, its range
and its slopes follow, and the command that returns it. -/

namespace Sys2Proof.Machine

/-! ### The multiplier -/

/-- The three branches of R231 as one expression: outside its own slope each deviation is a truncated difference,
so it is 0. -/
theorem rateAdj_eq (f : Nat) :
    rateAdj f = 65536 - (196608 - 10 * min f 65536) / 150 + (10 * min f 65536 - 458752) / 150 := by
  unfold rateAdj
  rw [ONE_eq]
  dsimp only
  split
  · omega
  · split <;> omega

/-- 43_ratecontrol.md R233: a larger fraction makes the deviation below smaller and the one above larger. -/
theorem rateAdj_mono : Monotone rateAdj := by
  intro f g h
  rw [rateAdj_eq, rateAdj_eq]
  gcongr

/-- A fraction of ONE or more has the value at ONE (43_ratecontrol.md R231). -/
theorem rateAdj_of_one_le {f : Nat} (h : 65536 ≤ f) : rateAdj f = 66846 := by
  rw [rateAdj_eq, min_eq_right h]

/-- The range of R232: by monotonicity, the value at 0 and the value at and above ONE bound every other. -/
theorem rateAdj_mem_Icc (f : Nat) : rateAdj f ∈ Set.Icc 64226 66846 :=
  ⟨calc 64226 = rateAdj 0 := by decide
      _ ≤ rateAdj f := rateAdj_mono f.zero_le,
   calc rateAdj f ≤ rateAdj (max f 65536) := rateAdj_mono (le_max_left ..)
      _ = 66846 := rateAdj_of_one_le (le_max_right ..)⟩

/-- Fifteen units of F take 150 from the scaled distance to the deadband's lower edge, one unit of deviation
(43_ratecontrol.md R234). -/
theorem rateAdj_add_fifteen_below {f : Nat} (h : f + 15 ≤ 19660) : rateAdj (f + 15) = rateAdj f + 1 := by
  rw [rateAdj_eq, rateAdj_eq, min_eq_left (by omega), min_eq_left (by omega)]
  omega

/-- The same rise above the deadband, up to ONE (43_ratecontrol.md R234). -/
theorem rateAdj_add_fifteen_above {f : Nat} (hlow : 45876 ≤ f) (hhigh : f + 15 ≤ 65536) :
    rateAdj (f + 15) = rateAdj f + 1 := by
  rw [rateAdj_eq, rateAdj_eq, min_eq_left hhigh, min_eq_left (by omega)]
  omega

/-! ### The statements -/

/-- Settles O45: the command's body or ERR_STATE by the engine-state test, then the multiplier's range and order. -/
theorem rcAdjustResult : Obligations.RcAdjustResult :=
  ⟨fun _ => ⟨fun he => whenRuns_component he _, fun he => whenRuns_component_shutdown he _⟩,
    fun f => ⟨(rateAdj_mem_Icc f).1, (rateAdj_mem_Icc f).2, fun h => rateAdj_of_one_le h.le⟩,
    fun _ _ h => rateAdj_mono h⟩

/-- Settles O46: the table's eleven points are values of the model; the slopes hold at every F of theirs. -/
theorem rateAdjTable : Obligations.RateAdjTable :=
  ⟨by decide, by decide, by decide, by decide, by decide, by decide, by decide, by decide, by decide, by decide,
    by decide, fun _ h => rateAdj_add_fifteen_below h, fun _ hlow hhigh => rateAdj_add_fifteen_above hlow hhigh⟩

end Sys2Proof.Machine
end

section
/-! PROOF. The engine's commands on the producer port but ENG.INGEST: the capacity and what a sizing leaves
(44_engine.md R252), the whole next state of each (R251, R254, R257, R270, R272), and the transitions of the engine
state (R273). -/

namespace Sys2Proof.Machine

/-! ### Running or not -/

theorem whenRuns_engine {s : State} (h : s.estate = .ready ∨ s.estate = .resized) (body : Result) :
    whenRuns .producer (engineRuns s) s body = body := whenRuns_of_runs (engineRuns_iff.mpr h) _ _ _

theorem whenRuns_engine_off {s : State} (h : s.estate = .uninit ∨ s.estate = .shutdown) (body : Result) :
    whenRuns .producer (engineRuns s) s body = .next (s.withCode .producer .errState) :=
  whenRuns_of_not_runs (by rcases h with h | h <;> simp [engineRuns, h]) _ _ _

/-- Each command is its body under the test of 44_engine.md R274, so it answers ERR_STATE where the test fails. -/
theorem exec_of_not_runs {i : Instr} {s : State} (h : commandRuns i s = false) :
    exec i s = .next (s.withCode (portOf i) .errState) := by
  cases i <;> exact whenRuns_of_not_runs h _ _ _

/-! ### The capacity -/

/-- Settles O47: the quotient is the capacity where it lies in [2, NMAX]. -/
theorem capacityFormula : Obligations.CapacityFormula := by
  refine ⟨fun nMax i drive bufsec n => ?capacity,
    fun n => ⟨rfl, rfl, rfl, List.length_replicate, fun f hf => List.eq_of_mem_replicate hf⟩,
    by decide, by decide, by decide, by decide, by decide⟩
  by_cases hd : drive = 0
  · simp [capacityOf, hd]
  · simp only [capacityOf, if_neg hd]
    split
    · simp only [reduceCtorEq, false_iff]
      omega
    · simp only [Option.some.injEq]
      omega

/-! ### ENG.INIT and ENG.RESIZE -/

theorem grantOf_cons {e : Env} {g req : Word} {l : List Word} (h : e.grants = g :: l) : grantOf e req = g := by
  rw [grantOf, h]

/-- Settles O48: the granted rate is the draw of GRANT; the sizing decides the ring, RES1 and the code. -/
theorem engInitResult : Obligations.EngInitResult := by
  refine fun s => ⟨fun he => ⟨grantOf s.env s.pport.arg1, fun g l hg => grantOf_cons hg, fun n hn => ?sized,
    fun hn => ?failed⟩, fun he => whenRuns_of_not_runs (by simpa [initRuns] using he) _ _ _⟩
  all_goals
    change whenRuns _ _ _ _ = _
    rw [whenRuns_of_runs (by simp [initRuns, he])]
    simp only [sext32, zext32, hn]
    rfl

/-- Settles O49: the sizing decides between the two next states. -/
theorem engResizeResult : Obligations.EngResizeResult := by
  refine fun s => ⟨fun he => ⟨fun n hn => (whenRuns_engine he _).trans ?sized,
    fun hn => (whenRuns_engine he _).trans ?failed⟩, fun he => whenRuns_engine_off he _⟩
  all_goals
    simp only [sext32, zext32, hn]
    rfl

/-! ### ENG.INGEST with no store, ENG.OCCUPANCY and ENG.QUIT -/

/-- Settles O50: the start section tests the store before anything else. -/
theorem ingestAbsentStoreReturnsZero : Obligations.IngestAbsentStoreReturnsZero :=
  fun _ he h0 => (whenRuns_engine he _).trans (if_pos h0)

/-- One slot always stays free, so 100 percent is not reached (44_engine.md R270). -/
theorem RingState.percent_le {nMax : Nat} {g : RingState} (h : g.Wf nMax) :
    (if g.cap = 0 then 0 else g.occ * 100 / g.cap) ≤ 99 := by
  split
  · decide
  · next h0 =>
    have hlt := RingState.occ_lt h h0
    exact Nat.le_of_lt_succ (Nat.div_lt_of_lt_mul (by omega))

/-- Settles O55: a percent fits its word. -/
theorem occupancyPercentResult : Obligations.OccupancyPercentResult := by
  refine fun s => ⟨fun he hg => ⟨(whenRuns_engine he _).trans ?_, RingState.percent_le hg⟩,
    fun he => whenRuns_engine_off he _⟩
  have hle := RingState.percent_le hg
  rw [satU32_of_lt (by omega)]
  rfl

/-- Settles O56: SHUTDOWN with cons_en false fails the test of every command. -/
theorem engQuitResult : Obligations.EngQuitResult := by
  refine ⟨fun t i he hc => ?after,
    fun s => ⟨fun he => whenRuns_engine he _, fun he => whenRuns_engine_off he _⟩⟩
  have hoff : commandRuns i t = false := by cases i <;> simp [commandRuns, he, hc]
  rw [exec_of_not_runs hoff]
  cases portOf i <;> rfl

/-! ### The transitions of the engine state -/

/-- The table of 44_engine.md R273 but power-on reset: the command that takes the engine from one state to another. -/
inductive EngineTransition : Instr → State → State → Prop
  | init {s t : State} (hs : s.estate = .uninit) (ht : t.estate = .ready) : EngineTransition .engInit s t
  | resize {s t : State} (hs : s.estate = .ready) (ht : t.estate = .resized) (hc : t.pport.code = .ok) :
      EngineTransition .engResize s t
  | quit {s t : State} (hs : s.estate = .ready ∨ s.estate = .resized) (ht : t.estate = .shutdown) :
      EngineTransition .engQuit s t

/-- Only the sizings and ENG.QUIT write the engine state. -/
theorem CommandEffect.estate_eq {i : Instr} {s t : State} (he : CommandEffect s i t) (hi : ¬ ReplacesStore i) :
    t.estate = s.estate := by
  cases he with
  | engineBuilt | engineResized | resizeFailed | engineQuit => exact absurd (by simp [ReplacesStore]) hi
  | notRun | faulted | stalled => simp
  | _ => rfl

theorem exec_transition {i : Instr} {s t : State} (h : exec i s = .next t) (hne : t.estate ≠ s.estate) :
    EngineTransition i s t := by
  have hi : ReplacesStore i := by_contra fun hi => hne ((exec_effect h).estate_eq hi)
  obtain rfl | rfl | rfl := hi <;> obtain ⟨-, rfl⟩ | ⟨hr, h⟩ := whenRuns_next h
  any_goals exact absurd (State.withCode_estate _ _ s) hne
  · cases h
    exact .init (by simpa [initRuns] using hr) rfl
  · split at h <;> cases h
    · exact .resize ((engineRuns_iff.mp hr).resolve_right fun hs => hne hs.symm) rfl rfl
    · exact absurd rfl hne
  · cases h
    exact .quit (engineRuns_iff.mp hr) rfl

theorem issue_transition {p : Port} {c : Word} {s t : State} (h : issue p c s = .next t) (hne : t.estate ≠ s.estate) :
    ∃ i, c = encode i ∧ portOf i = p ∧ EngineTransition i s t := by
  obtain ⟨-, rfl⟩ | ⟨-, -, rfl⟩ | ⟨-, _, -, -, rfl⟩ | ⟨-, i, hi, hp, he⟩ := issue_next h
  · exact absurd (raiseFault_estate _ _ s) hne
  · exact absurd (State.withCode_estate _ _ s) hne
  · exact absurd (State.withCode_estate _ _ s) hne
  · exact ⟨i, eq_encode_of_decode hi, hp, exec_transition he hne⟩

theorem writeAccess_transition {p : Port} {width : Nat} {off v : Word} {s t : State}
    (h : writeAccess p width off v s = .next t) (hne : t.estate ≠ s.estate) :
    ∃ i, width = 4 ∧ off = 0 ∧ v = encode i ∧ portOf i = p ∧ EngineTransition i s t := by
  obtain ⟨hok, rfl, hi⟩ | ⟨-, -, rfl⟩ | ⟨-, rfl⟩ := writeAccess_next h
  · obtain ⟨i, hv, hp, ht⟩ := issue_transition hi hne
    exact ⟨i, accessOK_width hok, rfl, hv, hp, ht⟩
  · exact absurd (writeReg_estate _ _ _ s) hne
  · exact absurd (raiseFault_estate _ _ s) hne

theorem ingestWake_estate {s t : State} (h : ingestWake s = .next t) : t.estate = s.estate := by
  cases ingestWake_effect h with
  | woken _ he => exact he.estate_eq (by simp [ReplacesStore])
  | faulted => exact raiseFault_estate _ _ s

theorem readAccess_estate {p : Port} {width : Nat} {off : Word} {s t : State} (h : readAccess p width off s = .next t) :
    t.estate = s.estate := by
  obtain ⟨-, rfl⟩ | ⟨-, rfl⟩ := readAccess_next h
  · exact State.withBus_estate _ _ s
  · exact raiseFault_estate _ _ s

/-- Settles O57: of the steps only power-on reset and a command's write to CMD write the engine state. -/
theorem engineTransitions : Obligations.EngineTransitions := by
  intro s t h hne
  obtain ⟨-, -, -, -, -, u, hu, rfl⟩ | ⟨-, -, -, -, -, rfl⟩ | ⟨rest, hs, rfl⟩ | ⟨a, b, rest, -, rfl⟩ |
    ⟨rest, -, -, -, -, u, hu, rfl⟩ | ⟨p, width, off, rest, -, -, -, -, u, hu, rfl⟩ |
    ⟨p, width, off, v, rest, hs, -, -, -, u, hu, rfl⟩ := step_next h
  · exact absurd (ingestWake_estate hu) hne
  · exact absurd rfl hne
  · exact ⟨.powerOn, rest, hs, by simp [powerOn, State.reset]⟩
  · exact absurd rfl hne
  · exact absurd (ingestWake_estate hu) hne
  · exact absurd (readAccess_estate hu) hne
  · obtain ⟨i, rfl, rfl, rfl, rfl, ht⟩ := writeAccess_transition hu hne
    refine ⟨_, rest, hs, ?_⟩
    cases ht with
    | init hs ht => exact .inl ⟨rfl, hs, ht⟩
    | resize hs ht hc => exact .inr (.inl ⟨rfl, hs, ht, hc⟩)
    | quit hs ht => exact .inr (.inr (.inl ⟨rfl, hs, ht⟩))

end Sys2Proof.Machine
end

section
/-! PROOF. ENG.INGEST with a store (44_engine.md R256, R258 to R261): each attempt sleeps or resamples, and a sleeping
ENG.INGEST ends within its budget (R264). -/

namespace Sys2Proof.Machine

/-! ### One attempt -/

/-- The state the final resample of ENG.INGEST leaves (44_engine.md R261). -/
def State.ingested (c : CoreRun) (s : State) : State :=
  { s with
    rs := { s.rs with fracPos := c.fp, prev := c.pv, hasPrev := c.hp }
    ring := c.ring
    iphase := .idle
    pport := { s.pport with
      res0 := BitVec.ofNat 32 c.consumed, res1 := BitVec.ofNat 32 (min c.written (2 ^ 32 - 1)), code := .ok } }

theorem ingestAttempt_of_short {s : State} {k : Nat} {src count : Word} (hn : ingestNeedsSpace count s = true)
    (hk : k < s.env.params.retryMax) :
    ingestAttempt k src count s = .next { s with iphase := .sleeping (k + 1) src count } := if_pos ⟨hn, hk⟩

/-- The final attempt on an admitted range; the count consumed is at most the operand, so RES0 is not cut. -/
theorem ingestAttempt_of_final {s : State} {k : Nat} {src count : Word}
    (hfinal : ¬ (ingestNeedsSpace count s = true ∧ k < s.env.params.retryMax))
    (hr : rangeOK s.env src.toNat count.toNat = true) :
    ingestAttempt k src count s =
      .next (s.ingested (resampleCore .ring src.toNat count.toNat (ingestMultiplier s) s)) := by
  have hle := resampleCore_consumed_le .ring src.toNat count.toNat (ingestMultiplier s) s
  have hlt := count.isLt
  have hcount := satU32_of_lt (n := (resampleCore .ring src.toNat count.toNat (ingestMultiplier s) s).consumed)
    (by omega)
  rw [State.ingested, ← hcount]
  exact (if_neg hfinal).trans (if_pos hr)

theorem ingestMultiplier_eq {s : State} (hcap : s.ring.cap ≠ 0) :
    ingestMultiplier s = rateAdj (s.ring.occ * 65536 / s.ring.cap) := by
  rw [ingestMultiplier, RingState.fillFx, if_neg hcap, ONE_eq]

section Attempt

variable {s : State} {k m need : Nat} {src count : Word} (hcap : s.ring.cap ≠ 0)
  (hm : m = rateAdj (s.ring.occ * 65536 / s.ring.cap))
  (hneed : need = estimate s.rs.inRate.toInt s.rs.outRate.toInt count.toNat m)
include hcap hm hneed

/-- With too little space and budget left, an attempt is a sleep. -/
theorem ingestAttempt_sleeps (hshort : s.ring.cap - 1 - s.ring.occ < need) (hk : k < s.env.params.retryMax) :
    ingestAttempt k src count s = .next { s with iphase := .sleeping (k + 1) src count } :=
  ingestAttempt_of_short ((ingestNeedsSpace_iff hcap hm count).mpr (hneed ▸ hshort)) hk

/-- With space, or with the budget spent, an attempt on an admitted range resamples at the fill's multiplier. -/
theorem ingestAttempt_resamples (hfinal : need ≤ s.ring.cap - 1 - s.ring.occ ∨ s.env.params.retryMax ≤ k)
    (hr : rangeOK s.env src.toNat count.toNat = true) :
    ingestAttempt k src count s = .next (s.ingested (resampleCore .ring src.toNat count.toNat m s)) := by
  have hspace := ingestNeedsSpace_iff hcap hm count
  rw [← hneed] at hspace
  rw [ingestAttempt_of_final (by rw [hspace]; omega) hr, ingestMultiplier_eq hcap, ← hm]

end Attempt

/-- An empty input is estimated at 0 frames, so it never waits for space (44_engine.md R259). -/
theorem estimate_zero_frames (i o : Int) (speed : Nat) : estimate i o 0 speed = 0 := by
  unfold estimate
  split
  · rfl
  · have hhalf : i.toNat * speed / (2 * i.toNat * speed) = 0 := by
      rw [Nat.div_eq_zero_iff, Nat.mul_assoc]
      omega
    simpa using hhalf

/-- The Wake as the next action: what the attempt does under the lock, once the lock is free again. -/
theorem step_of_wake {s t : State} {k : Nat} {src count : Word} {rest : List Input}
    (hs : s.env.script = .wake :: rest) (hf : s.fault = false) (hp : s.pStuck = false) (hl : s.lock = .free)
    (hi : s.iphase = .sleeping k src count)
    (ha : ingestAttempt k src count ((s.withScript rest).acquire .producer) = .next (t.acquire .producer))
    (ht : t.lock = .free) : step s = .next t :=
  step_of_section hs rfl hf hp hl
    ((ingestWake_eq_attempt (s := (s.withScript rest).acquire .producer) hi).trans ha) ht

/-- Settles O51: the start section is attempt 0 and a Wake in the k-th sleep is attempt k, which reads neither the lock
nor the script. -/
theorem ingestSleepsOrResamples : Obligations.IngestSleepsOrResamples := by
  refine ⟨fun s m need he hcap hm hneed => ?start,
    fun s m need k src count rest hs hf hp hl hi hcap hm hneed => ?wake⟩
  case start =>
    rw [exec_engIngest_eq_attempt he hcap]
    refine ⟨fun hshort hk => ingestAttempt_sleeps hcap hm hneed hshort hk, fun hfinal hr c hc => ?_, fun h0 => ?_⟩
    · subst hc
      exact ingestAttempt_resamples hcap hm hneed (by omega) hr
    · rw [hneed, h0]
      exact estimate_zero_frames _ _ m
  case wake =>
    refine ⟨fun hshort hk => step_of_wake hs hf hp hl hi ?_ hl, fun hfinal => ⟨fun hr c hc => ?_, fun hr => ?_⟩⟩
    · exact ingestAttempt_sleeps (s := (s.withScript rest).acquire .producer) hcap hm hneed hshort hk
    · subst hc
      exact step_of_wake hs hf hp hl hi
        (ingestAttempt_resamples (s := (s.withScript rest).acquire .producer) hcap hm hneed hfinal hr) hl
    · subst hneed
      exact step_of_wake hs hf hp hl hi
        (ingestAttempt_of_unadmitted (s := (s.withScript rest).acquire .producer) hcap hm hfinal hr) hl

/-! ### The budget -/

theorem core_run_succ {s t : State} (h : step s = .next t) (j : Nat) : core.run (j + 1) s = core.run j t := by
  have hcore : core.step s = .next t := h
  simp only [Host.Core.run, hcore]

/-- An ENG.INGEST in its `k`-th sleep that nothing but its own Wake can reach, on an admitted range. -/
structure State.SleepsAlone (s : State) (k : Nat) (src count : Word) : Prop where
  lock : s.lock = .free
  iphase : s.iphase = .sleeping k src count
  fault : s.fault = false
  pStuck : s.pStuck = false
  script : s.env.script = []
  range : rangeOK s.env src.toNat count.toNat = true

section Budget

variable {s : State} {k : Nat} {src count : Word}

/-- The step of a block with no action left and an ENG.INGEST asleep is its next attempt. -/
theorem State.SleepsAlone.step_eq (h : s.SleepsAlone k src count) {u : State}
    (ha : ingestAttempt k src count (s.acquire .producer) = .next u) : step s = .next u.release := by
  have hbusy : s.iphase.busy = true := by rw [h.iphase]; rfl
  rw [step_of_script_nil h.script, idleStep_of_busy hbusy,
    agentStep_of_enabled (p := .producer) h.fault h.pStuck h.lock,
    ingestWake_eq_attempt (s := s.acquire .producer) h.iphase, ha]
  rfl

/-- One step of it takes one sleep of the budget, or completes. -/
theorem State.SleepsAlone.step_cases (h : s.SleepsAlone k src count) :
    (k < s.env.params.retryMax ∧
      ∃ t, step s = .next t ∧ t.SleepsAlone (k + 1) src count ∧ t.env.params = s.env.params) ∨
    ∃ t, step s = .next t ∧ t.iphase = .idle ∧ t.pport.code = .ok := by
  by_cases hn : ingestNeedsSpace count (s.acquire .producer) = true ∧ k < s.env.params.retryMax
  · left
    obtain ⟨hshort, hk⟩ := hn
    exact ⟨hk, _, h.step_eq (ingestAttempt_of_short hshort hk),
      ⟨rfl, rfl, h.fault, h.pStuck, h.script, h.range⟩, rfl⟩
  · right
    exact ⟨_, h.step_eq (ingestAttempt_of_final hn h.range), rfl, rfl⟩

/-- It completes within the sleeps its budget leaves plus one step, by induction on the sleeps left. -/
theorem State.SleepsAlone.completes (h : s.SleepsAlone k src count) :
    ∃ (j : Nat) (t : State), j ≤ s.env.params.retryMax - k + 1 ∧ core.run j s = .next t ∧ t.iphase = .idle ∧
      t.pport.code = .ok := by
  induction hd : s.env.params.retryMax - k generalizing s k with
  | zero =>
    obtain ⟨hk, -⟩ | ⟨t, hst, hidle, hok⟩ := h.step_cases
    · omega
    · exact ⟨1, t, le_rfl, core_run_succ hst 0, hidle, hok⟩
  | succ d ih =>
    obtain ⟨-, t, hst, ht, hpar⟩ | ⟨t, hst, hidle, hok⟩ := h.step_cases
    · obtain ⟨j, u, hj, hrun, hend⟩ := ih ht (by rw [hpar]; omega)
      exact ⟨j + 1, u, by omega, (core_run_succ hst j).trans hrun, hend⟩
    · exact ⟨1, t, by omega, core_run_succ hst 0, hidle, hok⟩

end Budget

/-- Settles O52: of the invariant only the free lock is needed. -/
theorem ingestEndsWithinBudget : Obligations.IngestEndsWithinBudget :=
  fun _ _ _ _ ⟨hl, _⟩ hi hf hp hs hr => State.SleepsAlone.completes ⟨hl, hi, hf, hp, hs, hr⟩

end Sys2Proof.Machine
end

section
/-! PROOF. ENG.PULL (44_engine.md R265 to R269): the loop serves the ring's queue from the front and repeats the last
frame it knows of when the queue is empty. -/

namespace Sys2Proof.Machine

/-! ### The command -/

/-- The state ENG.PULL leaves, from what its loop ends with. -/
def State.pulled (q : PullRun) (s : State) : State :=
  { s with
    ring := q.ring, lastRead := q.lastRead, hasLast := q.hasLast, env := { s.env with mem := q.mem }
    cport := { s.cport with code := .ok } }

theorem exec_engPull_of_admitted {s : State} (hc : s.consEn = true)
    (hr : rangeOK s.env s.cport.arg0.toNat s.cport.arg1.toNat = true) :
    exec .engPull s = .next (s.pulled (pullLoop s.cport.arg1.toNat s.cport.arg0.toNat (pullStart s))) :=
  (whenRuns_of_runs (runs := pullRuns s) hc _ _ _).trans (if_pos hr)

/-- The loop moves the read cursor and no other part of the ring. -/
theorem pullLoop_ring_eq (n a : Nat) (q : PullRun) :
    (pullLoop n a q).ring = { q.ring with r := (pullLoop n a q).ring.r } := by
  obtain ⟨hcap, hstore, hw⟩ := pullLoop_ring n a q
  dsimp only
  rw [← hcap, ← hstore, ← hw]

/-- Settles O53: the loop touches of the ring the read cursor, and of host memory its own range. -/
theorem pullResultAndFrame : Obligations.PullResultAndFrame := by
  refine fun s => ⟨fun hc hr => ⟨_, exec_engPull_of_admitted hc hr, ?_, fun a ha => pullLoop_mem_other _ _ a _ ha⟩,
    fun hc => whenRuns_of_not_runs (runs := pullRuns s) hc _ _ _⟩
  exact congrArg (fun g => { s.pulled (pullLoop _ _ (pullStart s)) with ring := g })
    (pullLoop_ring_eq _ _ _)

/-! ### One output frame -/

/-- The frame ENG.PULL serves next: the front of the queue, or the underrun frame (44_engine.md R266, R268). -/
def PullRun.served (q : PullRun) : Frame := q.ring.contents.headD q.underrun

/-- One output frame: the frame served goes to memory and is the underrun frame from then on, the queue loses its front,
and only a frame of the queue is recorded (44_engine.md R266 to R268). -/
theorem PullRun.frame_spec {nMax : Nat} {q : PullRun} (a : Nat) (hq : q.ring.Wf nMax) :
    (q.frame a).ring.Wf nMax ∧ (q.frame a).ring.contents = q.ring.contents.tail ∧
      (q.frame a).underrun = q.served ∧ (q.frame a).mem = memWrite32 q.mem a (pack q.served) ∧
      (q.frame a).lastRead = q.ring.contents.headD q.lastRead ∧
      (q.frame a).hasLast = (q.hasLast || !q.ring.contents.isEmpty) := by
  unfold PullRun.frame
  split
  next f g hp =>
    simp [PullRun.served, PullRun.underrun, RingState.contents_pop hq hp, (RingState.pop_wf hq hp).1]
  next hp => simp [PullRun.served, PullRun.underrun, RingState.pop_eq_none_iff.mp hp, hq]

/-! ### The loop -/

theorem memRead32_pullLoop_below (n : Nat) {a b : Nat} (h : b + 4 ≤ a) (q : PullRun) :
    memRead32 (pullLoop n a q).mem b = memRead32 q.mem b := by
  simp only [memRead32]
  rw [pullLoop_mem_other n a _ q (by omega), pullLoop_mem_other n a _ q (by omega),
    pullLoop_mem_other n a _ q (by omega), pullLoop_mem_other n a _ q (by omega)]

/-- The `k`-th frame written is the `k`-th of the queue; past its end, the queue's last, or the underrun frame. -/
theorem pullLoop_serves {nMax : Nat} (n a : Nat) (q : PullRun) (hq : q.ring.Wf nMax) (hm : Memory.wf q.mem = true)
    (ha : a + 4 * n ≤ 2 ^ 32) {k : Nat} (hk : k < n) :
    unpack (memRead32 (pullLoop n a q).mem (a + 4 * k)) =
      q.ring.contents.getD k (q.ring.contents.getLastD q.underrun) := by
  induction n generalizing a q k with
  | zero => cases hk
  | succ n ih =>
    obtain ⟨hwf, hqueue, hunder, hmem, -, -⟩ := q.frame_spec a hq
    cases k with
    | zero =>
      have hword : memRead32 (pullLoop (n + 1) a q).mem a = pack q.served := by
        rw [pullLoop, memRead32_pullLoop_below n le_rfl, hmem, memRead32_memWrite32_self _ hm (by omega)]
      refine (congrArg unpack hword).trans ((unpack_pack _).trans ?_)
      rw [PullRun.served]
      cases q.ring.contents <;> rfl
    | succ k =>
      have hm' : Memory.wf (q.frame a).mem = true := hmem ▸ Memory.wf_memWrite32 _ a _ hm (by omega)
      have hrest := ih (a + 4) (q.frame a) hwf hm' (by omega) (Nat.lt_of_succ_lt_succ hk)
      rw [pullLoop, show a + 4 * (k + 1) = a + 4 + 4 * k by omega, hrest, hqueue, hunder, PullRun.served]
      cases q.ring.contents with
      | nil => rfl
      | cons f fs => rw [List.getLastD_cons]; rfl

/-- The queue loses the frames read; the last of them, if any, is recorded. -/
theorem pullLoop_reads {nMax : Nat} (n a : Nat) (q : PullRun) (hq : q.ring.Wf nMax) :
    (pullLoop n a q).ring.contents = q.ring.contents.drop n ∧
      (pullLoop n a q).lastRead = (q.ring.contents.take n).getLastD q.lastRead ∧
      (pullLoop n a q).hasLast = (q.hasLast || !(q.ring.contents.take n).isEmpty) := by
  induction n generalizing a q with
  | zero => simp [pullLoop]
  | succ n ih =>
    obtain ⟨hwf, hqueue, -, -, hlast, hhas⟩ := q.frame_spec a hq
    obtain ⟨h1, h2, h3⟩ := ih (a + 4) (q.frame a) hwf
    rw [pullLoop, h1, h2, h3, hqueue, hlast, hhas]
    cases q.ring.contents with
    | nil => simp
    | cons f fs => simp only [List.take_succ_cons, List.getLastD_cons]; simp

/-! ### The statement's three cases -/

theorem getLastD_of_length_pos {fs : List Frame} (h : 0 < fs.length) (d e : Frame) :
    fs.getLastD d = fs.getD (fs.length - 1) e := by
  rw [List.getLastD_eq_getLast?, List.getLast?_eq_getElem?, List.getD_eq_getElem?_getD,
    List.getElem?_eq_getElem (by omega)]
  rfl

/-- A frame of the queue, the queue's last frame past its end, the underrun frame of an empty queue. -/
theorem getD_getLastD (fs : List Frame) (k : Nat) (u : Frame) :
    fs.getD k (fs.getLastD u) =
      if k < fs.length then fs.getD k Frame.zero
      else if 0 < fs.length then fs.getD (fs.length - 1) Frame.zero else u := by
  split
  next hk => rw [List.getD_eq_getElem _ _ hk, List.getD_eq_getElem _ _ hk]
  next hk =>
    rw [List.getD_eq_default _ _ (not_lt.mp hk)]
    split
    next h0 => exact getLastD_of_length_pos h0 _ _
    next h0 =>
      rw [List.length_eq_zero_iff.mp (Nat.eq_zero_of_not_pos h0)]
      rfl

/-- Settles O54: the loop from the state's own queue, of which it reads the lesser of the frames asked for and held. -/
theorem pullServesFifoThenRepeats : Obligations.PullServesFifoThenRepeats := by
  rintro s t dst n hinv hc rfl rfl hr hexec
  obtain ⟨-, -, hmem, -, hring, -⟩ := hinv
  rw [exec_engPull_of_admitted hc hr] at hexec
  cases hexec
  obtain ⟨hqueue, hlast, hhas⟩ := pullLoop_reads s.cport.arg1.toNat s.cport.arg0.toNat (pullStart s) hring
  have hread : (s.ring.contents.take s.cport.arg1.toNat).length = min s.cport.arg1.toNat s.ring.occ := by
    rw [List.length_take, RingState.contents_length]
  refine ⟨fun k hk => (pullLoop_serves _ _ (pullStart s) hring hmem (rangeOK_end_le hr) hk).trans ?served, hqueue,
    fun hpos => ⟨hhas.trans ?marked, hlast.trans ?last⟩, fun h0 => ?none⟩
  case served =>
    rw [getD_getLastD, RingState.contents_length]
    rfl
  case marked =>
    have hne : s.ring.contents.take s.cport.arg1.toNat ≠ [] := List.ne_nil_of_length_pos (by omega)
    simp [pullStart, hne]
  case last =>
    have hfront := getLastD_of_length_pos (hread.symm ▸ hpos) s.lastRead Frame.zero
    rw [hread, List.getD_eq_getElem?_getD, List.getElem?_take_of_lt (by omega),
      ← List.getD_eq_getElem?_getD] at hfront
    exact hfront
  case none =>
    have hnil : s.ring.contents.take s.cport.arg1.toNat = [] := List.length_eq_zero_iff.mp (hread.trans h0)
    simp only [pullStart, hnil] at hlast hhas
    exact ⟨hhas.trans (Bool.or_false _), hlast⟩

end Sys2Proof.Machine
end

section
/-! PROOF. The refusals of 60_exceptions.md R302 to R304: an illegal word, a legal word on the other port, and a command
in an engine state it does not run in set the port's code and change nothing else. -/

namespace Sys2Proof.Machine

/-! ### ERR_STATE -/

/-- Settles O11: the engine-state test comes before the command's body. -/
theorem wrongStateSetsErrState : Obligations.WrongStateSetsErrState := by
  intro i s h
  rw [exec_of_not_runs h]
  cases portOf i <;> rfl

/-! ### ERR_ILLEGAL and ERR_PORT -/

theorem issue_of_illegal {p : Port} {c : Word} {e : DecodeError} {s : State} (hb : busyOf p s = false)
    (he : decode c = .error e) : issue p c s = .next (s.withCode p .errIllegal) := by
  simp [issue, hb, he]

theorem issue_of_otherPort {p : Port} {c : Word} {i : Instr} {s : State} (hb : busyOf p s = false)
    (hi : decode c = .ok i) (hp : portOf i ≠ p) : issue p c s = .next (s.withCode p .errPort) := by
  simp [issue, hb, hi, hp]

theorem withCode_acquire (p q : Port) (c : Code) (s : State) :
    (s.acquire p).withCode q c = (s.withCode q c).acquire p := by cases q <;> rfl

/-- The step of a CMD write that only completes with a code. -/
theorem step_of_refusedWord {s : State} {p : Port} {c : Word} {rest : List Input} {code : Code}
    (hs : s.env.script = .write p 4 0 c :: rest) (hf : s.fault = false) (hp : stuckOf p s = false)
    (hl : s.lock = .free)
    (hissue : issue p c ((s.withScript rest).acquire p) = .next (((s.withScript rest).acquire p).withCode p code)) :
    step s = .next ((s.withScript rest).withCode p code) := by
  rw [withCode_acquire] at hissue
  exact step_of_section hs rfl hf hp hl hissue (by simpa using hl)

/-- A word that is no command's word is illegal. -/
theorem decode_of_notMem {c : Word} (h : c ∉ commands.map encode) : ∃ e, decode c = .error e := by
  cases hd : decode c with
  | error e => exact ⟨e, rfl⟩
  | ok i => exact absurd (eq_encode_of_decode hd ▸ List.mem_map_of_mem (mem_commands i)) h

/-- Settles O9: the words listed are the commands' words, so the word does not decode. -/
theorem illegalWordSetsErrIllegal : Obligations.IllegalWordSetsErrIllegal := by
  intro s p c rest hs hf hp hl hidle hc
  obtain ⟨e, he⟩ := decode_of_notMem hc
  rw [step_of_refusedWord hs hf hp hl (issue_of_illegal (busyOf_eq_false hidle) he)]
  cases p <;> rfl

theorem portOf_eq_consumer_iff {i : Instr} : portOf i = .consumer ↔ i = .rbRead ∨ i = .engPull := by
  cases i <;> simp [portOf]

/-- Settles O10: of two ports the word's own is the one that is not written to. -/
theorem wrongPortSetsErrPort : Obligations.WrongPortSetsErrPort := by
  intro s p c i rest hs hf hp hl hidle hi hother
  have hport : portOf i ≠ p := by
    rw [← portOf_eq_consumer_iff] at hother
    rintro rfl
    cases h : portOf i <;> simp [h] at hother
  rw [step_of_refusedWord hs hf hp hl (issue_of_otherPort (busyOf_eq_false hidle) hi hport)]
  cases p <;> rfl

end Sys2Proof.Machine
end

section
/-! PROOF. The faults: a faulted block has no step but the host's (60_exceptions.md R305, R309), and what a step can raise,
on which condition and with which information (R306, R314). -/

namespace Sys2Proof.Machine

/-! ### The faulted block -/

theorem agentStep_of_faulted {s : State} (hf : s.fault = true) (p : Port) (body : State → Result) :
    agentStep p s body = .fault .blockFaulted := if_pos hf

theorem agentOf_of_inputByAgent {x : Input} (h : inputByAgent x = true) : ∃ p, agentOf x = some p := by
  cases x with
  | read p | write p => exact ⟨p, rfl⟩
  | wake => exact ⟨.producer, rfl⟩
  | powerOn | hostWrite => cases h

/-- Settles O14: both agents' steps and the idle step test the fault first, and power-on reset does not. -/
theorem faultedBlockHasNoStep : Obligations.FaultedBlockHasNoStep := by
  refine fun s hf => ⟨fun hs => ?idle, fun x rest hs hx => ?agent, fun rest hs => ?reset⟩
  case idle =>
    rw [step_of_script_nil hs]
    exact if_pos hf
  case agent =>
    obtain ⟨p, hp⟩ := agentOf_of_inputByAgent hx
    rw [step_of_agent hs hp]
    exact agentStep_of_faulted (s := s.withScript rest) hf p _
  case reset => exact ⟨powerOn (s.withScript rest), step_of_script_cons hs, rfl⟩

/-! ### What a command and an action raise -/

/-- The faults of the commands, each on its condition and with its information (60_exceptions.md R306). -/
inductive CommandRaises (s : State) : Instr → FaultCause → Word → Prop
  | resampleSpeed (i : Instr) (hi : i = .rsResample ∨ i = .rsResampleDry) (hsp : s.pport.arg2.toInt ≤ 0) :
      CommandRaises s i .fSpeed s.pport.arg2
  | estimateSpeed (hsp : s.pport.arg1.toInt ≤ 0) : CommandRaises s .rsEstimate .fSpeed s.pport.arg1
  | ringFull (hfull : s.ring.full = true) : CommandRaises s .rbWrite .fRbFull (wideWord .finfo s.ring.w)

/-- The faults of an agent's action: a malformed access, a CMD write while the producer is busy, and the faults of the
command issued. The Wake raises none. -/
inductive ActionRaises (s : State) : Input → FaultCause → Word → Prop
  | malformedRead (p : Port) (width : Nat) (off : Word) (hbad : accessOK width off = false) :
      ActionRaises s (.read p width off) .fPort off
  | malformedWrite (p : Port) (width : Nat) (off v : Word) (hbad : accessOK width off = false) :
      ActionRaises s (.write p width off v) .fPort off
  | busy (v : Word) (hb : s.iphase ≠ .idle) : ActionRaises s (.write .producer 4 0 v) .fBusy v
  | command (i : Instr) (c : FaultCause) (v : Word) (hidle : s.iphase = .idle) (hc : CommandRaises s i c v) :
      ActionRaises s (.write .producer 4 0 (encode i)) c v

/-- The fault bit is as it was, or one of the given faults was raised and nothing else was done. -/
def RaisesOnly (raises : FaultCause → Word → Prop) (s t : State) : Prop :=
  t.fault = s.fault ∨ ∃ c v, raises c v ∧ t = raiseFault c v s

theorem CommandRaises.portOf_eq {s : State} {i : Instr} {c : FaultCause} {v : Word} (h : CommandRaises s i c v) :
    portOf i = .producer := by
  cases h with
  | resampleSpeed _ hi => rcases hi with rfl | rfl <;> rfl
  | estimateSpeed | ringFull => rfl

/-- The script and the lock decide nothing about a fault. -/
theorem ActionRaises.of_section {s : State} {p : Port} {l : List Input} {x : Input} {c : FaultCause} {v : Word}
    (h : ActionRaises ((s.withScript l).acquire p) x c v) : ActionRaises s x c v := by
  cases h with
  | malformedRead p width _ hbad => exact .malformedRead p width _ hbad
  | malformedWrite p width _ w hbad => exact .malformedWrite p width _ w hbad
  | busy v hb => exact .busy v hb
  | command i c v hidle hc =>
    refine .command i c v hidle ?_
    cases hc with
    | resampleSpeed i hi hsp => exact .resampleSpeed i hi hsp
    | estimateSpeed hsp => exact .estimateSpeed hsp
    | ringFull hfull => exact .ringFull hfull

/-! ### They raise nothing else -/

section Raising

variable {s t : State}

theorem RaisesOnly.of_whenRuns {raises : FaultCause → Word → Prop} {p : Port} {runs : Bool} {body : Result}
    (h : whenRuns p runs s body = .next t) (hbody : body = .next t → RaisesOnly raises s t) :
    RaisesOnly raises s t := by
  obtain ⟨-, rfl⟩ | ⟨-, h⟩ := whenRuns_next h
  · exact .inl (State.withCode_fault _ _ s)
  · exact hbody h

theorem ingestAttempt_fault {k : Nat} {src count : Word} (h : ingestAttempt k src count s = .next t) :
    t.fault = s.fault := by
  obtain ⟨-, -, he⟩ | ⟨-, -, he⟩ | ⟨-, -, he⟩ := ingestAttempt_eq k src count s <;> cases he.symm.trans h <;> rfl

theorem ingestWake_fault (h : ingestWake s = .next t) : t.fault = s.fault := by
  unfold ingestWake at h
  split at h
  · cases h
  · exact ingestAttempt_fault h

theorem trunc32_sext32 (v : Word) : trunc32 (sext32 v) = v := BitVec.ofInt_toInt

theorem exec_raisesOnly {i : Instr} (h : exec i s = .next t) : RaisesOnly (CommandRaises s i) s t := by
  cases i <;> refine .of_whenRuns h fun h => ?_
  case rsInit | rsIsNeeded | rsReset | rbFill | rcAdjust | engInit | engOccupancy | engReset | engQuit =>
    cases h
    exact .inl rfl
  case rbRead | engResize | engPull => split at h <;> cases h <;> exact .inl rfl
  case engIngest =>
    split at h
    · cases h
      exact .inl rfl
    · exact .inl (ingestAttempt_fault h)
  case rsResample | rsResampleDry =>
    split at h
    next hsp =>
      cases h
      exact .inr ⟨_, _, .resampleSpeed _ (by simp) hsp, by rw [trunc32_sext32]⟩
    next => split at h <;> cases h <;> exact .inl rfl
  case rsEstimate =>
    split at h <;> cases h
    next hsp => exact .inr ⟨_, _, .estimateSpeed hsp, by rw [trunc32_sext32]⟩
    next => exact .inl rfl
  case rbWrite =>
    split at h <;> cases h
    next hfull => exact .inr ⟨_, _, .ringFull hfull, rfl⟩
    next => exact .inl rfl

theorem busyOf_eq_true {p : Port} (h : busyOf p s = true) : p = .producer ∧ s.iphase ≠ .idle := by
  cases p with
  | producer => exact ⟨rfl, (IngestPhase.busy_iff _).mp h⟩
  | consumer => cases h

theorem idle_of_producer_not_busy (h : busyOf .producer s = false) : s.iphase = .idle := by
  by_contra hne
  exact Bool.false_ne_true (h.symm.trans ((IngestPhase.busy_iff _).mpr hne))

theorem issue_raisesOnly {p : Port} {c : Word} (h : issue p c s = .next t) :
    RaisesOnly (ActionRaises s (.write p 4 0 c)) s t := by
  obtain ⟨hb, rfl⟩ | ⟨-, -, rfl⟩ | ⟨-, _, -, -, rfl⟩ | ⟨hb, i, hi, rfl, he⟩ := issue_next h
  · obtain ⟨rfl, hbusy⟩ := busyOf_eq_true hb
    exact .inr ⟨_, _, .busy c hbusy, rfl⟩
  · exact .inl (State.withCode_fault _ _ s)
  · exact .inl (State.withCode_fault _ _ s)
  · obtain hkept | ⟨cause, v, hraise, ht⟩ := exec_raisesOnly he
    · exact .inl hkept
    · have hp := hraise.portOf_eq
      rw [hp] at hb ⊢
      rw [eq_encode_of_decode hi]
      exact .inr ⟨cause, v, .command i cause v (idle_of_producer_not_busy hb) hraise, ht⟩

theorem readAccess_raisesOnly {p : Port} {width : Nat} {off : Word} (h : readAccess p width off s = .next t) :
    RaisesOnly (ActionRaises s (.read p width off)) s t := by
  obtain ⟨-, rfl⟩ | ⟨hbad, rfl⟩ := readAccess_next h
  · exact .inl (State.withBus_fault _ _ s)
  · exact .inr ⟨_, _, .malformedRead p width off hbad, rfl⟩

theorem writeAccess_raisesOnly {p : Port} {width : Nat} {off v : Word} (h : writeAccess p width off v s = .next t) :
    RaisesOnly (ActionRaises s (.write p width off v)) s t := by
  obtain ⟨hok, rfl, hissue⟩ | ⟨-, -, rfl⟩ | ⟨hbad, rfl⟩ := writeAccess_next h
  · rw [accessOK_width hok]
    exact issue_raisesOnly hissue
  · exact .inl (writeReg_fault _ _ _ s)
  · exact .inr ⟨_, _, .malformedWrite p width off v hbad, rfl⟩

/-! ### Faulting steps -/

/-- A section that sets the fault bit of an unfaulted block changes the three fault fields of the state it began in. -/
theorem RaisesOnly.release_eq {p : Port} {rest : List Input} {x : Input}
    (h : RaisesOnly (ActionRaises ((s.withScript rest).acquire p) x) ((s.withScript rest).acquire p) t)
    (hl : s.lock = .free) (hf : s.fault = false) (ht : t.release.fault = true) :
    ∃ c v, ActionRaises s x c v ∧
      t.release = { s with env := { s.env with script := rest }, fault := true, fcause := c, finfo := v } := by
  obtain hkept | ⟨c, v, hraise, rfl⟩ := h
  · exact absurd (hf.symm.trans (hkept.symm.trans ht)) Bool.false_ne_true
  · refine ⟨c, v, hraise.of_section, ?_⟩
    rw [raiseFault_acquire, State.release_acquire p (by simpa using hl),
      raiseFault_of_unfaulted (s := s.withScript rest) hf]
    rfl

/-- A faulting step takes one action off the script and raises a fault of that action, nothing more. -/
theorem step_raises (h : step s = .next t) (hf : s.fault = false) (ht : t.fault = true) :
    ∃ x rest c v, s.env.script = x :: rest ∧ ActionRaises s x c v ∧
      t = { s with env := { s.env with script := rest }, fault := true, fcause := c, finfo := v } := by
  obtain ⟨-, -, -, -, -, u, hu, rfl⟩ | ⟨-, -, -, -, -, rfl⟩ | ⟨rest, -, rfl⟩ | ⟨a, b, rest, -, rfl⟩ |
    ⟨rest, -, -, -, -, u, hu, rfl⟩ | ⟨p, width, off, rest, hs, -, -, hl, u, hu, rfl⟩ |
    ⟨p, width, off, v, rest, hs, -, -, hl, u, hu, rfl⟩ := step_next h
  · simp [ingestWake_fault hu, hf] at ht
  · simp [hf] at ht
  · cases ht
  · simp [hostStore, hf] at ht
  · simp [ingestWake_fault hu, hf] at ht
  · obtain ⟨c, info, hraise, heq⟩ := (readAccess_raisesOnly hu).release_eq hl hf ht
    exact ⟨_, rest, c, info, hs, hraise, heq⟩
  · obtain ⟨c, info, hraise, heq⟩ := (writeAccess_raisesOnly hu).release_eq hl hf ht
    exact ⟨_, rest, c, info, hs, hraise, heq⟩

end Raising

/-- Settles O15: the next state of a faulting step is given whole. -/
theorem faultChangesOnlyFaultFields : Obligations.FaultChangesOnlyFaultFields := by
  intro s t h hf ht
  obtain ⟨x, rest, c, v, hs, -, rfl⟩ := step_raises h hf ht
  rw [hs]
  rfl

theorem accessOK_eq_false_iff {width : Nat} {off : Word} :
    accessOK width off = false ↔ ¬ (width = 4 ∧ off.toNat % 4 = 0 ∧ off.toNat ≤ 0xFC) := by
  rw [← accessOK_iff, Bool.not_eq_true]

/-- Settles O16: the four causes are the constructors of the two relations, and a command has one word. -/
theorem faultCausesAreExact : Obligations.FaultCausesAreExact := by
  intro s t h hf ht
  obtain ⟨x, rest, c, v, hs, hraise, rfl⟩ := step_raises h hf ht
  refine ⟨x, rest, hs, ?_⟩
  cases hraise with
  | malformedRead p width _ hbad =>
    exact .inl ⟨rfl, p, width, _, 0, .inl rfl, accessOK_eq_false_iff.mp hbad, rfl⟩
  | malformedWrite p width _ w hbad =>
    exact .inl ⟨rfl, p, width, _, w, .inr rfl, accessOK_eq_false_iff.mp hbad, rfl⟩
  | busy v hb => exact .inr (.inl ⟨rfl, hb, rfl⟩)
  | command i c v hidle hc =>
    cases hc with
    | resampleSpeed _ hi hsp =>
      refine .inr (.inr (.inl ⟨rfl, hidle, .inl ⟨?_, hsp, rfl⟩⟩))
      exact hi.imp (by rintro rfl; rfl) (by rintro rfl; rfl)
    | estimateSpeed hsp => exact .inr (.inr (.inl ⟨rfl, hidle, .inr ⟨rfl, hsp, rfl⟩⟩))
    | ringFull hfull => exact .inr (.inr (.inr ⟨rfl, hidle, rfl, hfull, fun hw => if_pos hw⟩))

end Sys2Proof.Machine
end

section
/-! PROOF. Power-on reset (70_reset_and_hazards.md R340, R341): it takes every state to the reset state, in which every
register but the step's low word reads 0. -/

namespace Sys2Proof.Machine

/-- Settles O5: power-on reset is no agent's step, so neither the fault, nor a stuck agent, nor the lock stops it. -/
theorem powerOnFromAnyState : Obligations.PowerOnFromAnyState := fun _ _ hs => step_of_script_cons hs

/-- The step's reset value is ONE, and its low word is the one view that does not read 0. -/
theorem readProducer_reset (off : Nat) : readProducer off State.reset = if off = 0x38 then 0x00010000 else 0 := by
  unfold readProducer
  split
  case h_22 => exact (if_neg ‹off ≠ 0x38›).symm
  all_goals rfl

theorem readConsumer_reset (off : Nat) : readConsumer off State.reset = 0 := by
  unfold readConsumer
  split <;> rfl

/-- Settles O4: both windows read as said at every offset, the aligned ones among them. -/
theorem registersAfterReset : Obligations.RegistersAfterReset := by
  intro off _ _
  have hoff : off = 0x38 ↔ off.toNat = 0x38 := BitVec.toNat_inj.symm
  simp only [hoff]
  exact ⟨readProducer_reset off.toNat, readConsumer_reset off.toNat⟩

end Sys2Proof.Machine
end

section
/-! PROOF. The accesses of a producer whose ENG.INGEST sleeps (70_reset_and_hazards.md R353): a CMD write raises F_BUSY,
and every other access goes on. -/

namespace Sys2Proof.Machine

theorem issue_of_busy {p : Port} {s : State} (hb : busyOf p s = true) (c : Word) :
    issue p c s = .next (raiseFault .fBusy c s) := if_pos hb

theorem busyOf_of_sleeping {s : State} {k : Nat} {src count : Word} (hi : s.iphase = .sleeping k src count) :
    busyOf .producer s = true := by
  rw [busyOf, hi]
  rfl

/-- Settles O12: the busy test is the first of a CMD write and stands in no other access. -/
theorem busyCommandWriteFaults : Obligations.BusyCommandWriteFaults := by
  refine ⟨?command, ?other, fun _ => rfl⟩
  case command =>
    intro s c rest k src count hs hf hp hl hi
    have hbusy : busyOf .producer ((s.withScript rest).acquire .producer) = true := busyOf_of_sleeping hi
    have hraise : actionBody (.write .producer 4 0 c) ((s.withScript rest).acquire .producer) =
        .next ((raiseFault .fBusy c (s.withScript rest)).acquire .producer) := by
      rw [actionBody, writeAccess_cmd, issue_of_busy hbusy, raiseFault_acquire]
    rw [step_of_section hs rfl hf hp hl hraise (by simpa using hl),
      raiseFault_of_unfaulted (s := s.withScript rest) hf]
    rfl
  case other =>
    intro s off v rest k src count hs halign hwin hf hp hl _
    rcases hs with hs | ⟨h0, hs⟩
    · exact ⟨_, registerReadChangesNothing s .producer off rest hs halign hwin hf hp hl, hf, rfl, rfl⟩
    · exact ⟨_, step_of_writeReg hs hf hp hl (accessOK_iff.mpr ⟨rfl, halign, hwin⟩) h0,
        (writeReg_fault _ _ _ _).trans hf, writeReg_iphase _ _ _ _, congrArg Env.script (writeReg_env _ _ _ _)⟩

end Sys2Proof.Machine
end

section
/-! PROOF. The free space a producer computes for itself (70_reset_and_hazards.md R355): from RB.FILL's fraction, and
from a read cursor that the consumer has moved since. -/

namespace Sys2Proof.Machine

theorem RingState.fillFx_eq {g : RingState} (h0 : g.cap ≠ 0) : g.fillFx = g.occ * 65536 / g.cap := if_neg h0

theorem RingState.freeSpace_eq {g : RingState} (h0 : g.cap ≠ 0) : g.freeSpace = g.cap - 1 - g.occ := if_neg h0

/-- The fraction is rounded down, so one unit more of it stands for more frames than the ring holds. -/
theorem RingState.occ_lt_ceil_fillFx {g : RingState} (h0 : g.cap ≠ 0) :
    g.occ < ((g.fillFx + 1) * g.cap + 65535) / 65536 := by
  have habove : g.occ * 65536 < (g.fillFx + 1) * g.cap := by
    rw [RingState.fillFx_eq h0, Nat.mul_comm (_ + 1)]
    exact Nat.lt_mul_div_succ _ (Nat.pos_of_ne_zero h0)
  omega

/-- In a ring of at most ONE slots one unit of the fraction is at most one frame. -/
theorem RingState.ceil_fillFx_le {g : RingState} (h0 : g.cap ≠ 0) (hcap : g.cap ≤ 65536) :
    ((g.fillFx + 1) * g.cap + 65535) / 65536 ≤ g.occ + 1 := by
  have hbelow : g.fillFx * g.cap ≤ g.occ * 65536 := by
    rw [RingState.fillFx_eq h0]
    exact Nat.div_mul_le_self _ _
  rw [Nat.succ_mul]
  omega

/-- The occupancy before a read, as a producer computes it from the read cursor it saw then. -/
theorem RingState.occ_of_older_cursor {g h : RingState} {f : Frame} (h0 : g.cap ≠ 0) (hp : g.pop = some (f, h)) :
    ((h.w : Int) - g.r) % g.cap = g.occ := by
  rw [RingState.pop_eq hp, RingState.occ, if_neg h0, Int.toNat_of_nonneg (Int.emod_nonneg _ (by omega))]

/-- Settles O44: RB.FILL's figure counts at least one frame more than the ring holds, and a read only frees a slot. -/
theorem fillReadBoundsFreeSpace : Obligations.FillReadBoundsFreeSpace := by
  intro nMax g hg h2
  have h0 : g.cap ≠ 0 := by omega
  have hocc := RingState.occ_lt hg h0
  have hfree := RingState.freeSpace_eq h0
  refine ⟨?below, fun hcap => ?within, fun h f hp => ?older⟩
  case below =>
    have hceil := RingState.occ_lt_ceil_fillFx h0
    omega
  case within =>
    have hceil := RingState.ceil_fillFx_le h0 hcap
    omega
  case older =>
    have hread := RingState.occ_pop hg hp
    have hcap : h.cap = g.cap := by rw [RingState.pop_eq hp]
    have hfree' := RingState.freeSpace_eq (hcap ▸ h0)
    rw [RingState.occ_of_older_cursor h0 hp]
    omega

end Sys2Proof.Machine
end
